-- ==== Sys2Proof/Word.lean ====
section
/-! DEFINITION. The byte and the integer widths of the block (00_scope.md R5, R6). Every integer is unsigned. -/

namespace Sys2Proof

/-- One byte, bit 0 the least significant (R5 `BYTE_W`, R6). -/
abbrev Byte := BitVec 8

/-- A 16-bit value: `xlen`, a subfield data length, the header checksum, a half of `ERR_INFO` (R5, R30). -/
abbrev Half := BitVec 16

/-- A 32-bit value: `H.MTIME`, the CRC register, `ERR_INFO` (R5, R30, R36). -/
abbrev Word32 := BitVec 32

/-- A finite byte sequence, first byte first (R6). -/
abbrev Bytes := List Byte

end Sys2Proof
end

