-- ==== Sys2Proof/Config.lean ====
section
/-! DEFINITION. What an implementation fixes (00_scope.md R5) and the two values the spec leaves open. -/

namespace Sys2Proof

/-- R9: the level at which the two streaming operations run. -/
inductive Grain
  /-- DECODE and ENCODE are one atomic step each: the normative level. -/
  | operation
  /-- DECODE takes one step a source byte (R144 to R147), ENCODE one step a sink byte (R172). -/
  | byteSerial
  deriving DecidableEq, Repr

/-- The open parameters of R5 and the level of R9. They stand in `State` because a step reads the state only; no step
changes them. A capacity of `none` is unbounded (D9). `EXTRA_POLICY` has the one value `reject` (D7) and is no field. -/
structure Params where
  nameCap : Option Nat
  commentCap : Option Nat
  extraCap : Option Nat
  grain : Grain
  deriving DecidableEq, Repr

namespace Config

/-- R5: the values this spec gives the parameters, at the normative level of R9 (DESIGN CHOICE, entries 1 and 2). -/
def specParams : Params :=
  { nameCap := none, commentCap := none, extraCap := none, grain := .operation }

/-- What a 16-bit half of `ERR_INFO` holds for a count above 65535 that a short `BR_READ` reports. R187 and R195 give the
halves `want` and `got` and no rule says how a larger count fits; the parser never asks for so many (R47). A FREE VALUE
(DESIGN CHOICE, entry 11). -/
opaque halfOfLarge : Nat → Half

/-- The two bytes, as a number, that `FIELD_ENC` puts in the length place of a Field with more than 65535 bytes of data. R112 gives
the operation and keeps its operand below that ("the caller checks"); no rule states the two bytes above it, and ENCODE never
asks. A FREE VALUE (DESIGN CHOICE, entry 14). -/
opaque lengthOfLarge : Nat → Half

end Config

end Sys2Proof
end

