-- ==== Sys2Proof/Syntax.lean ====
section
/-! DEFINITION. The instructions: one constructor for each row of spec/opcode_table.json, in the table's order. -/

namespace Sys2Proof

/-- R19: one FEXTRA subfield, the pair `(ids, data)`. `ids` is two named bytes, so that `len(ids) = 2` holds of every value
of the type; `data` has any length. -/
structure Field where
  ids0 : Byte
  ids1 : Byte
  data : Bytes
  deriving DecidableEq, Repr

/-- R141: which string `PARSE_ZSTR(section)` reads: 2, the filename, or 3, the comment. -/
inductive StrSection
  | name
  | comment
  deriving DecidableEq, Repr

/-- The operations of the hardware (00_scope.md R7, 30_encoding.md R61 to R67, R72, R77, R78). -/
inductive Instr
  -- host commands (R77)
  | hdrInit
  | decode
  | encode
  | wrCm (v : Byte)
  | wrFlg (v : Byte)
  | wrMtime (v : Word32)
  | wrXfl (v : Byte)
  | wrOs (v : Byte)
  | rdCm
  | rdFlg
  | rdMtime
  | rdXfl
  | rdOs
  | setExtra (ps : List (Bytes × Bytes))
  | clrExtra
  | rdExtra
  | setName (text : Bytes)
  | clrName
  | rdName
  | setComment (text : Bytes)
  | clrComment
  | rdComment
  | fieldNew (ids data : Bytes)
  | crc16 (bs : Bytes)
  -- a command code that R77 does not list (R78)
  | reserved (code : Byte)
  -- the wire format (R61 to R67, R72): what the parser fetches from the source
  | gzipFixed (cm flg : Byte) (mtime : Word32) (xfl os : Byte)
  | ftext
  | fhcrc
  | fextra
  | fname
  | fcomment
  | flgUnnamed (bits : BitVec 3)
  | fextraSection (xlen : Half)
  | subfield (ids0 ids1 : Byte) (data : Bytes)
  | zstring (text : Bytes)
  | headerCrc (stored : Half)
  -- internal procedures, without a code (R111, R112, R120 to R122, R139, R141, R175, R176)
  | brOpen
  | brRead (n : Nat)
  | brSnapshot
  | parseExtra
  | parseZstr (sec : StrSection)
  | fieldLen (f : Field)
  | fieldEnc (f : Field)
  | crc32 (bs : Bytes)
  | crc16Fn (bs : Bytes)
  deriving DecidableEq, Repr

end Sys2Proof
end

