-- ==== Sys2Proof/Machine/State.lean ====
section
/-! DEFINITION. The state of the block as plain data (10_state.md R10 to R36), with the host side that a step needs
(R33; entry 3), the state after reset (R34) and the reasons a step can stop. -/

namespace Sys2Proof.Machine

/-- R10: the eight components of a Header. -/
structure Header where
  cm : Byte
  flg : Byte
  mtime : Word32
  xfl : Byte
  os : Byte
  extra : Option (List Field)
  name : Option Bytes
  comment : Option Bytes
  deriving DecidableEq, Repr

/-- R90, R34: the Header "constructed fresh with default values". -/
def Header.fresh : Header :=
  { cm := 8#8, flg := 0#8, mtime := 0#32, xfl := 0#8, os := 255#8, extra := none, name := none, comment := none }

/-- R25: the Byte Reader. `bound` is `R.SRC`, the binding; the content of the stream is the host's (R33). -/
structure Reader where
  bound : Bool
  buf : Bytes
  pos : Nat
  deriving DecidableEq, Repr

/-- R26, R144: `P.PH`, this hardware's program counter. -/
inductive Phase
  | idle
  | magic
  | fixed
  | xlen
  | sfTag
  | sfLen
  | sfData
  | name
  | comment
  | hcrc
  deriving DecidableEq, Repr

/-- R26: the parser's sequencing state. -/
structure Parser where
  ph : Phase
  cnt : Nat
  rem : Half
  slen : Half
  tag : Byte × Byte
  tmp : Bytes
  acc : Bytes
  w : Header
  snap : Half
  deriving DecidableEq, Repr

/-- R27, R172: `S.PH`. -/
inductive SerPhase
  | idle
  | sFixed
  | sXlen
  | sSubfield
  | sName
  | sComment
  | sHcrc
  deriving DecidableEq, Repr

/-- R27: the serializer's sequencing state; `snap` is the checksum R172 latches on entry to `S_HCRC`. -/
structure Serializer where
  ph : SerPhase
  idx : Nat
  out : Bytes
  snap : Half
  deriving DecidableEq, Repr

/-- R194: the eight kinds of fault of the block. They are outcomes of a command (R8), not stops of the machine. -/
inductive FaultKind
  | invalidMagic
  | unexpectedEndOfStream
  | checksumMismatch
  | invalidFieldIds
  | malformedExtra
  | encodeOverflow
  | capacityExceeded
  | illegalCommand
  deriving DecidableEq, Repr

/-- R195: a fault with its information `(A, B)`. -/
structure FaultRec where
  kind : FaultKind
  a : Half
  b : Half
  deriving DecidableEq, Repr

/-- The values an operation returns (R75, R77; the internal procedures' in their rules). -/
inductive Value
  | unit
  | u8 (v : Byte)
  | u16 (v : Half)
  | u32 (v : Word32)
  | nat (n : Nat)
  | bits3 (v : BitVec 3)
  | bytes (s : Bytes)
  | optBytes (s : Option Bytes)
  | field (f : Field)
  | fields (fs : List Field)
  | optFields (fs : Option (List Field))
  deriving DecidableEq, Repr

/-- R8: an operation ends in exactly one of two outcomes. -/
inductive Response
  | ok (v : Value)
  | fault (f : FaultRec)
  deriving DecidableEq, Repr

/-- What the host does next (20_memory.md R55, R80, R215; entry 3). -/
inductive HostAction
  /-- One CMD transaction: the bytes of a command code and its operand (R55, R75; entries 5, 6). -/
  | cmd (bs : Bytes)
  /-- `BIND_SRC b` (R80): bind SRC to `b`, position at its first byte. -/
  | bindSrc (b : Bytes)
  /-- A REG transaction: read the register of this index (R32, R55). -/
  | readReg (index : Nat)
  /-- Reset (R215): at once when the block is idle; when a command runs, after `after` more of its steps (entry 19). -/
  | reset (after : Nat)
  deriving DecidableEq, Repr

/-- One transaction of SNK (R55): a byte of an encoded header, with the "last" mark on the final one. -/
structure SinkByte where
  byte : Byte
  last : Bool
  deriving DecidableEq, Repr

/-- R33: the host side of the interfaces SRC, SNK, CMD and REG (entry 3). -/
structure HostSide where
  /-- The bytes the source stream still holds (R41). -/
  src : Bytes
  /-- What the sink has received, first byte first (R42), each byte with its mark (R55). -/
  snk : List SinkByte
  /-- The outcome that CMD presented last. -/
  rsp : Option Response
  /-- What REG answered last. -/
  reg : Option Value
  /-- What the host does next. -/
  script : List HostAction
  deriving DecidableEq, Repr

/-- The state: every piece of state of 10_state.md, the parameters of R5, the host side of R33, and one field of the
model's own. -/
structure State where
  /-- R10: the Header register file `H`. -/
  h : Header
  /-- R25: the Byte Reader `R`. -/
  r : Reader
  /-- R26: the parser `P`. -/
  p : Parser
  /-- R27: the serializer `S`. -/
  ser : Serializer
  /-- R36 (b): the CRC working register `C`. -/
  c : Word32
  /-- R29: BUSY is bit 0, DONE bit 1, ERR bit 2. -/
  status : BitVec 3
  /-- R30: the code of the fault of the last command, 0 for `ok`. -/
  err : Byte
  /-- R30: `A` in bits 15:0, `B` in bits 31:16. -/
  errInfo : Word32
  /-- R31. -/
  len : Nat
  /-- R5, R9: the parameters. No step changes them (entries 1 and 2). -/
  params : Params
  /-- R33: the host side. -/
  out : HostSide
  /-- The model's own: the value an internal procedure hands to its caller (R7 `return v`; entry 8). -/
  ret : Value
  deriving DecidableEq, Repr

/-- Why the machine stops where no rule gives an effect. -/
inductive Fault
  /-- Raised by the meanings of the wire-format rows: the element stands where the parser's phase does not expect it. R26
  makes P.PH the section of the header the next source byte belongs to, and no rule gives such an element an effect
  there. The parser never offers one. Safe: the model stops (entry 13). -/
  | outOfPhase
  deriving DecidableEq, Repr

/-- Why the machine gives no meaning. -/
inductive Refusal
  /-- Raised by an arm of `exec` that has no meaning yet: none in this model. Safe. -/
  | notModelled (mnemonic : String)
  /-- Raised by `step` on a CMD transaction that is not one command code with its operand. R75 passes an operand as a value,
  so no rule speaks of such a transaction. Safe: the model stops (entry 6). -/
  | notACommand
  /-- Raised by `step` on a REG read of an index above 11: R32 lists no such register. Safe: the model stops (entry 23). -/
  | noSuchRegister
  deriving DecidableEq, Repr

/-- R26, R34: the parser after reset. Only the phase is given; the rest is the model's (DESIGN CHOICE, entry 7). -/
def Parser.atReset : Parser :=
  { ph := .idle, cnt := 0, rem := 0#16, slen := 0#16, tag := (0#8, 0#8), tmp := [], acc := [], w := Header.fresh,
    snap := 0#16 }

/-- R34: the state after reset, with the spec's parameters, nothing bound, and a host that does nothing. The values that
R34 leaves unspecified are the model's (entries 7, 8); the host side is entry 3. -/
def State.reset : State :=
  { h := Header.fresh
    r := { bound := false, buf := [], pos := 0 }
    p := Parser.atReset
    ser := { ph := .idle, idx := 0, out := [], snap := 0#16 }
    c := 0#32
    status := 0#3
    err := 0#8
    errInfo := 0#32
    len := 0
    params := Config.specParams
    out := { src := [], snk := [], rsp := none, reg := none, script := [] }
    ret := .unit }

/-! ### Named updates -/

/-- Replace the Header. -/
def State.setH (s : State) (h : Header) : State := { s with h := h }

/-- Replace the Byte Reader. -/
def State.setR (s : State) (r : Reader) : State := { s with r := r }

/-- Replace the parser. -/
def State.setP (s : State) (p : Parser) : State := { s with p := p }

/-- Replace the serializer. -/
def State.setSer (s : State) (x : Serializer) : State := { s with ser := x }

/-- Replace the CRC register. -/
def State.setC (s : State) (c : Word32) : State := { s with c := c }

/-- Replace `LEN`. -/
def State.setLen (s : State) (n : Nat) : State := { s with len := n }

/-- Replace the host side. -/
def State.setOut (s : State) (x : HostSide) : State := { s with out := x }

/-- Hand a value to the caller of an internal procedure. -/
def State.setRet (s : State) (v : Value) : State := { s with ret := v }

end Sys2Proof.Machine
end

