-- ==== Sys2Proof/Machine/Flags.lean ====
section
/-! DEFINITION. The bits of `H.FLG` (10_state.md R12), of `STATUS` (R29), the fault codes (60_exceptions.md R194) and the
information register (R195). -/

namespace Sys2Proof.Machine

/-! ### The FLG byte -/

/-- R12: the FHCRC bit. -/
def fhcrcSet (flg : Byte) : Bool := flg.getLsbD 1

/-- R12: the FEXTRA bit. -/
def fextraSet (flg : Byte) : Bool := flg.getLsbD 2

/-- R12: the FNAME bit. -/
def fnameSet (flg : Byte) : Bool := flg.getLsbD 3

/-- R12: the FCOMMENT bit. -/
def fcommentSet (flg : Byte) : Bool := flg.getLsbD 4

/-- R92: bits 0, 1, 7:5 from the operand, the presence bits 2, 3, 4 kept. -/
def flgMasked (v flg : Byte) : Byte := (v &&& 0xE3#8) ||| (flg &&& 0x1C#8)

/-- R101. -/
def flgWithExtra (flg : Byte) : Byte := flg ||| 0x04#8

/-- R102. -/
def flgWithoutExtra (flg : Byte) : Byte := flg &&& 0xFB#8

/-- R104. -/
def flgWithName (flg : Byte) : Byte := flg ||| 0x08#8

/-- R105. -/
def flgWithoutName (flg : Byte) : Byte := flg &&& 0xF7#8

/-- R107. -/
def flgWithComment (flg : Byte) : Byte := flg ||| 0x10#8

/-- R108. -/
def flgWithoutComment (flg : Byte) : Byte := flg &&& 0xEF#8

/-! ### STATUS, ERR, ERR_INFO -/

/-- R29: `STATUS` after a command that ended `ok`: DONE. -/
def statusOk : BitVec 3 := 0b010#3

/-- R29, R199 (a): `STATUS` after a command that ended in a fault: DONE and ERR. -/
def statusFault : BitVec 3 := 0b110#3

/-- R29: BUSY set, the record of the last command kept (R200). -/
def statusBusy (st : BitVec 3) : BitVec 3 := st ||| 0b001#3

/-- R194: the code of a fault. -/
def faultCode : FaultKind → Byte
  | .invalidMagic => 1#8
  | .unexpectedEndOfStream => 2#8
  | .checksumMismatch => 3#8
  | .invalidFieldIds => 4#8
  | .malformedExtra => 5#8
  | .encodeOverflow => 6#8
  | .capacityExceeded => 7#8
  | .illegalCommand => 8#8

/-- R195: `A` in bits 15:0, `B` in bits 31:16. -/
def faultInfo (f : FaultRec) : Word32 := f.b ++ f.a

/-- A byte as a half, for the information of InvalidMagic and IllegalCommand (R195). -/
def byteHalf (b : Byte) : Half := b.setWidth 16

end Sys2Proof.Machine
end

