-- ==== Sys2Proof/Machine/Operands.lean ====
section
/-! DEFINITION. The operand forms: little-endian integers (00_scope.md R6, 20_memory.md R44, 30_encoding.md R69), the fields
of a 10-byte fixed part, the encoded form of a Field, and the constants of the two encodings. -/

namespace Sys2Proof.Machine

/-- R5 `MAGIC`, R62: the two signature bytes, in stream order. -/
def magic : Bytes := [0x1f#8, 0x8b#8]

/-- R77: the 24 assigned command codes. -/
def assignedCodes : List Byte :=
  [0x01#8, 0x02#8, 0x03#8, 0x10#8, 0x11#8, 0x12#8, 0x13#8, 0x14#8, 0x18#8, 0x19#8, 0x1A#8, 0x1B#8, 0x1C#8,
   0x20#8, 0x21#8, 0x22#8, 0x24#8, 0x25#8, 0x26#8, 0x28#8, 0x29#8, 0x2A#8, 0x30#8, 0x38#8]

/-- R6: `s[i]`; 0 past the end, where no rule reads. -/
def byteAt (s : Bytes) (i : Nat) : Byte := s.getD i 0#8

/-- R6 `U16`: the first byte is bits 7:0. -/
def u16 (s : Bytes) : Half := byteAt s 1 ++ byteAt s 0

/-- R6 `U32`: the first byte is bits 7:0. -/
def u32 (s : Bytes) : Word32 := byteAt s 3 ++ (byteAt s 2 ++ (byteAt s 1 ++ byteAt s 0))

/-- R6 `LE16`. -/
def le16 (v : Half) : Bytes := [v.extractLsb' 0 8, v.extractLsb' 8 8]

/-- R6 `LE32`. -/
def le32 (v : Word32) : Bytes :=
  [v.extractLsb' 0 8, v.extractLsb' 8 8, v.extractLsb' 16 8, v.extractLsb' 24 8]

/-- A length as a 16-bit wire value; used only where the length is at most 65535 (R81: a larger one never reaches `LE16`). -/
def lenHalf (n : Nat) : Half := BitVec.ofNat 16 n

/-- R19: the `ids` of a Field, in stream order. -/
def fieldIds (f : Field) : Bytes := [f.ids0, f.ids1]

/-- R111 `FIELD_LEN`: a natural number, not limited to 16 bits. -/
def fieldLen (f : Field) : Nat := 4 + f.data.length

/-- R112 `FIELD_ENC`: `ids`, the 2-byte length, the data. -/
def fieldEnc (f : Field) : Bytes := fieldIds f ++ le16 (lenHalf f.data.length) ++ f.data

/-- R160 step 2: the concatenation of the encoded Fields, in order. -/
def extraBody (fs : List Field) : Bytes := (fs.map fieldEnc).flatten

/-- R101, R160: the sum of `FIELD_LEN` over the Fields. -/
def extraLen (fs : List Field) : Nat := (fs.map fieldLen).sum

/-- R66, R163: a string on the wire. -/
def zstrBytes (text : Bytes) : Bytes := text ++ [0#8]

/-- R61: the 10 bytes of the fixed part. -/
def fixedBytes (cm flg : Byte) (mtime : Word32) (xfl os : Byte) : Bytes :=
  magic ++ [cm, flg] ++ le32 mtime ++ [xfl, os]

/-- R187: a byte count as a half of `ERR_INFO`; free above 65535 (entry 11). -/
def countHalf (n : Nat) : Half := if n ≤ 65535 then BitVec.ofNat 16 n else Config.halfOfLarge n

/-- R112: the length place of `FIELD_ENC`; free above 65535 (entry 14). -/
def lengthPlace (n : Nat) : Half := if n ≤ 65535 then lenHalf n else Config.lengthOfLarge n

/-- R112: what the procedure `FIELD_ENC` answers for any Field; `fieldEnc` on the operands ENCODE gives it (R167). -/
def fieldEncAnswer (f : Field) : Bytes := fieldIds f ++ le16 (lengthPlace f.data.length) ++ f.data

/-- R195: `min(len(ids), 65535)`. -/
def saturatedHalf (n : Nat) : Half := BitVec.ofNat 16 (min n 65535)

/-- R5, R101, R104, R107, R139: whether `n` is above a capacity; never, when it is unbounded. -/
def overCap (cap : Option Nat) (n : Nat) : Bool :=
  match cap with
  | none => false
  | some c => decide (c < n)

end Sys2Proof.Machine
end

