-- ==== Sys2Proof/Machine/Ops.lean ====
section
/-! DEFINITION. The shared operations: how a command ends (60_exceptions.md R199, R200), the procedures of 00_scope.md R7, the
source stream (20_memory.md R41) and the Byte Reader (41_byte_reader.md R120 to R122), the register port (10_state.md R32),
binding a source (30_encoding.md R80) and reset (70_reset_and_hazards.md R215). -/

namespace Sys2Proof.Machine

/-! ### How a command ends -/

/-- R199: who raised a fault, which decides `LEN` and the phase registers. -/
inductive Agent
  /-- DECODE and what it calls: R199 (c). -/
  | parser
  /-- ENCODE: R199 (d). -/
  | serializer
  /-- Every other command: R199 (e). -/
  | other
  deriving DecidableEq, Repr

/-- R199 (c) to (e), R31: `LEN` after a fault. -/
def faultLen (who : Agent) (s : State) : Nat :=
  match who with
  | .parser => s.r.pos
  | .serializer => 0
  | .other => s.len

/-- R199 (c), R138: a faulted DECODE leaves `P.PH` at `IDLE`. -/
def faultParser (who : Agent) (p : Parser) : Parser :=
  match who with
  | .parser => { p with ph := .idle }
  | .serializer | .other => p

/-- R199 (d): a faulted ENCODE leaves `S.PH` at `IDLE`. -/
def faultSerializer (who : Agent) (x : Serializer) : Serializer :=
  match who with
  | .serializer => { x with ph := .idle }
  | .parser | .other => x

/-- R199: fault entry, the one operation every `raise` takes. It writes the status registers, `LEN` and the phase as R199 (a)
and (c) to (e) say, presents the outcome, and touches nothing else: `H` is as it was (b). There is no vector, no handler and
no mode (f). -/
def takeFault (who : Agent) (f : FaultRec) (s : State) : State :=
  { s with
    status := statusFault
    err := faultCode f.kind
    errInfo := faultInfo f
    len := faultLen who s
    p := faultParser who s.p
    ser := faultSerializer who s.ser
    out := { s.out with rsp := some (.fault f) } }

/-- R200, R29, R30: how a command ends `ok`. It is also the only "return from a fault": the record of the last command is
overwritten. -/
def endOk (v : Value) (s : State) : State :=
  { s with
    status := statusOk
    err := 0#8
    errInfo := 0#32
    out := { s.out with rsp := some (.ok v) } }

/-! ### Procedures -/

/-- R7: a procedure returns a value, or raises a fault that propagates to the caller unchanged. -/
inductive Proc (α : Type)
  | ret (v : α) (s : State)
  | raise (f : FaultRec) (s : State)

/-- R7, R201: sequencing; nothing after a `raise` is executed. -/
def Proc.bind {α β : Type} (m : Proc α) (k : α → State → Proc β) : Proc β :=
  match m with
  | .ret v s => k v s
  | .raise f s => .raise f s

/-- R201: an internal procedure run on its own. Its value stands in `ret`; a `raise` ends the DECODE it belongs to (R187;
entry 12). -/
def runProc {α : Type} (m : Proc α) (mk : α → Value) : State :=
  match m with
  | .ret v s => s.setRet (mk v)
  | .raise f s => takeFault .parser f s

/-! ### The source stream and the Byte Reader -/

/-- R41, R217 (b): what a pull can still get; an unbound source has no bytes (D29). -/
def avail (s : State) : Bytes := if s.r.bound then s.out.src else []

/-- R41 `pull(n)`: the source after the first `min(n, remaining)` bytes have been removed. -/
def srcAfter (n : Nat) (s : State) : Bytes := if s.r.bound then s.out.src.drop n else s.out.src

/-- R120 `BR_OPEN`: the source is not touched and not rewound. -/
def brOpen (s : State) : State := s.setR { s.r with buf := [], pos := 0 }

/-- R121 `BR_READ(n)`. The bytes of a short read are consumed and counted and not buffered (R125). -/
def brRead (n : Nat) (s : State) : Proc Bytes :=
  let d := (avail s).take n
  let s1 := (s.setOut { s.out with src := srcAfter n s }).setR { s.r with pos := s.r.pos + d.length }
  if d.length < n then .raise ⟨.unexpectedEndOfStream, countHalf n, countHalf d.length⟩ s1
  else .ret d (s1.setR { s1.r with buf := s1.r.buf ++ d })

/-- R122 `BR_SNAPSHOT`: a copy of the buffer. -/
def brSnapshot (s : State) : Bytes := s.r.buf

/-! ### The host's other actions -/

/-- R80 `BIND_SRC b`: the source is `b`, position at its first byte. -/
def bindSource (b : Bytes) (s : State) : State :=
  (s.setOut { s.out with src := b }).setR { s.r with bound := true }

/-- R32: the registers by index; none above 11. -/
def regRead (s : State) : Nat → Option Value
  | 0 => some (.u8 s.h.cm)
  | 1 => some (.u8 s.h.flg)
  | 2 => some (.u32 s.h.mtime)
  | 3 => some (.u8 s.h.xfl)
  | 4 => some (.u8 s.h.os)
  | 5 => some (.optFields s.h.extra)
  | 6 => some (.optBytes s.h.name)
  | 7 => some (.optBytes s.h.comment)
  | 8 => some (.bits3 s.status)
  | 9 => some (.u8 s.err)
  | 10 => some (.u32 s.errInfo)
  | 11 => some (.nat s.len)
  | _ => none

/-- R215: reset. Every piece of the block's state takes its reset value; bytes already pulled stay consumed, bytes already
delivered stay delivered, and no outcome is presented. The parameters and what the host does next are not the block's
(entry 20). -/
def applyReset (s : State) : State :=
  { State.reset with
    params := s.params
    out := { State.reset.out with src := s.out.src, snk := s.out.snk, script := s.out.script } }

/-- R29: whether a command runs; at the operation level never between steps. -/
def busy (s : State) : Bool := decide (s.p.ph ≠ .idle) || decide (s.ser.ph ≠ .idle)

/-- R29: BUSY is set while a command runs; the record of the last command stays until this one ends (R200). -/
def setBusy (s : State) : State := { s with status := statusBusy s.status }

end Sys2Proof.Machine
end

