-- ==== Sys2Proof/Machine/Checksum.lean ====
section
/-! DEFINITION. The `crc16_checksum_unit` (44_checksum.md R175 to R181): the CRC-32 loop and its register `C`, and the meanings
of CRC32, CRC16_FN (internal) and CRC16 (command). -/

namespace Sys2Proof.Machine

/-- R5 `CRC_POLY`: the reflected generator polynomial (PRESUMED by the spec itself, G1; entry 16). -/
def crcPoly : Word32 := 0xEDB88320#32

/-- R5 `CRC_INIT` (G1; entry 16). -/
def crcInit : Word32 := 0xFFFFFFFF#32

/-- R5 `CRC_XOROUT` (G1; entry 16). -/
def crcXorOut : Word32 := 0xFFFFFFFF#32

/-- R175: one of the 8 shifts of a byte. -/
def crcShift (c : Word32) : Word32 :=
  if c.getLsbD 0 then (c >>> 1) ^^^ crcPoly else c >>> 1

/-- R175: `k` shifts. -/
def crcShifts : Nat → Word32 → Word32
  | 0, c => c
  | k + 1, c => crcShifts k (crcShift c)

/-- R175: one byte enters at bits 7:0 and is shifted out, least significant bit first. -/
def crcByte (c : Word32) (b : Byte) : Word32 := crcShifts 8 (c ^^^ b.setWidth 32)

/-- R175, R179: the register after the bytes of `s`, from the value `c`. -/
def crcFold (c : Word32) (s : Bytes) : Word32 := s.foldl crcByte c

/-- R175 `CRC32(s)`. -/
def crc32Of (s : Bytes) : Word32 := crcFold crcInit s ^^^ crcXorOut

/-- R176 `CRC16(s)`: the low 16 bits of the 32. -/
def crc16Of (s : Bytes) : Half := (crc32Of s).setWidth 16

/-- R175, R36 (b): what a run of the unit over `s` leaves in `C`. -/
def crcRun (bs : Bytes) (s : State) : State := s.setC (crcFold crcInit bs)

/-- `CRC32 s` (R175, internal): returns the 32 bits. -/
def execCrc32 (bs : Bytes) (s : State) : Host.Outcome State Fault Refusal :=
  .next ((crcRun bs s).setRet (.u32 (crc32Of bs)))

/-- `CRC16 s` as an internal procedure (R176): returns the low 16 bits. -/
def execCrc16Fn (bs : Bytes) (s : State) : Host.Outcome State Fault Refusal :=
  .next ((crcRun bs s).setRet (.u16 (crc16Of bs)))

/-- `CRC16 s` (R177, command `0x38`): it touches no stream, no `H`, `R`, `P`, `S`, and leaves `LEN`. -/
def execCrc16 (bs : Bytes) (s : State) : Host.Outcome State Fault Refusal :=
  .next (endOk (.u16 (crc16Of bs)) (crcRun bs s))

end Sys2Proof.Machine
end

