-- ==== Sys2Proof/Machine/Optional.lean ====
section
/-! DEFINITION. The three optional stores (40_header_and_field.md R101 to R109) and Fields (R110 to R112). A store and its
flag bit change together. -/

namespace Sys2Proof.Machine

/-- R110 `FIELD_NEW`: exactly 2 bytes of `ids`, any data. -/
def fieldNew (ids data : Bytes) : Except FaultRec Field :=
  match ids with
  | [i0, i1] => .ok ⟨i0, i1, data⟩
  | _ => .error ⟨.invalidFieldIds, saturatedHalf ids.length, 0#16⟩

/-- R101: each pair through `FIELD_NEW`, in order; the first that fails ends it. -/
def fieldsNew : List (Bytes × Bytes) → Except FaultRec (List Field)
  | [] => .ok []
  | p :: ps =>
    match fieldNew p.1 p.2 with
    | .error f => .error f
    | .ok fld =>
      match fieldsNew ps with
      | .error f => .error f
      | .ok fs => .ok (fld :: fs)

/-- R192: CapacityExceeded in a section: 1 FEXTRA, 2 filename, 3 comment. -/
def capFault (sec : Half) : FaultRec := ⟨.capacityExceeded, sec, 0#16⟩

/-- `SET_EXTRA ps` (R101, `0x20`). -/
def execSetExtra (ps : List (Bytes × Bytes)) (s : State) : Host.Outcome State Fault Refusal :=
  match fieldsNew ps with
  | .error f => .next (takeFault .other f s)
  | .ok fs =>
    if overCap s.params.extraCap (extraLen fs) then .next (takeFault .other (capFault 1#16) s)
    else .next (endOk .unit (s.setH { s.h with extra := some fs, flg := flgWithExtra s.h.flg }))

/-- `CLR_EXTRA` (R102, `0x21`). -/
def execClrExtra (s : State) : Host.Outcome State Fault Refusal :=
  .next (endOk .unit (s.setH { s.h with extra := none, flg := flgWithoutExtra s.h.flg }))

/-- `RD_EXTRA` (R103, `0x22`). -/
def execRdExtra (s : State) : Host.Outcome State Fault Refusal := .next (endOk (.optFields s.h.extra) s)

/-- `SET_NAME s` (R104, `0x24`): a zero byte inside is accepted. -/
def execSetName (text : Bytes) (s : State) : Host.Outcome State Fault Refusal :=
  if overCap s.params.nameCap text.length then .next (takeFault .other (capFault 2#16) s)
  else .next (endOk .unit (s.setH { s.h with name := some text, flg := flgWithName s.h.flg }))

/-- `CLR_NAME` (R105, `0x25`). -/
def execClrName (s : State) : Host.Outcome State Fault Refusal :=
  .next (endOk .unit (s.setH { s.h with name := none, flg := flgWithoutName s.h.flg }))

/-- `RD_NAME` (R106, `0x26`). -/
def execRdName (s : State) : Host.Outcome State Fault Refusal := .next (endOk (.optBytes s.h.name) s)

/-- `SET_COMMENT s` (R107, `0x28`). -/
def execSetComment (text : Bytes) (s : State) : Host.Outcome State Fault Refusal :=
  if overCap s.params.commentCap text.length then .next (takeFault .other (capFault 3#16) s)
  else .next (endOk .unit (s.setH { s.h with comment := some text, flg := flgWithComment s.h.flg }))

/-- `CLR_COMMENT` (R108, `0x29`). -/
def execClrComment (s : State) : Host.Outcome State Fault Refusal :=
  .next (endOk .unit (s.setH { s.h with comment := none, flg := flgWithoutComment s.h.flg }))

/-- `RD_COMMENT` (R109, `0x2A`): the stored value, always. -/
def execRdComment (s : State) : Host.Outcome State Fault Refusal := .next (endOk (.optBytes s.h.comment) s)

/-- `FIELD_NEW ids, data` (R110, `0x30`). -/
def execFieldNew (ids data : Bytes) (s : State) : Host.Outcome State Fault Refusal :=
  match fieldNew ids data with
  | .ok f => .next (endOk (.field f) s)
  | .error e => .next (takeFault .other e s)

/-- `FIELD_LEN(f)` (R111, internal). -/
def execFieldLen (f : Field) (s : State) : Host.Outcome State Fault Refusal :=
  .next (s.setRet (.nat (fieldLen f)))

/-- `FIELD_ENC(f)` (R112, internal). Above 65535 bytes of data, where no rule states them, its two length bytes are free
(entry 14). -/
def execFieldEnc (f : Field) (s : State) : Host.Outcome State Fault Refusal :=
  .next (s.setRet (.bytes (fieldEncAnswer f)))

end Sys2Proof.Machine
end

