-- ==== Sys2Proof/Machine/ParserMachine.lean ====
section
/-! DEFINITION. The byte-serial parser (42_decode.md R144 to R147): its start, the dispatch function NEXT, GOTO, SUBLOOP, ENDSUB,
the action at the last byte of each element of the wire format, and one step. -/

namespace Sys2Proof.Machine

/-- R139, R145: the capacity of a string section. -/
def strCap (sec : StrSection) (ps : Params) : Option Nat :=
  match sec with
  | .name => ps.nameCap
  | .comment => ps.commentCap

/-- R141, R192: the number of a string section. -/
def strCode : StrSection → Half
  | .name => 2#16
  | .comment => 3#16

/-- R132: the Header that the 10 fixed bytes give, its three stores null. -/
def fixedHeader (cm flg : Byte) (mtime : Word32) (xfl os : Byte) : Header :=
  { cm := cm, flg := flg, mtime := mtime, xfl := xfl, os := os, extra := none, name := none, comment := none }

/-- R190: MalformedExtra with what is left of the section and the data length that does not fit (0 when none was read). -/
def malformed (rem slen : Half) : FaultRec := ⟨.malformedExtra, rem, slen⟩

/-- R146: the sections after the fixed part with their masks, in the order of the header (R68). -/
def sectionTable : List (Phase × Byte) :=
  [(.xlen, 0x04#8), (.name, 0x08#8), (.comment, 0x10#8), (.hcrc, 0x02#8)]

/-- R146 `NEXT(k, flg)`; `none` is `DONE`. -/
def nextPhase (k : Nat) (flg : Byte) : Option Phase :=
  ((sectionTable.drop k).find? (fun e => decide (flg &&& e.2 ≠ 0#8))).map (fun e => e.1)

/-- R144: `DECODE` starts the machine. -/
def startDecode (s : State) : State :=
  let s1 := setBusy (brOpen s)
  s1.setP { s1.p with ph := .magic, cnt := 0, tmp := [], acc := [] }

/-- R145 `GOTO(DONE)`: the working Header becomes `H`, `LEN` takes the count, and DECODE ends `ok`. -/
def finishDecode (s : State) : State :=
  endOk .unit (((s.setH s.p.w).setLen s.r.pos).setP { s.p with ph := .idle })

/-- R145 `GOTO(p)`; `none` is `DONE`. On entry to HCRC the snapshot of every byte read so far is taken. -/
def goto (target : Option Phase) (s : State) : State :=
  let s1 := s.setP { s.p with cnt := 0, tmp := [], acc := [] }
  match target with
  | none => finishDecode s1
  | some .hcrc => (crcRun s1.r.buf s1).setP { s1.p with ph := .hcrc, snap := crc16Of s1.r.buf }
  | some ph => s1.setP { s1.p with ph := ph }

/-- R145 `SUBLOOP`: R139's tests before the next subfield. -/
def subLoop (s : State) : State :=
  if s.p.rem = 0#16 then goto (nextPhase 1 s.p.w.flg) s
  else if s.p.rem.toNat < 4 then takeFault .parser (malformed s.p.rem 0#16) s
  else goto (some .sfTag) s

/-- R145 `ENDSUB`: the subfield is appended and taken off the remainder. R81 has the subtraction done only when it fits; where
it does not, in SF_DATA with P.REM below 4 + P.SLEN, which no run reaches, the remainder becomes 0, which is the model's
choice (DESIGN CHOICE, entry 29). -/
def endSub (s : State) : State :=
  let fs := s.p.w.extra.getD [] ++ [⟨s.p.tag.1, s.p.tag.2, s.p.acc⟩]
  subLoop (s.setP { s.p with
    w := { s.p.w with extra := some fs }
    rem := BitVec.ofNat 16 (s.p.rem.toNat - (4 + s.p.slen.toNat)) })

/-! ### The actions at the end of an element -/

/-- R145 FIXED, the last byte: the fixed fields are latched, and the FLG byte selects what follows. -/
def acceptFixed (cm flg : Byte) (mtime : Word32) (xfl os : Byte) (s : State) : State :=
  goto (nextPhase 0 flg) (s.setP { s.p with w := fixedHeader cm flg mtime xfl os })

/-- R145 XLEN, the last byte. -/
def acceptXlen (xlen : Half) (s : State) : State :=
  let s1 := s.setP { s.p with rem := xlen }
  if overCap s.params.extraCap xlen.toNat then takeFault .parser (capFault 1#16) s1
  else subLoop (s1.setP { s1.p with w := { s1.p.w with extra := some [] } })

/-- R145 SF_LEN, the last byte: the length is latched and checked; true when it fits in what remains. -/
def subFits (slen : Half) (s : State) : Bool := decide (4 + slen.toNat ≤ s.p.rem.toNat)

/-- R145 SF_LEN, the last byte. -/
def acceptSubLen (slen : Half) (s : State) : State :=
  let s1 := s.setP { s.p with slen := slen }
  if subFits slen s1 then
    if slen = 0#16 then endSub (s1.setP { s1.p with acc := [] }) else goto (some .sfData) s1
  else takeFault .parser (malformed s1.p.rem slen) s1

/-- R145 SF_TAG, SF_LEN and SF_DATA together: a whole subfield. -/
def acceptSubfield (ids0 ids1 : Byte) (data : Bytes) (s : State) : State :=
  let slen := lenHalf data.length
  let s1 := s.setP { s.p with tag := (ids0, ids1), slen := slen }
  if subFits slen s1 then endSub (s1.setP { s1.p with acc := data })
  else takeFault .parser (malformed s1.p.rem slen) s1

/-- R145 NAME, the zero byte. -/
def acceptName (text : Bytes) (s : State) : State :=
  goto (nextPhase 2 s.p.w.flg) (s.setP { s.p with w := { s.p.w with name := some text } })

/-- R145 COMMENT, the zero byte. -/
def acceptComment (text : Bytes) (s : State) : State :=
  goto (nextPhase 3 s.p.w.flg) (s.setP { s.p with w := { s.p.w with comment := some text } })

/-- R145 HCRC, the last byte: 16 bits against 16 bits (R178). -/
def acceptHcrc (stored : Half) (s : State) : State :=
  if stored = s.p.snap then goto none s
  else takeFault .parser ⟨.checksumMismatch, s.p.snap, stored⟩ s

/-! ### One step -/

/-- R144: what the read in progress wanted. -/
def wanted (p : Parser) : Nat :=
  match p.ph with
  | .magic | .xlen | .sfTag | .sfLen | .hcrc => 2
  | .fixed => 8
  | .sfData => p.slen.toNat
  | .name | .comment => 1
  | .idle => 0

/-- R144: what it has got when the source ends. -/
def gotten (p : Parser) : Nat :=
  match p.ph with
  | .name | .comment => 0
  | .magic | .fixed | .xlen | .sfTag | .sfLen | .sfData | .hcrc | .idle => p.cnt

/-- R145: one byte of a string section. -/
def stringByte (sec : StrSection) (b : Byte) (s : State) : State :=
  if b = 0#8 then
    match sec with
    | .name => acceptName s.p.acc s
    | .comment => acceptComment s.p.acc s
  else if strCap sec s.params = some s.p.acc.length then takeFault .parser (capFault (strCode sec)) s
  else s.setP { s.p with acc := s.p.acc ++ [b] }

/-- R145: `TMP <- TMP ++ [b] ; CNT <- CNT + 1`, the bytes of a fixed-size read. -/
def gather (b : Byte) (s : State) : State := s.setP { s.p with tmp := s.p.tmp ++ [b], cnt := s.p.cnt + 1 }

/-- R145: what the phase does with the byte `b`, which has been pulled, counted and buffered. -/
def phaseByte (b : Byte) (s : State) : State :=
  let g := gather b s
  match s.p.ph with
  | .idle => s
  | .magic =>
    if g.p.cnt = 2 then
      if g.p.tmp = magic then goto (some .fixed) g
      else takeFault .parser ⟨.invalidMagic, byteHalf (byteAt g.p.tmp 0), byteHalf (byteAt g.p.tmp 1)⟩ g
    else g
  | .fixed =>
    if g.p.cnt = 8 then
      let t := g.p.tmp
      acceptFixed (byteAt t 0) (byteAt t 1) (u32 ((t.drop 2).take 4)) (byteAt t 6) (byteAt t 7) g
    else g
  | .xlen => if g.p.cnt = 2 then acceptXlen (u16 g.p.tmp) g else g
  | .sfTag =>
    if g.p.cnt = 2 then
      goto (some .sfLen) (g.setP { g.p with tag := (byteAt g.p.tmp 0, byteAt g.p.tmp 1) })
    else g
  | .sfLen => if g.p.cnt = 2 then acceptSubLen (u16 g.p.tmp) g else g
  | .sfData =>
    let d := s.setP { s.p with acc := s.p.acc ++ [b], cnt := s.p.cnt + 1 }
    if d.p.cnt = d.p.slen.toNat then endSub d else d
  | .name => stringByte .name b s
  | .comment => stringByte .comment b s
  | .hcrc => if g.p.cnt = 2 then acceptHcrc (u16 g.p.tmp) g else g

/-- R145: the byte `b` has been taken from the source, counted and buffered. -/
def takeByte (b : Byte) (s : State) : State :=
  (s.setOut { s.out with src := srcAfter 1 s }).setR { s.r with pos := s.r.pos + 1, buf := s.r.buf ++ [b] }

/-- R145: one step of the parser, one byte pulled; at the end of the source, the fault of R144's table. -/
def parserStep (s : State) : State :=
  match avail s with
  | [] => takeFault .parser ⟨.unexpectedEndOfStream, countHalf (wanted s.p), countHalf (gotten s.p)⟩ s
  | b :: _ => phaseByte b (takeByte b s)

end Sys2Proof.Machine
end

