-- ==== Sys2Proof/Machine/DecodeOp.lean ====
section
/-! DEFINITION. DECODE at the level of the whole operation (42_decode.md R130 to R143, normative by 00_scope.md R9), its internal
procedures PARSE_EXTRA and PARSE_ZSTR, and the internal procedures of the Byte Reader (41_byte_reader.md R120 to R122). The
variables of the pseudocode are values here and not the registers `P` of the step level (entry 9). -/

namespace Sys2Proof.Machine

/-- R139: the loop of PARSE_EXTRA. `fuel` bounds the turns; each takes at least 4 off `rem`, so `rem` is enough. -/
def subfields : Nat → Nat → List Field → State → Proc (List Field)
  | 0, _, fs, s => .ret fs s
  | fuel + 1, rem, fs, s =>
    if rem = 0 then .ret fs s
    else if rem < 4 then .raise (malformed (lenHalf rem) 0#16) s
    else
      (brRead 2 s).bind fun ids s1 =>
      (brRead 2 s1).bind fun q s2 =>
      let slen := u16 q
      if rem < 4 + slen.toNat then .raise (malformed (lenHalf rem) slen) s2
      else
        (brRead slen.toNat s2).bind fun data s3 =>
        match fieldNew ids data with
        | .ok f => subfields fuel (rem - (4 + slen.toNat)) (fs ++ [f]) s3
        | .error e => .raise e s3

/-- R139 `PARSE_EXTRA()`. -/
def parseExtra (s : State) : Proc (List Field) :=
  (brRead 2 s).bind fun l s1 =>
  let xlen := u16 l
  if overCap s.params.extraCap xlen.toNat then .raise (capFault 1#16) s1
  else subfields xlen.toNat xlen.toNat [] s1

/-- R141: the loop of PARSE_ZSTR. `fuel` bounds the turns; each takes a byte, so one more than the bytes there are is
enough, and the last turn is the read that finds the source at its end. -/
def zstrLoop (cap : Option Nat) (sec : Half) : Nat → Bytes → State → Proc Bytes
  | 0, _, s => .raise ⟨.unexpectedEndOfStream, countHalf 1, countHalf 0⟩ s
  | fuel + 1, acc, s =>
    (brRead 1 s).bind fun d s1 =>
    let b := byteAt d 0
    if b = 0#8 then .ret acc s1
    else if cap = some acc.length then .raise (capFault sec) s1
    else zstrLoop cap sec fuel (acc ++ [b]) s1

/-- R141 `PARSE_ZSTR(section)`. -/
def parseZstr (sec : StrSection) (s : State) : Proc Bytes :=
  zstrLoop (strCap sec s.params) (strCode sec) ((avail s).length + 1) [] s

/-- R133 to R135: a section that its bit selects, or no read at all. -/
def optionally {α : Type} (selected : Bool) (m : State → Proc α) (s : State) : Proc (Option α) :=
  if selected then (m s).bind fun v s1 => .ret (some v) s1 else .ret none s

/-- R136: step 6. The snapshot is taken before the stored bytes are read. -/
def checkHcrc (s : State) : Proc Unit :=
  let c := crc16Of (brSnapshot s)
  (brRead 2 (crcRun (brSnapshot s) s)).bind fun q s1 =>
  if u16 q = c then .ret () s1 else .raise ⟨.checksumMismatch, c, u16 q⟩ s1

/-- R131, R132: steps 1 and 2. -/
def parseFixed (s : State) : Proc Header :=
  (brRead 2 s).bind fun m s1 =>
  if m = magic then
    (brRead 8 s1).bind fun f s2 =>
    .ret (fixedHeader (byteAt f 0) (byteAt f 1) (u32 ((f.drop 2).take 4)) (byteAt f 6) (byteAt f 7)) s2
  else .raise ⟨.invalidMagic, byteHalf (byteAt m 0), byteHalf (byteAt m 1)⟩ s1

/-- R130, steps 1 to 6: the working Header. -/
def decodeRun (s : State) : Proc Header :=
  (parseFixed (brOpen s)).bind fun w s2 =>
  (optionally (fextraSet w.flg) parseExtra s2).bind fun ex s3 =>
  (optionally (fnameSet w.flg) (parseZstr .name) s3).bind fun nm s4 =>
  (optionally (fcommentSet w.flg) (parseZstr .comment) s4).bind fun cm s5 =>
  (optionally (fhcrcSet w.flg) checkHcrc s5).bind fun _ s6 =>
  .ret { w with extra := ex, name := nm, comment := cm } s6

/-- R137, R138: step 7, or the fault. -/
def decodeWhole (s : State) : State :=
  match decodeRun s with
  | .ret w s1 => endOk .unit ((s1.setH w).setLen s1.r.pos)
  | .raise f s1 => takeFault .parser f s1

/-- `DECODE` (R130, `0x02`): the whole operation, or at the step level the start of the machine (R144; entry 1). -/
def execDecode (s : State) : Host.Outcome State Fault Refusal :=
  match s.params.grain with
  | .operation => .next (decodeWhole s)
  | .byteSerial => .next (startDecode s)

/-- `BR_OPEN` (R120, internal). -/
def execBrOpen (s : State) : Host.Outcome State Fault Refusal := .next ((brOpen s).setRet .unit)

/-- `BR_READ(n)` (R121, internal). -/
def execBrRead (n : Nat) (s : State) : Host.Outcome State Fault Refusal := .next (runProc (brRead n s) .bytes)

/-- `BR_SNAPSHOT` (R122, internal). -/
def execBrSnapshot (s : State) : Host.Outcome State Fault Refusal := .next (s.setRet (.bytes (brSnapshot s)))

/-- `PARSE_EXTRA()` (R139, internal). -/
def execParseExtra (s : State) : Host.Outcome State Fault Refusal := .next (runProc (parseExtra s) .fields)

/-- `PARSE_ZSTR(section)` (R141, internal). -/
def execParseZstr (sec : StrSection) (s : State) : Host.Outcome State Fault Refusal :=
  .next (runProc (parseZstr sec s) .bytes)

end Sys2Proof.Machine
end

