-- ==== Sys2Proof/Machine/EncodeOp.lean ====
section
/-! DEFINITION. ENCODE (43_encode.md R160 to R168) and the byte-serial serializer (R172). -/

namespace Sys2Proof.Machine

/-- R160 step 0, R167: a length that does not fit 16 bits. -/
def encodeOverflows (h : Header) : Bool :=
  match h.extra with
  | none => false
  | some fs => fs.any (fun f => decide (65535 < f.data.length)) || decide (65535 < extraLen fs)

/-- R191: EncodeOverflow names the FEXTRA section. -/
def overflowFault : FaultRec := ⟨.encodeOverflow, 1#16, 0#16⟩

/-- R161: step 1. -/
def fixedOf (h : Header) : Bytes := fixedBytes h.cm h.flg h.mtime h.xfl h.os

/-- R162: step 2, the 2 bytes of `xlen`. -/
def xlenOf (h : Header) : Bytes :=
  match h.extra with
  | none => []
  | some fs => le16 (lenHalf (extraBody fs).length)

/-- R162: step 2, the subfields. -/
def bodyOf (h : Header) : Bytes :=
  match h.extra with
  | none => []
  | some fs => extraBody fs

/-- R163, R164: steps 3 and 4. -/
def stringOf (store : Option Bytes) : Bytes :=
  match store with
  | none => []
  | some text => zstrBytes text

/-- R160, steps 1 to 4: the bytes the checksum covers (R165, R180). -/
def plainBytes (h : Header) : Bytes :=
  fixedOf h ++ (xlenOf h ++ (bodyOf h ++ (stringOf h.name ++ stringOf h.comment)))

/-- R160, steps 1 to 5. -/
def headerBytes (h : Header) : Bytes :=
  if fhcrcSet h.flg then plainBytes h ++ le16 (crc16Of (plainBytes h)) else plainBytes h

/-- R55: an encoded header as the transactions of SNK, the final byte marked. -/
def sinkBytes : Bytes → List SinkByte
  | [] => []
  | b :: more => ⟨b, more.isEmpty⟩ :: sinkBytes more

/-- R166: step 6. All of the output reaches the sink at once, and `LEN` is its length. -/
def deliver (bs : Bytes) (s : State) : State :=
  endOk (.bytes bs) ((s.setOut { s.out with snk := s.out.snk ++ sinkBytes bs }).setLen bs.length)

/-- R160 step 5, R36 (b): the CRC register after the checksum, when there is one. -/
def crcOfPlain (s : State) : State := if fhcrcSet s.h.flg then crcRun (plainBytes s.h) s else s

/-- R160: the whole operation. `S.OUT` is empty at the start (R27) and holds the output at the end (entry 10); that
S.IDX and the latched checksum are left as they were is the model's choice (DESIGN CHOICE, entry 30). -/
def encodeWhole (s : State) : State :=
  let s0 := s.setSer { s.ser with out := [] }
  if encodeOverflows s.h then takeFault .serializer overflowFault s0
  else deliver (headerBytes s.h) ((crcOfPlain s0).setSer { s0.ser with out := headerBytes s.h })

/-! ### The byte-serial serializer -/

/-- R172: the bytes of the section being emitted. -/
def sectionBytes (x : Serializer) (h : Header) : Bytes :=
  match x.ph with
  | .idle => []
  | .sFixed => fixedOf h
  | .sXlen => xlenOf h
  | .sSubfield => bodyOf h
  | .sName => stringOf h.name
  | .sComment => stringOf h.comment
  | .sHcrc => le16 x.snap

/-- R172: the sections in order. -/
def serOrder : SerPhase → List SerPhase
  | .idle => []
  | .sFixed => [.sXlen, .sSubfield, .sName, .sComment, .sHcrc]
  | .sXlen => [.sSubfield, .sName, .sComment, .sHcrc]
  | .sSubfield => [.sName, .sComment, .sHcrc]
  | .sName => [.sComment, .sHcrc]
  | .sComment => [.sHcrc]
  | .sHcrc => []

/-- R172: whether a section has a byte to emit. -/
def serPresent (h : Header) : SerPhase → Bool
  | .idle => false
  | .sFixed => true
  | .sXlen => h.extra.isSome
  | .sSubfield => !(bodyOf h).isEmpty
  | .sName => h.name.isSome
  | .sComment => h.comment.isSome
  | .sHcrc => fhcrcSet h.flg

/-- R172: the section after `ph`; `none` is the end. -/
def nextSer (h : Header) (ph : SerPhase) : Option SerPhase := (serOrder ph).find? (serPresent h)

/-- R172: enter a section; at the end, the delivery of R166. That the end leaves S.IDX at 0 and the latched checksum as it was
is the model's choice (DESIGN CHOICE, entry 30). -/
def gotoSer (target : Option SerPhase) (s : State) : State :=
  match target with
  | none => deliver s.ser.out (s.setSer { s.ser with ph := .idle, idx := 0 })
  | some .sHcrc => (crcRun s.ser.out s).setSer { s.ser with ph := .sHcrc, idx := 0, snap := crc16Of s.ser.out }
  | some ph => s.setSer { s.ser with ph := ph, idx := 0 }

/-- R172: one step, one byte appended to `S.OUT`. With no byte left in its section (a state no run reaches) the machine goes to
the next section (entry 29). -/
def serializerStep (s : State) : State :=
  match (sectionBytes s.ser s.h).drop s.ser.idx with
  | [] => gotoSer (nextSer s.h s.ser.ph) s
  | b :: more =>
    let s1 := s.setSer { s.ser with out := s.ser.out ++ [b], idx := s.ser.idx + 1 }
    if more.isEmpty then gotoSer (nextSer s.h s.ser.ph) s1 else s1

/-- R172: step 0 of R160 comes first, in no byte-producing step. -/
def startEncode (s : State) : State :=
  let s0 := s.setSer { s.ser with out := [] }
  if encodeOverflows s.h then takeFault .serializer overflowFault s0
  else setBusy (s0.setSer { s0.ser with ph := .sFixed, idx := 0 })

/-- `ENCODE` (R160, `0x03`): the whole operation, or at the step level the start of the machine (R172; entry 1). -/
def execEncode (s : State) : Host.Outcome State Fault Refusal :=
  match s.params.grain with
  | .operation => .next (encodeWhole s)
  | .byteSerial => .next (startEncode s)

end Sys2Proof.Machine
end

