-- ==== Sys2Proof/Machine/Fixed.lean ====
section
/-! DEFINITION. HDR_INIT and the reads and writes of the five fixed fields (40_header_and_field.md R90 to R100). -/

namespace Sys2Proof.Machine

/-- `HDR_INIT` (R90, `0x01`): the fresh Header; `R`, the streams and `LEN` are not touched. -/
def execHdrInit (s : State) : Host.Outcome State Fault Refusal :=
  .next (endOk .unit (s.setH Header.fresh))

/-- `WR_CM v` (R91, `0x10`). -/
def execWrCm (v : Byte) (s : State) : Host.Outcome State Fault Refusal :=
  .next (endOk .unit (s.setH { s.h with cm := v }))

/-- `WR_FLG v` (R92, `0x11`): the presence bits keep their value. -/
def execWrFlg (v : Byte) (s : State) : Host.Outcome State Fault Refusal :=
  .next (endOk .unit (s.setH { s.h with flg := flgMasked v s.h.flg }))

/-- `WR_MTIME v` (R93, `0x12`). -/
def execWrMtime (v : Word32) (s : State) : Host.Outcome State Fault Refusal :=
  .next (endOk .unit (s.setH { s.h with mtime := v }))

/-- `WR_XFL v` (R94, `0x13`). -/
def execWrXfl (v : Byte) (s : State) : Host.Outcome State Fault Refusal :=
  .next (endOk .unit (s.setH { s.h with xfl := v }))

/-- `WR_OS v` (R95, `0x14`). -/
def execWrOs (v : Byte) (s : State) : Host.Outcome State Fault Refusal :=
  .next (endOk .unit (s.setH { s.h with os := v }))

/-- `RD_CM` (R96, `0x18`). -/
def execRdCm (s : State) : Host.Outcome State Fault Refusal := .next (endOk (.u8 s.h.cm) s)

/-- `RD_FLG` (R97, `0x19`): all 8 bits. -/
def execRdFlg (s : State) : Host.Outcome State Fault Refusal := .next (endOk (.u8 s.h.flg) s)

/-- `RD_MTIME` (R98, `0x1A`). -/
def execRdMtime (s : State) : Host.Outcome State Fault Refusal := .next (endOk (.u32 s.h.mtime) s)

/-- `RD_XFL` (R99, `0x1B`). -/
def execRdXfl (s : State) : Host.Outcome State Fault Refusal := .next (endOk (.u8 s.h.xfl) s)

/-- `RD_OS` (R100, `0x1C`). -/
def execRdOs (s : State) : Host.Outcome State Fault Refusal := .next (endOk (.u8 s.h.os) s)

end Sys2Proof.Machine
end

