-- ==== Sys2Proof/Machine/Reserved.lean ====
section
/-! DEFINITION. The reserved command codes (30_encoding.md R78, 60_exceptions.md R193). -/

namespace Sys2Proof.Machine

/-- A reserved code ends in IllegalCommand with the code as its information and changes nothing but the status registers. -/
def execReserved (code : Byte) (s : State) : Host.Outcome State Fault Refusal :=
  .next (takeFault .other ⟨.illegalCommand, byteHalf code, 0#16⟩ s)

end Sys2Proof.Machine
end

