-- ==== Sys2Proof/Machine/Wire.lean ====
section
/-! DEFINITION. The rows of the wire format (30_encoding.md R61 to R67, R72) as instructions of the parser: the source is
where it fetches (20_memory.md R53), P.PH is its program counter (10_state.md R26). A meaning is what the parser does when the
last byte of the element has been pulled, counted and buffered (42_decode.md R145); the tests of the FLG byte are the entries
of NEXT (R146). With no DECODE in progress the machine takes no step (R144). See entry 13. -/

namespace Sys2Proof.Machine

/-- Run an element's action where the phase awaits it: in IDLE nothing happens (R144), elsewhere no rule has the element. -/
def whenAwaited (awaited : Bool) (act : State → State) (s : State) : Host.Outcome State Fault Refusal :=
  if s.p.ph = .idle then .next s
  else if awaited then .next (act s)
  else .fault .outOfPhase

/-- R68, R146: how far in the header a phase is. 0: FLG is not read yet. -/
def phaseRank : Phase → Nat
  | .idle | .magic => 0
  | .fixed => 1
  | .xlen | .sfTag | .sfLen | .sfData => 2
  | .name => 3
  | .comment => 4
  | .hcrc => 5

/-- R146: a test of the latched FLG byte is made once, after the fixed part and before its section. R145 latches that byte with
the eighth byte of FIXED and makes the test in the same step; offered in FIXED at any P.CNT, a FLG row tests what P.W.FLG
holds then, which is the model's choice (DESIGN CHOICE, entry 31). -/
def testable (target : Phase) (s : State) : Bool :=
  decide (1 ≤ phaseRank s.p.ph) && decide (phaseRank s.p.ph < phaseRank target)

/-- R146: an entry of NEXT: where its bit is set its section is next, else the parser is as it was, at the following test. -/
def selectSection (isSet : Byte → Bool) (target : Phase) (s : State) : State :=
  if isSet s.p.w.flg then goto (some target) s else s

/-- GZIP_FIXED (R61, R132): the 10 fixed bytes with the right magic. -/
def execGzipFixed (cm flg : Byte) (mtime : Word32) (xfl os : Byte) (s : State) : Host.Outcome State Fault Refusal :=
  whenAwaited (decide (s.p.ph = .magic) || decide (s.p.ph = .fixed)) (acceptFixed cm flg mtime xfl os) s

/-- FTEXT (R63, R149): selects nothing. -/
def execFtext (s : State) : Host.Outcome State Fault Refusal := .next s

/-- FHCRC (R63, R136, R146): selects the HCRC trailer. -/
def execFhcrc (s : State) : Host.Outcome State Fault Refusal :=
  whenAwaited (testable .hcrc s) (selectSection fhcrcSet .hcrc) s

/-- FEXTRA (R63, R133, R146): selects the XSEC section. -/
def execFextra (s : State) : Host.Outcome State Fault Refusal :=
  whenAwaited (testable .xlen s) (selectSection fextraSet .xlen) s

/-- FNAME (R63, R134, R146): selects the first ZSTR. -/
def execFname (s : State) : Host.Outcome State Fault Refusal :=
  whenAwaited (testable .name s) (selectSection fnameSet .name) s

/-- FCOMMENT (R63, R135, R146): selects the second ZSTR. -/
def execFcomment (s : State) : Host.Outcome State Fault Refusal :=
  whenAwaited (testable .comment s) (selectSection fcommentSet .comment) s

/-- FLG_UNNAMED (R72, R149): selects nothing, never faults. -/
def execFlgUnnamed (_bits : BitVec 3) (s : State) : Host.Outcome State Fault Refusal := .next s

/-- FEXTRA_SECTION (R64, R139): the declared length of the section. -/
def execFextraSection (xlen : Half) (s : State) : Host.Outcome State Fault Refusal :=
  whenAwaited (decide (s.p.ph = .xlen)) (acceptXlen xlen) s

/-- SUBFIELD (R65, R139): one whole subfield. -/
def execSubfield (ids0 ids1 : Byte) (data : Bytes) (s : State) : Host.Outcome State Fault Refusal :=
  whenAwaited (decide (s.p.ph = .sfTag) || decide (s.p.ph = .sfLen) || decide (s.p.ph = .sfData))
    (acceptSubfield ids0 ids1 data) s

/-- R141, R145: a whole string, into the store the phase names. -/
def acceptString (text : Bytes) (s : State) : State :=
  if s.p.ph = .comment then
    if overCap s.params.commentCap text.length then takeFault .parser (capFault 3#16) s else acceptComment text s
  else if overCap s.params.nameCap text.length then takeFault .parser (capFault 2#16) s
  else acceptName text s

/-- ZSTRING (R66, R141): the text before the zero byte. -/
def execZstring (text : Bytes) (s : State) : Host.Outcome State Fault Refusal :=
  whenAwaited (decide (s.p.ph = .name) || decide (s.p.ph = .comment)) (acceptString text) s

/-- HEADER_CRC (R67, R136): the stored checksum. -/
def execHeaderCrc (stored : Half) (s : State) : Host.Outcome State Fault Refusal :=
  whenAwaited (decide (s.p.ph = .hcrc)) (acceptHcrc stored) s

end Sys2Proof.Machine
end

