-- ==== Sys2Proof/Machine/Dispatch.lean ====
section
/-! DEFINITION. The meaning of every instruction, one arm a constructor. -/

namespace Sys2Proof.Machine

def exec (i : Instr) (s : State) : Host.Outcome State Fault Refusal :=
  match i with
  -- host commands (R77)
  | .hdrInit => Sys2Proof.Machine.execHdrInit s
  | .decode => Sys2Proof.Machine.execDecode s
  | .encode => Sys2Proof.Machine.execEncode s
  | .wrCm v => Sys2Proof.Machine.execWrCm v s
  | .wrFlg v => Sys2Proof.Machine.execWrFlg v s
  | .wrMtime v => Sys2Proof.Machine.execWrMtime v s
  | .wrXfl v => Sys2Proof.Machine.execWrXfl v s
  | .wrOs v => Sys2Proof.Machine.execWrOs v s
  | .rdCm => Sys2Proof.Machine.execRdCm s
  | .rdFlg => Sys2Proof.Machine.execRdFlg s
  | .rdMtime => Sys2Proof.Machine.execRdMtime s
  | .rdXfl => Sys2Proof.Machine.execRdXfl s
  | .rdOs => Sys2Proof.Machine.execRdOs s
  | .setExtra ps => Sys2Proof.Machine.execSetExtra ps s
  | .clrExtra => Sys2Proof.Machine.execClrExtra s
  | .rdExtra => Sys2Proof.Machine.execRdExtra s
  | .setName text => Sys2Proof.Machine.execSetName text s
  | .clrName => Sys2Proof.Machine.execClrName s
  | .rdName => Sys2Proof.Machine.execRdName s
  | .setComment text => Sys2Proof.Machine.execSetComment text s
  | .clrComment => Sys2Proof.Machine.execClrComment s
  | .rdComment => Sys2Proof.Machine.execRdComment s
  | .fieldNew ids data => Sys2Proof.Machine.execFieldNew ids data s
  | .crc16 bs => Sys2Proof.Machine.execCrc16 bs s
  -- reserved command codes (R78)
  | .reserved code => Sys2Proof.Machine.execReserved code s
  -- the wire format (R61 to R67, R72)
  | .gzipFixed cm flg mtime xfl os => Sys2Proof.Machine.execGzipFixed cm flg mtime xfl os s
  | .ftext => Sys2Proof.Machine.execFtext s
  | .fhcrc => Sys2Proof.Machine.execFhcrc s
  | .fextra => Sys2Proof.Machine.execFextra s
  | .fname => Sys2Proof.Machine.execFname s
  | .fcomment => Sys2Proof.Machine.execFcomment s
  | .flgUnnamed bits => Sys2Proof.Machine.execFlgUnnamed bits s
  | .fextraSection xlen => Sys2Proof.Machine.execFextraSection xlen s
  | .subfield ids0 ids1 data => Sys2Proof.Machine.execSubfield ids0 ids1 data s
  | .zstring text => Sys2Proof.Machine.execZstring text s
  | .headerCrc stored => Sys2Proof.Machine.execHeaderCrc stored s
  -- internal procedures
  | .brOpen => Sys2Proof.Machine.execBrOpen s
  | .brRead n => Sys2Proof.Machine.execBrRead n s
  | .brSnapshot => Sys2Proof.Machine.execBrSnapshot s
  | .parseExtra => Sys2Proof.Machine.execParseExtra s
  | .parseZstr sec => Sys2Proof.Machine.execParseZstr sec s
  | .fieldLen f => Sys2Proof.Machine.execFieldLen f s
  | .fieldEnc f => Sys2Proof.Machine.execFieldEnc f s
  | .crc32 bs => Sys2Proof.Machine.execCrc32 bs s
  | .crc16Fn bs => Sys2Proof.Machine.execCrc16Fn bs s

end Sys2Proof.Machine
end

