-- ==== Sys2Proof/WellFormed.lean ====
section
/-! DEFINITION. Which instructions the spec's formats can express. -/

namespace Sys2Proof

/-- The check of one instruction: a reserved code is none of R77's (R78); a ZSTRING's text holds no zero byte (R66); a
SUBFIELD's payload has a 16-bit length (R65); FIELD_ENC takes a Field whose data has a 16-bit length (R112). Every other
operand of R75 is legal at every value. -/
def Instr.wellFormed : Instr → Bool
  | .reserved code => !Machine.assignedCodes.contains code
  | .zstring text => !text.contains 0#8
  | .subfield _ _ data => decide (data.length ≤ 65535)
  | .fieldEnc f => decide (f.data.length ≤ 65535)
  | .hdrInit | .decode | .encode => true
  | .wrCm _ | .wrFlg _ | .wrMtime _ | .wrXfl _ | .wrOs _ => true
  | .rdCm | .rdFlg | .rdMtime | .rdXfl | .rdOs => true
  | .setExtra _ | .clrExtra | .rdExtra | .setName _ | .clrName | .rdName => true
  | .setComment _ | .clrComment | .rdComment | .fieldNew _ _ | .crc16 _ => true
  | .gzipFixed _ _ _ _ _ | .ftext | .fhcrc | .fextra | .fname | .fcomment | .flgUnnamed _ => true
  | .fextraSection _ | .headerCrc _ => true
  | .brOpen | .brRead _ | .brSnapshot | .parseExtra | .parseZstr _ | .fieldLen _ => true
  | .crc32 _ | .crc16Fn _ => true

end Sys2Proof
end

