-- ==== Sys2Proof/Decode.lean ====
section
/-! DEFINITION. The decoders of the formats of 30_encoding.md (R60 to R68, R75 to R78), total on any bytes and rejecting by
name, and after them the encoder. A decoder answers the instruction and the bytes after it. The internal procedures have
no encoding (R120 to R122 and the like: "Encoding: none"; entry 27). -/

namespace Sys2Proof

open Machine

/-- R60: the formats. -/
inductive Format
  | cmd
  | wire10
  | flgsel
  | xsec
  | subf
  | zstr
  | hcrc
  deriving DecidableEq, Repr

/-- Why bytes are no word of a format. -/
inductive DecodeError
  /-- No byte at all where a word should begin. -/
  | noWord
  /-- The bytes end inside the word or inside its operand. -/
  | cutShort
  /-- A sequence operand on CMD has a mark byte that is neither 0 nor 1 (entry 5). -/
  | badMark (mark : Byte)
  /-- R62: the first two bytes of a fixed part are not the magic. -/
  | badMagic (first second : Byte)
  /-- A FLG byte with more than one bit set selects several rows at once (R63): see `decodeFlgSel`. -/
  | severalRows
  deriving DecidableEq, Repr

/-- What a decoder answers. -/
abbrev Decoded (α : Type) := Except DecodeError (α × Bytes)

/-- Apply a constructor to what an operand decoder read. -/
def Decoded.into {α β : Type} (d : Decoded α) (mk : α → β) : Decoded β :=
  match d with
  | .ok (a, rest) => .ok (mk a, rest)
  | .error e => .error e

/-! ### Operands of a command (R75; how they travel is entry 5) -/

/-- A `u8` operand: one byte. -/
def decodeU8 : Bytes → Decoded Byte
  | v :: rest => .ok (v, rest)
  | [] => .error .cutShort

/-- A `u32` operand: four bytes, least significant first (R44). -/
def decodeU32 : Bytes → Decoded Word32
  | b0 :: b1 :: b2 :: b3 :: rest => .ok (u32 [b0, b1, b2, b3], rest)
  | _ => .error .cutShort

/-- A `Bytes` operand: each byte after a mark 1, the end a mark 0 (entry 5). -/
def decodeSeq : Bytes → Decoded Bytes
  | [] => .error .cutShort
  | mark :: rest =>
    if mark = 0#8 then .ok ([], rest)
    else if mark = 1#8 then
      match rest with
      | [] => .error .cutShort
      | b :: more => (decodeSeq more).into (fun s => b :: s)
    else .error (.badMark mark)

/-- A `(Bytes, Bytes)` operand. -/
def decodePair (bs : Bytes) : Decoded (Bytes × Bytes) :=
  match decodeSeq bs with
  | .ok (ids, rest) => (decodeSeq rest).into (fun data => (ids, data))
  | .error e => .error e

/-- A `Pairs` operand: each pair after a mark 1, the end a mark 0 (entry 5). `fuel` bounds the number of pairs; the number
of bytes is enough. -/
def decodePairs : Nat → Bytes → Decoded (List (Bytes × Bytes))
  | _, [] => .error .cutShort
  | 0, _ :: _ => .error .cutShort
  | fuel + 1, mark :: rest =>
    if mark = 0#8 then .ok ([], rest)
    else if mark = 1#8 then
      match decodePair rest with
      | .ok (p, more) => (decodePairs fuel more).into (fun ps => p :: ps)
      | .error e => .error e
    else .error (.badMark mark)

/-! ### The formats -/

/-- R76 to R78: a command is decoded by its code alone, and its operand follows. -/
def decodeCmd : Bytes → Decoded Instr
  | [] => .error .noWord
  | code :: rest =>
    match code.toNat with
    | 0x01 => .ok (.hdrInit, rest)
    | 0x02 => .ok (.decode, rest)
    | 0x03 => .ok (.encode, rest)
    | 0x10 => (decodeU8 rest).into .wrCm
    | 0x11 => (decodeU8 rest).into .wrFlg
    | 0x12 => (decodeU32 rest).into .wrMtime
    | 0x13 => (decodeU8 rest).into .wrXfl
    | 0x14 => (decodeU8 rest).into .wrOs
    | 0x18 => .ok (.rdCm, rest)
    | 0x19 => .ok (.rdFlg, rest)
    | 0x1A => .ok (.rdMtime, rest)
    | 0x1B => .ok (.rdXfl, rest)
    | 0x1C => .ok (.rdOs, rest)
    | 0x20 => (decodePairs rest.length rest).into .setExtra
    | 0x21 => .ok (.clrExtra, rest)
    | 0x22 => .ok (.rdExtra, rest)
    | 0x24 => (decodeSeq rest).into .setName
    | 0x25 => .ok (.clrName, rest)
    | 0x26 => .ok (.rdName, rest)
    | 0x28 => (decodeSeq rest).into .setComment
    | 0x29 => .ok (.clrComment, rest)
    | 0x2A => .ok (.rdComment, rest)
    | 0x30 => (decodePair rest).into (fun p => .fieldNew p.1 p.2)
    | 0x38 => (decodeSeq rest).into .crc16
    | _ => .ok (.reserved code, rest)

/-- R61, R62: the 10-byte fixed part. The magic is looked at as soon as its two bytes are there (R131). -/
def decodeWire10 : Bytes → Decoded Instr
  | [] => .error .noWord
  | id1 :: id2 :: rest =>
    if [id1, id2] = magic then
      match rest with
      | cm :: flg :: t0 :: t1 :: t2 :: t3 :: xfl :: os :: more =>
        .ok (.gzipFixed cm flg (u32 [t0, t1, t2, t3]) xfl os, more)
      | _ => .error .cutShort
    else .error (.badMagic id1 id2)
  | _ => .error .cutShort

/-- R63: the rows a FLG byte selects, in the order of the bits; the unnamed bits are a row in every byte (R72). -/
def decodeFlgSel (flg : Byte) : List Instr :=
  (if flg.getLsbD 0 then [.ftext] else []) ++ (if flg.getLsbD 1 then [.fhcrc] else []) ++
  (if flg.getLsbD 2 then [.fextra] else []) ++ (if flg.getLsbD 3 then [.fname] else []) ++
  (if flg.getLsbD 4 then [.fcomment] else []) ++ [.flgUnnamed (flg.extractLsb' 5 3)]

/-- R63 read one row at a time: a byte that is one row's match and nothing else. -/
def decodeFlgRow : Bytes → Decoded Instr
  | [] => .error .noWord
  | flg :: rest =>
    if flg = 0x01#8 then .ok (.ftext, rest)
    else if flg = 0x02#8 then .ok (.fhcrc, rest)
    else if flg = 0x04#8 then .ok (.fextra, rest)
    else if flg = 0x08#8 then .ok (.fname, rest)
    else if flg = 0x10#8 then .ok (.fcomment, rest)
    else if flg.extractLsb' 0 5 = 0#5 then .ok (.flgUnnamed (flg.extractLsb' 5 3), rest)
    else .error .severalRows

/-- R64: the 2 bytes of `xlen`; the subfields after them are words of `SUBF`. -/
def decodeXsec : Bytes → Decoded Instr
  | [] => .error .noWord
  | b0 :: b1 :: rest => .ok (.fextraSection (u16 [b0, b1]), rest)
  | _ => .error .cutShort

/-- R65: `ids`, the data length, then that many bytes of payload. -/
def decodeSubf : Bytes → Decoded Instr
  | [] => .error .noWord
  | i0 :: i1 :: l0 :: l1 :: rest =>
    let slen := (u16 [l0, l1]).toNat
    if rest.length < slen then .error .cutShort
    else .ok (.subfield i0 i1 (rest.take slen), rest.drop slen)
  | _ => .error .cutShort

/-- R66: the bytes up to the first zero byte, which is consumed and no part of the result. -/
def decodeZstr : Bytes → Decoded Bytes
  | [] => .error .cutShort
  | b :: rest => if b = 0#8 then .ok ([], rest) else (decodeZstr rest).into (fun s => b :: s)

/-- R67: the 2 stored checksum bytes. -/
def decodeHcrc : Bytes → Decoded Instr
  | [] => .error .noWord
  | b0 :: b1 :: rest => .ok (.headerCrc (u16 [b0, b1]), rest)
  | _ => .error .cutShort

/-- The decoder of each format. -/
def decodeAs : Format → Bytes → Decoded Instr
  | .cmd, bs => decodeCmd bs
  | .wire10, bs => decodeWire10 bs
  | .flgsel, bs => decodeFlgRow bs
  | .xsec, bs => decodeXsec bs
  | .subf, bs => decodeSubf bs
  | .zstr, bs => (decodeZstr bs).into .zstring
  | .hcrc, bs => decodeHcrc bs

/-! ### The encoder -/

/-- A `Bytes` operand (entry 5). -/
def encodeSeq : Bytes → Bytes
  | [] => [0#8]
  | b :: s => 1#8 :: b :: encodeSeq s

/-- A `Pairs` operand (entry 5). -/
def encodePairs : List (Bytes × Bytes) → Bytes
  | [] => [0#8]
  | p :: ps => 1#8 :: (encodeSeq p.1 ++ encodeSeq p.2 ++ encodePairs ps)

/-- The format and the word of an instruction; none for the internal procedures, which have no encoding. -/
def encodeInstr : Instr → Option (Format × Bytes)
  | .hdrInit => some (.cmd, [0x01#8])
  | .decode => some (.cmd, [0x02#8])
  | .encode => some (.cmd, [0x03#8])
  | .wrCm v => some (.cmd, [0x10#8, v])
  | .wrFlg v => some (.cmd, [0x11#8, v])
  | .wrMtime v => some (.cmd, 0x12#8 :: le32 v)
  | .wrXfl v => some (.cmd, [0x13#8, v])
  | .wrOs v => some (.cmd, [0x14#8, v])
  | .rdCm => some (.cmd, [0x18#8])
  | .rdFlg => some (.cmd, [0x19#8])
  | .rdMtime => some (.cmd, [0x1A#8])
  | .rdXfl => some (.cmd, [0x1B#8])
  | .rdOs => some (.cmd, [0x1C#8])
  | .setExtra ps => some (.cmd, 0x20#8 :: encodePairs ps)
  | .clrExtra => some (.cmd, [0x21#8])
  | .rdExtra => some (.cmd, [0x22#8])
  | .setName s => some (.cmd, 0x24#8 :: encodeSeq s)
  | .clrName => some (.cmd, [0x25#8])
  | .rdName => some (.cmd, [0x26#8])
  | .setComment s => some (.cmd, 0x28#8 :: encodeSeq s)
  | .clrComment => some (.cmd, [0x29#8])
  | .rdComment => some (.cmd, [0x2A#8])
  | .fieldNew ids data => some (.cmd, 0x30#8 :: (encodeSeq ids ++ encodeSeq data))
  | .crc16 s => some (.cmd, 0x38#8 :: encodeSeq s)
  | .reserved code => some (.cmd, [code])
  | .gzipFixed cm flg mtime xfl os => some (.wire10, fixedBytes cm flg mtime xfl os)
  | .ftext => some (.flgsel, [0x01#8])
  | .fhcrc => some (.flgsel, [0x02#8])
  | .fextra => some (.flgsel, [0x04#8])
  | .fname => some (.flgsel, [0x08#8])
  | .fcomment => some (.flgsel, [0x10#8])
  | .flgUnnamed bits => some (.flgsel, [bits ++ 0#5])
  | .fextraSection xlen => some (.xsec, le16 xlen)
  | .subfield i0 i1 data => some (.subf, [i0, i1] ++ le16 (lenHalf data.length) ++ data)
  | .zstring text => some (.zstr, zstrBytes text)
  | .headerCrc v => some (.hcrc, le16 v)
  | .brOpen | .brRead _ | .brSnapshot | .parseExtra | .parseZstr _ => none
  | .fieldLen _ | .fieldEnc _ | .crc32 _ | .crc16Fn _ => none

/-! ### The host's view of a table word -/

/-- The bytes of a table word, bit 0 the least significant bit of the first byte. -/
def wordBytes : Nat → Nat → Bytes
  | 0, _ => []
  | n + 1, w => BitVec.ofNat 8 w :: wordBytes n (w / 256)

/-- The format a table word of `nbits` bits is read in (entry 22): 8 bits are a command code; 16 bits that are the magic, and
80 bits, a fixed part; other 16 bits an XSEC word; 32 bits a SUBF word. The formats overlap (R60) and P.PH decides among them
in the machine, so an 8-bit FLGSEL row and the 16-bit HCRC row cannot be told from CMD and XSEC here. -/
def tableFormat (nbits w : Nat) : Format :=
  if nbits = 80 then .wire10
  else if nbits = 32 then .subf
  else if nbits = 16 then (if w % 65536 = 0x8B1F then .wire10 else .xsec)
  else .cmd

/-- How many zero bytes stand above a table word: what its format's operand takes when all of it is zero. -/
def tablePadding (nbits w : Nat) : Nat :=
  match tableFormat nbits w with
  | .cmd => 16
  | .wire10 => 10 - nbits / 8
  | .subf => w / 65536 % 65536
  | .flgsel | .xsec | .zstr | .hcrc => 0

/-- The bytes of a table word with the zeros above it. -/
def tableBytes (nbits w : Nat) : Bytes :=
  wordBytes (nbits / 8) w ++ List.replicate (tablePadding nbits w) 0#8

/-- The instruction the decoder reads from a table word. -/
def decodeTableWord (nbits w : Nat) : Option Instr :=
  match decodeAs (tableFormat nbits w) (tableBytes nbits w) with
  | .ok (i, _) => some i
  | .error _ => none

end Sys2Proof
end

