-- ==== Sys2Proof/Machine/Script.lean ====
section
/-! DEFINITION. What the step does with the host's script and with a command in progress (20_memory.md R50, R55,
60_exceptions.md R203, 70_reset_and_hazards.md R215, R220), and how a table word is placed where it is fetched next. -/

namespace Sys2Proof.Machine

/-- The script without the action that is being taken. -/
def withScript (rest : List HostAction) (s : State) : State := s.setOut { s.out with script := rest }

/-- R145, R172: one step of a command in progress. Only one of the two machines is ever active (R206). -/
def advance (s : State) : State := if s.p.ph ≠ .idle then parserStep s else serializerStep s

/-- R220: while a command runs the host does nothing but, perhaps, reset (R198, R215; entry 19). -/
def runningStep (s : State) : State :=
  match s.out.script with
  | .reset 0 :: rest => applyReset (withScript rest s)
  | .reset (k + 1) :: rest => advance (withScript (.reset k :: rest) s)
  | _ => advance s

/-- R55, R76: fetch a command from a CMD transaction. Bytes after the operand are no part of it (entry 6). -/
def fetchCommand (bs : Bytes) : Option Instr :=
  match decodeCmd bs with
  | .ok (i, _) => some i
  | .error _ => none

/-- R55: a REG transaction. -/
def readPort (index : Nat) (s : State) : Host.Outcome State Fault Refusal :=
  match regRead s index with
  | some v => .next (s.setOut { s.out with reg := some v })
  | none => .refused .noSuchRegister

/-- A table word on CMD: one transaction, before whatever else the host does. -/
def placeCommand (bs : Bytes) (s : State) : State := withScript (.cmd bs :: s.out.script) s

/-- A DECODE in progress with the parser as given, whose source's next byte is `last`. -/
def placeWire (p : Parser) (last : Byte) (s : State) : State :=
  ((s.setOut { s.out with src := [last] }).setR { s.r with bound := true }).setP p

/-- A table word of the wire format with all but its last byte received, that byte the next of the source (entry 22). No section
holds a SUBFIELD of more than 65531 bytes of data (R81, R139): its last byte is that of its data length, where R145 raises
MalformedExtra, with the longest remainder there is, 65535. -/
def placeElement (i : Instr) (s : State) : State :=
  match i with
  | .gzipFixed cm flg mtime xfl os =>
    placeWire { s.p with ph := .fixed, cnt := 7, tmp := [cm, flg] ++ le32 mtime ++ [xfl], acc := [] } os s
  | .fextraSection xlen =>
    placeWire { s.p with ph := .xlen, cnt := 1, tmp := [byteAt (le16 xlen) 0], acc := [] } (byteAt (le16 xlen) 1) s
  | .subfield i0 i1 data =>
    let slen := lenHalf data.length
    let rem := lenHalf (min (4 + data.length) 65535)
    if data.isEmpty || decide (65535 < 4 + data.length) then
      placeWire { s.p with ph := .sfLen, cnt := 1, rem := rem, tag := (i0, i1), tmp := [byteAt (le16 slen) 0], acc := [] }
        (byteAt (le16 slen) 1) s
    else
      placeWire { s.p with ph := .sfData, cnt := data.length - 1, rem := rem, slen := slen, tag := (i0, i1), tmp := [],
                           acc := data.take (data.length - 1) } (byteAt data (data.length - 1)) s
  | _ => s

/-- A table word where the next step fetches it: on CMD, or on SRC for the wire format (entry 22). -/
def placeWord (nbits w : Nat) (s : State) : State :=
  match tableFormat nbits w with
  | .cmd => placeCommand (tableBytes nbits w) s
  | .wire10 | .flgsel | .xsec | .subf | .zstr | .hcrc =>
    match decodeTableWord nbits w with
    | some i => placeElement i s
    | none => s

end Sys2Proof.Machine
end

