-- ==== Sys2Proof/Machine/Step.lean ====
section
/-! DEFINITION. One step: of the command in progress, or the host's next action. -/

namespace Sys2Proof.Machine

/-- One step. A command in progress goes on (R145, R172); an idle block takes the host's next action: a command is fetched,
decoded and executed (R50, R76), a source is bound (R80), a register is read (R55), reset is applied (R215). With no action
the block waits (R215; entry 26). -/
def step (s : State) : Host.Outcome State Fault Refusal :=
  if busy s then .next (runningStep s)
  else
    match s.out.script with
    | [] => .next s
    | .reset _ :: rest => .next (applyReset (withScript rest s))
    | .bindSrc b :: rest => .next (bindSource b (withScript rest s))
    | .readReg index :: rest => readPort index (withScript rest s)
    | .cmd bs :: rest =>
      match fetchCommand bs with
      | some i => exec i (withScript rest s)
      | none => .refused .notACommand

/-- `s` with a table word where the next step fetches it (entry 22). -/
def State.withFetchWord (s : State) (nbits w : Nat) : State := placeWord nbits w s

end Sys2Proof.Machine
end

