-- ==== Sys2Proof/Safety.lean ====
section
/-! DEFINITION. What a sound state and a sound run are, in the terms the statements use: the invariants of 10_state.md R20, R24,
R25, R26, R29, R30 and the outcome of a command (00_scope.md R8). -/

namespace Sys2Proof.Machine

/-- R20: flag and presence agree. -/
def Header.flagsAgree (h : Header) : Bool :=
  (fextraSet h.flg == h.extra.isSome) && (fnameSet h.flg == h.name.isSome) && (fcommentSet h.flg == h.comment.isSome)

/-- R24 (b): a string that holds no zero byte. -/
def zeroFree (store : Option Bytes) : Bool :=
  match store with
  | none => true
  | some text => !text.contains 0#8

/-- R24 (c), (d): the lengths fit their 16-bit fields. -/
def lengthsFit (extra : Option (List Field)) : Bool :=
  match extra with
  | none => true
  | some fs => fs.all (fun f => decide (f.data.length ≤ 65535)) && decide (extraLen fs ≤ 65535)

/-- R24 `valid(h)`. -/
def Header.valid (h : Header) : Bool :=
  h.flagsAgree && zeroFree h.name && zeroFree h.comment && lengthsFit h.extra

/-- R5: the Header fits finite capacities. -/
def Header.withinCaps (ps : Params) (h : Header) : Bool :=
  !overCap ps.extraCap (extraLen (h.extra.getD [])) && !overCap ps.nameCap (h.name.getD []).length &&
  !overCap ps.commentCap (h.comment.getD []).length

/-- R70: the number of bytes of the header that `h` encodes to. -/
def Header.wireLength (h : Header) : Nat :=
  10 + (if fextraSet h.flg then 2 + extraLen (h.extra.getD []) else 0) +
  (if fnameSet h.flg then (h.name.getD []).length + 1 else 0) +
  (if fcommentSet h.flg then (h.comment.getD []).length + 1 else 0) + (if fhcrcSet h.flg then 2 else 0)

/-- R20 for the Header under construction: sections already passed agree with their bits, sections not yet reached are
null, and the section being read is one its bit selects. -/
def Parser.workingAgrees (p : Parser) : Bool :=
  match p.ph with
  | .idle | .magic | .fixed => true
  | .xlen => fextraSet p.w.flg && p.w.name.isNone && p.w.comment.isNone
  | .sfTag | .sfLen | .sfData =>
    fextraSet p.w.flg && p.w.extra.isSome && p.w.name.isNone && p.w.comment.isNone
  | .name => fnameSet p.w.flg && (fextraSet p.w.flg == p.w.extra.isSome) && p.w.comment.isNone
  | .comment =>
    fcommentSet p.w.flg && (fextraSet p.w.flg == p.w.extra.isSome) && (fnameSet p.w.flg == p.w.name.isSome)
  | .hcrc => p.w.flagsAgree

/-- R26: the read in progress has received fewer bytes than it wants, they stand in the register of its phase, and the
subfield in progress fits in what remains of the section (R139). -/
def Parser.readOpen (p : Parser) : Bool :=
  match p.ph with
  | .idle => true
  | .magic | .xlen | .hcrc => decide (p.cnt < 2) && decide (p.tmp.length = p.cnt)
  | .fixed => decide (p.cnt < 8) && decide (p.tmp.length = p.cnt)
  | .sfTag | .sfLen => decide (p.cnt < 2) && decide (p.tmp.length = p.cnt) && decide (4 ≤ p.rem.toNat)
  | .sfData =>
    decide (p.cnt < p.slen.toNat) && decide (p.acc.length = p.cnt) && decide (4 + p.slen.toNat ≤ p.rem.toNat)
  | .name | .comment => true

/-- R26 to R28, R172: the serializer is inside a section that has a byte left to emit, of a Header that encodes. -/
def State.serializerOpen (s : State) : Bool :=
  match s.ser.ph with
  | .idle => true
  | _ => !encodeOverflows s.h && serPresent s.h s.ser.ph && decide (s.ser.idx < (sectionBytes s.ser s.h).length)

/-- R25: during a DECODE at the step level `R.POS = len(R.BUF)`. -/
def State.positionCounts (s : State) : Bool :=
  match s.p.ph with
  | .idle => true
  | _ => decide (s.r.pos = s.r.buf.length)

/-- R206: at most one of parser and serializer is active, and BUSY says whether one is (R29). -/
def State.busyAgrees (s : State) : Bool :=
  (decide (s.p.ph = .idle) || decide (s.ser.ph = .idle)) && (s.status.getLsbD 0 == busy s)

/-- R29, R30, D4: DONE, ERR, `ERR` and `ERR_INFO` mirror the outcome presented last. -/
def State.recordMirrors (s : State) : Bool :=
  match s.out.rsp with
  | none => !s.status.getLsbD 1 && !s.status.getLsbD 2 && decide (s.err = 0#8) && decide (s.errInfo = 0#32)
  | some (.ok _) => s.status.getLsbD 1 && !s.status.getLsbD 2 && decide (s.err = 0#8) && decide (s.errInfo = 0#32)
  | some (.fault f) =>
    s.status.getLsbD 1 && s.status.getLsbD 2 && decide (s.err = faultCode f.kind) && decide (s.errInfo = faultInfo f)

/-- R20 in both Headers of the block. -/
def State.flagInv (s : State) : Bool := s.h.flagsAgree && s.p.workingAgrees

/-- R25 to R27: the step-level machines are where their registers say. -/
def State.machineInv (s : State) : Bool := s.p.readOpen && s.positionCounts && s.serializerOpen

/-- R29, R30, R206. -/
def State.statusInv (s : State) : Bool := s.busyAgrees && s.recordMirrors

/-- R29, R30, R200: a command ended `ok` with this result. -/
def State.ranOk (t : State) (v : Value) : Prop :=
  t.status = 0b010#3 ∧ t.err = 0#8 ∧ t.errInfo = 0#32 ∧ t.out.rsp = some (.ok v)

/-- R199 (a), R195: a command ended in the fault `f`, whose code R194 gives as `code`. -/
def State.ranInto (t : State) (f : FaultRec) (code : Byte) : Prop :=
  t.status = 0b110#3 ∧ t.err = code ∧ t.errInfo.extractLsb' 0 16 = f.a ∧ t.errInfo.extractLsb' 16 16 = f.b ∧
  t.out.rsp = some (.fault f)

/-- The streams, the register port and the host's script are as they were. -/
def State.hostKept (s t : State) : Prop :=
  t.out.src = s.out.src ∧ t.out.snk = s.out.snk ∧ t.out.reg = s.out.reg ∧ t.out.script = s.out.script

/-- The Byte Reader, the two machines, `LEN`, the parameters and the host side are as they were: all but `H`, `C`, the
status registers and the outcome. -/
def State.unitsKept (s t : State) : Prop :=
  t.r = s.r ∧ t.p = s.p ∧ t.ser = s.ser ∧ t.len = s.len ∧ t.params = s.params ∧ t.ret = s.ret ∧ s.hostKept t

/-- What a command that only answers leaves: `H`, `C` and the rest are as they were. -/
def State.onlyAnswered (s t : State) : Prop := t.h = s.h ∧ t.c = s.c ∧ s.unitsKept t

/-- What no DECODE touches, whatever its outcome: the serializer, the parameters, the sink, the binding, the script. -/
def State.decodeKept (s t : State) : Prop :=
  t.ser = s.ser ∧ t.params = s.params ∧ t.ret = s.ret ∧ t.r.bound = s.r.bound ∧ t.out.snk = s.out.snk ∧
  t.out.reg = s.out.reg ∧ t.out.script = s.out.script

/-- The status registers and the outcome are as they were: an internal procedure that returns writes none of them. -/
def State.recordKept (s t : State) : Prop :=
  t.status = s.status ∧ t.err = s.err ∧ t.errInfo = s.errInfo ∧ t.out.rsp = s.out.rsp

/-- Steps of the machine from `s`, each of which answers a next state, end in `t`. -/
def runsTo (k : Nat) (s t : State) : Prop := Host.Core.run Sys2Proof.core k s = .next t

/-- The raw pairs of a sequence of Fields, the operand of `SET_EXTRA` (R75). -/
def rawPairs (fs : List Field) : List (Bytes × Bytes) := fs.map (fun f => ([f.ids0, f.ids1], f.data))

end Sys2Proof.Machine
end

