-- ==== Sys2Proof/Certificates/Slice0/Obligations.lean ====
section
/-! DEFINITION. The statements for the provers. Each names the rule it formalises. -/

open Sys2Proof Sys2Proof.Machine

/-! ### Reset and the host's actions -/

/-- R34, R215. What the spec gives for reset: the fresh Header, an empty reader, both machines idle, the status registers 0. -/
def Obligations.ResetLeavesTheFreshHeader : Prop :=
  State.reset.h = ⟨8#8, 0#8, 0#32, 0#8, 255#8, none, none, none⟩ ∧ State.reset.r = ⟨false, [], 0⟩ ∧
  State.reset.p.ph = .idle ∧ State.reset.ser.ph = .idle ∧ State.reset.ser.out = [] ∧ State.reset.status = 0#3 ∧
  State.reset.err = 0#8 ∧ State.reset.errInfo = 0#32 ∧ State.reset.len = 0 ∧ State.reset.h.flagsAgree = true ∧
  State.reset.h.valid = true

/-- R215, R34. Reset while a command runs (the count of the script's reset is used up), or at once when the block is idle: the
block takes the values of R34; the bytes already pulled stay consumed, and nothing more reaches the sink. That the
parameters and the script are no part of the block is the model's (entry 20). -/
def Obligations.ResetAbandonsTheCommand : Prop :=
  ∀ (s : State) (k : Nat) (rest : List HostAction), s.out.script = .reset k :: rest → (busy s = true → k = 0) →
    ∃ t, step s = .next t ∧ t.h = Header.fresh ∧ t.r = ⟨false, [], 0⟩ ∧ t.p.ph = .idle ∧ t.ser.ph = .idle ∧
      t.ser.out = [] ∧ t.status = 0#3 ∧ t.err = 0#8 ∧ t.errInfo = 0#32 ∧ t.len = 0 ∧ t.out.src = s.out.src ∧
      t.out.snk = s.out.snk ∧ t.params = s.params ∧ t.out.script = rest

/-- R80, R32, R55 on an idle block: BIND_SRC puts the source at the first byte of `b`; a register read answers the register of its
index and changes nothing else. The refusal above index 11 is the model's (entry 23). -/
def Obligations.IdleBlockTakesHostActions : Prop :=
  ∀ (s : State) (rest : List HostAction), busy s = false →
    (∀ b, s.out.script = .bindSrc b :: rest →
      ∃ t, step s = .next t ∧ avail t = b ∧ t.r = { s.r with bound := true } ∧
        t = { s with r := t.r, out := { s.out with src := b, script := rest } }) ∧
    (∀ i, s.out.script = .readReg i :: rest →
      (∀ v, [Value.u8 s.h.cm, .u8 s.h.flg, .u32 s.h.mtime, .u8 s.h.xfl, .u8 s.h.os, .optFields s.h.extra,
          .optBytes s.h.name, .optBytes s.h.comment, .bits3 s.status, .u8 s.err, .u32 s.errInfo, .nat s.len][i]? = some v →
        step s = .next { s with out := { s.out with reg := some v, script := rest } }) ∧
      (12 ≤ i → step s = .refused .noSuchRegister)) ∧
    (s.out.script = [] → step s = .next s)

/-- R76, R50. A CMD transaction that decodes to `i` is run: an idle block's step is `exec i` on the state with that transaction
taken off the host's script, and nothing added around it. Bytes after the operand are dropped (entry 6). -/
def Obligations.StepRunsTheDecodedCommand : Prop :=
  ∀ (s : State) (bs tail : Bytes) (rest : List HostAction) (i : Instr), busy s = false →
    s.out.script = .cmd bs :: rest → decodeAs .cmd bs = .ok (i, tail) →
    step s = exec i { s with out := { s.out with script := rest } }

/-! ### The Header register file -/

/-- R90, its code, and that a second HDR_INIT gives the same state. -/
def Obligations.HdrInitWritesTheDefaults : Prop :=
  encodeInstr .hdrInit = some (.cmd, [0x01#8]) ∧
  ∀ s : State, ∃ t, exec .hdrInit s = .next t ∧ t.h = ⟨8#8, 0#8, 0#32, 0#8, 255#8, none, none, none⟩ ∧
    t.ranOk .unit ∧ t.c = s.c ∧ s.unitsKept t ∧ exec .hdrInit t = .next t

/-- R91, R93, R94, R95, each with its code. -/
def Obligations.FixedFieldWritesStoreTheOperand : Prop :=
  ∀ (v : Byte) (m : Word32) (s : State),
    (∃ w, encodeInstr (.wrCm v) = some (.cmd, 0x10#8 :: w)) ∧ (∃ w, encodeInstr (.wrMtime m) = some (.cmd, 0x12#8 :: w)) ∧
    (∃ w, encodeInstr (.wrXfl v) = some (.cmd, 0x13#8 :: w)) ∧ (∃ w, encodeInstr (.wrOs v) = some (.cmd, 0x14#8 :: w)) ∧
    (∃ t, exec (.wrCm v) s = .next t ∧ t.h = { s.h with cm := v } ∧ t.ranOk .unit ∧ t.c = s.c ∧ s.unitsKept t) ∧
    (∃ t, exec (.wrMtime m) s = .next t ∧ t.h = { s.h with mtime := m } ∧ t.ranOk .unit ∧ t.c = s.c ∧ s.unitsKept t) ∧
    (∃ t, exec (.wrXfl v) s = .next t ∧ t.h = { s.h with xfl := v } ∧ t.ranOk .unit ∧ t.c = s.c ∧ s.unitsKept t) ∧
    (∃ t, exec (.wrOs v) s = .next t ∧ t.h = { s.h with os := v } ∧ t.ranOk .unit ∧ t.c = s.c ∧ s.unitsKept t)

/-- R92, R222, its code, and bit by bit: bits 0, 1 and 7:5 from the operand, the presence bits 2 to 4 kept whatever it holds. -/
def Obligations.WrFlgKeepsThePresenceBits : Prop :=
  ∀ (v : Byte) (s : State), (∃ w, encodeInstr (.wrFlg v) = some (.cmd, 0x11#8 :: w)) ∧
    ∃ t, exec (.wrFlg v) s = .next t ∧ t.h = { s.h with flg := t.h.flg } ∧
    (∀ i, i < 8 → t.h.flg.getLsbD i = (if 2 ≤ i ∧ i ≤ 4 then s.h.flg.getLsbD i else v.getLsbD i)) ∧
    t.ranOk .unit ∧ t.c = s.c ∧ s.unitsKept t

/-- R96 to R100, R103, R106, R109: each read, by its code, returns its register or store and changes nothing else. -/
def Obligations.ReadsReturnTheRegister : Prop :=
  ∀ (s : State) (i : Instr) (code : Byte) (v : Value),
    (i, code, v) ∈ [(Instr.rdCm, 0x18#8, Value.u8 s.h.cm), (.rdFlg, 0x19#8, .u8 s.h.flg), (.rdMtime, 0x1A#8, .u32 s.h.mtime),
      (.rdXfl, 0x1B#8, .u8 s.h.xfl), (.rdOs, 0x1C#8, .u8 s.h.os), (.rdExtra, 0x22#8, .optFields s.h.extra),
      (.rdName, 0x26#8, .optBytes s.h.name), (.rdComment, 0x2A#8, .optBytes s.h.comment)] →
    encodeInstr i = some (.cmd, [code]) ∧ ∃ t, exec i s = .next t ∧ t.ranOk v ∧ s.onlyAnswered t

/-- R101: pairs whose `ids` are all 2 bytes become the Fields of `H.EXTRA`, in order, and bit 2 of FLG is set with them. -/
def Obligations.SetExtraStoresTheFields : Prop :=
  ∀ (fs : List Field) (s : State),
    (∀ c, s.params.extraCap = some c → (fs.map (fun f => 4 + f.data.length)).sum ≤ c) →
    ∃ t, exec (.setExtra (rawPairs fs)) s = .next t ∧ t.h = { s.h with extra := some fs, flg := t.h.flg } ∧
      (∀ i, i < 8 → t.h.flg.getLsbD i = (if i = 2 then true else s.h.flg.getLsbD i)) ∧
      t.ranOk .unit ∧ t.c = s.c ∧ s.unitsKept t

/-- R101, R189, R197: the first pair whose `ids` is not 2 bytes long ends SET_EXTRA in InvalidFieldIds, before any capacity is
looked at, and `H` is unchanged. -/
def Obligations.SetExtraFaultsAtTheFirstBadIds : Prop :=
  ∀ (fs : List Field) (ids data : Bytes) (tail : List (Bytes × Bytes)) (s : State), ids.length ≠ 2 →
    ∃ t, exec (.setExtra (rawPairs fs ++ (ids, data) :: tail)) s = .next t ∧
      t.ranInto ⟨.invalidFieldIds, BitVec.ofNat 16 (min ids.length 65535), 0#16⟩ 4#8 ∧ s.onlyAnswered t

/-- R104, R107. A zero byte inside the text is no exception. -/
def Obligations.SetStringsStoreTheText : Prop :=
  ∀ (text : Bytes) (s : State),
    ((∀ c, s.params.nameCap = some c → text.length ≤ c) →
      ∃ t, exec (.setName text) s = .next t ∧ t.h = { s.h with name := some text, flg := t.h.flg } ∧
        (∀ i, i < 8 → t.h.flg.getLsbD i = (if i = 3 then true else s.h.flg.getLsbD i)) ∧
        t.ranOk .unit ∧ t.c = s.c ∧ s.unitsKept t) ∧
    ((∀ c, s.params.commentCap = some c → text.length ≤ c) →
      ∃ t, exec (.setComment text) s = .next t ∧ t.h = { s.h with comment := some text, flg := t.h.flg } ∧
        (∀ i, i < 8 → t.h.flg.getLsbD i = (if i = 4 then true else s.h.flg.getLsbD i)) ∧
        t.ranOk .unit ∧ t.c = s.c ∧ s.unitsKept t)

/-- R101, R104, R107, R192: above a finite capacity the three setters end in CapacityExceeded and `H` is unchanged. -/
def Obligations.SettersFaultAboveCapacity : Prop :=
  ∀ (fs : List Field) (text : Bytes) (c : Nat) (s : State),
    (s.params.extraCap = some c → c < (fs.map (fun f => 4 + f.data.length)).sum →
      ∃ t, exec (.setExtra (rawPairs fs)) s = .next t ∧ t.ranInto ⟨.capacityExceeded, 1#16, 0#16⟩ 7#8 ∧
        s.onlyAnswered t) ∧
    (s.params.nameCap = some c → c < text.length →
      ∃ t, exec (.setName text) s = .next t ∧ t.ranInto ⟨.capacityExceeded, 2#16, 0#16⟩ 7#8 ∧ s.onlyAnswered t) ∧
    (s.params.commentCap = some c → c < text.length →
      ∃ t, exec (.setComment text) s = .next t ∧ t.ranInto ⟨.capacityExceeded, 3#16, 0#16⟩ 7#8 ∧ s.onlyAnswered t)

/-- R102, R105, R108, each with its code. -/
def Obligations.ClearsEmptyTheStoreAndItsBit : Prop :=
  encodeInstr .clrExtra = some (.cmd, [0x21#8]) ∧ encodeInstr .clrName = some (.cmd, [0x25#8]) ∧
  encodeInstr .clrComment = some (.cmd, [0x29#8]) ∧
  ∀ s : State,
    (∃ t, exec .clrExtra s = .next t ∧ t.h = { s.h with extra := none, flg := t.h.flg } ∧
      (∀ i, i < 8 → t.h.flg.getLsbD i = (if i = 2 then false else s.h.flg.getLsbD i)) ∧
      t.ranOk .unit ∧ t.c = s.c ∧ s.unitsKept t) ∧
    (∃ t, exec .clrName s = .next t ∧ t.h = { s.h with name := none, flg := t.h.flg } ∧
      (∀ i, i < 8 → t.h.flg.getLsbD i = (if i = 3 then false else s.h.flg.getLsbD i)) ∧
      t.ranOk .unit ∧ t.c = s.c ∧ s.unitsKept t) ∧
    (∃ t, exec .clrComment s = .next t ∧ t.h = { s.h with comment := none, flg := t.h.flg } ∧
      (∀ i, i < 8 → t.h.flg.getLsbD i = (if i = 4 then false else s.h.flg.getLsbD i)) ∧
      t.ranOk .unit ∧ t.c = s.c ∧ s.unitsKept t)

/-- R110, R189: FIELD_NEW makes a Field of exactly 2 bytes of `ids`, and faults on any other length. -/
def Obligations.FieldNewChecksTheIds : Prop :=
  ∀ (i0 i1 : Byte) (ids data : Bytes) (s : State),
    (∃ w, encodeInstr (.fieldNew ids data) = some (.cmd, 0x30#8 :: w)) ∧
    (∃ t, exec (.fieldNew [i0, i1] data) s = .next t ∧ t.ranOk (.field ⟨i0, i1, data⟩) ∧ s.onlyAnswered t) ∧
    (ids.length ≠ 2 →
      ∃ t, exec (.fieldNew ids data) s = .next t ∧
        t.ranInto ⟨.invalidFieldIds, BitVec.ofNat 16 (min ids.length 65535), 0#16⟩ 4#8 ∧ s.onlyAnswered t)

/-- R111, R112: the encoded form of a Field, and its length. The result is the procedure's; no other state changes (entry 15). Above
65535 bytes of data, outside R112's operand, the two length bytes are left open (entry 14). -/
def Obligations.FieldProceduresReturnTheEncodedForm : Prop :=
  ∀ (f : Field) (s : State),
    exec (.fieldLen f) s = .next { s with ret := .nat (4 + f.data.length) } ∧
    ∃ bs l0 l1, exec (.fieldEnc f) s = .next { s with ret := .bytes bs } ∧
      bs = [f.ids0, f.ids1, l0, l1] ++ f.data ∧ bs.length = 4 + f.data.length ∧
      (f.data.length ≤ 65535 → l0.toNat + 256 * l1.toNat = f.data.length)

/-! ### Command codes and encodings -/

/-- R78, R193: a code that R77 does not list decodes to nothing but itself and ends in IllegalCommand, changing nothing but the
status registers. -/
def Obligations.ReservedCodesAreIllegalCommands : Prop :=
  ∀ (code : Byte) (rest : Bytes) (s : State), code ∉ assignedCodes →
    decodeAs .cmd (code :: rest) = .ok (.reserved code, rest) ∧
    ∃ t, exec (.reserved code) s = .next t ∧ t.ranInto ⟨.illegalCommand, code.setWidth 16, 0#16⟩ 8#8 ∧ s.onlyAnswered t

/-- Words written out from R61 to R67 and R77 decode to what they stand for. -/
def Obligations.WrittenWordsDecode : Prop :=
  decodeAs .cmd [0x02#8] = .ok (.decode, []) ∧
  decodeAs .cmd [0x12#8, 0x04#8, 0x03#8, 0x02#8, 0x01#8] = .ok (.wrMtime 0x01020304#32, []) ∧
  decodeAs .wire10 [0x1f#8, 0x8b#8, 0x08#8, 0x01#8, 0x78#8, 0x56#8, 0x34#8, 0x12#8, 0x04#8, 0x03#8, 0x99#8] =
    .ok (.gzipFixed 8#8 1#8 0x12345678#32 4#8 3#8, [0x99#8]) ∧
  decodeAs .subf [0x41#8, 0x70#8, 0x03#8, 0x00#8, 0x01#8, 0x02#8, 0x03#8] =
    .ok (.subfield 0x41#8 0x70#8 [0x01#8, 0x02#8, 0x03#8], []) ∧
  decodeAs .hcrc [0x90#8, 0xc9#8] = .ok (.headerCrc 0xC990#16, [])

/-- R60 to R67, R77: for every well-formed instruction with an encoding, of every format, the decoder of its format reads the
encoder's word back, whatever follows it. -/
def Obligations.DecodeReadsEveryEncodedInstruction : Prop :=
  ∀ (i : Instr) (fmt : Format) (bs rest : Bytes), i.wellFormed = true → encodeInstr i = some (fmt, bs) →
    decodeAs fmt (bs ++ rest) = .ok (i, rest)

/-- The other direction: bytes that a format's decoder accepts begin with the encoding of what it reads, which is well-formed.
No bit of a word is dropped, and no two words of a format have one meaning. -/
def Obligations.EncodeRebuildsEveryDecodedWord : Prop :=
  ∀ (fmt : Format) (bs rest : Bytes) (i : Instr), decodeAs fmt bs = .ok (i, rest) →
    i.wellFormed = true ∧ ∃ word, encodeInstr i = some (fmt, word) ∧ bs = word ++ rest

/-- R63, R72: a FLG byte selects exactly the rows whose bit it has, and always carries its three unnamed bits. -/
def Obligations.FlgByteSelectsItsRows : Prop :=
  ∀ (flg : Byte) (i : Instr), i ∈ decodeFlgSel flg ↔
    (i = .ftext ∧ flg.toNat % 2 = 1) ∨ (i = .fhcrc ∧ flg.toNat / 2 % 2 = 1) ∨ (i = .fextra ∧ flg.toNat / 4 % 2 = 1) ∨
    (i = .fname ∧ flg.toNat / 8 % 2 = 1) ∨ (i = .fcomment ∧ flg.toNat / 16 % 2 = 1) ∨
    i = .flgUnnamed (BitVec.ofNat 3 (flg.toNat / 32))

/-! ### The Byte Reader -/

/-- R120, R122. That an internal procedure writes no status register is the model's (entry 15), here and below. -/
def Obligations.ReaderOpensEmptyAndExposesItsBuffer : Prop :=
  ∀ s : State,
    exec .brOpen s = .next { s with r := { s.r with buf := [], pos := 0 }, ret := .unit } ∧
    exec .brSnapshot s = .next { s with ret := .bytes s.r.buf }

/-- R121, R124: a read of no more bytes than the source holds returns them, removes them, counts them and buffers them, and
changes nothing else (the status registers: entry 15). -/
def Obligations.ReadReturnsTheNextBytes : Prop :=
  ∀ (n : Nat) (s : State), n ≤ (avail s).length →
    ∃ t, exec (.brRead n) s = .next t ∧ t.ret = .bytes ((avail s).take n) ∧ avail t = (avail s).drop n ∧
      t.r = { s.r with buf := s.r.buf ++ (avail s).take n, pos := s.r.pos + n } ∧
      t = { s with r := t.r, ret := t.ret, out := { s.out with src := t.out.src } } ∧
      (s.r.bound = false → t.out.src = s.out.src)

/-- R121, R125, R187: a short read consumes and counts what there is, buffers none of it, and ends in
UnexpectedEndOfStream(n, got) (for a count the information register can hold; entry 11). That the
procedure on its own takes DECODE's fault entry is the model's (entry 12). -/
def Obligations.ShortReadIsFatal : Prop :=
  ∀ (n : Nat) (s : State), (avail s).length < n → n ≤ 65535 →
    ∃ t, exec (.brRead n) s = .next t ∧
      t.ranInto ⟨.unexpectedEndOfStream, BitVec.ofNat 16 n, BitVec.ofNat 16 (avail s).length⟩ 2#8 ∧ avail t = [] ∧
      t.r = { s.r with pos := s.r.pos + (avail s).length } ∧ t.len = s.r.pos + (avail s).length ∧
      t.p = { s.p with ph := .idle } ∧ (s.r.bound = false → t.out.src = s.out.src) ∧
      t.h = s.h ∧ t.c = s.c ∧ s.decodeKept t

/-- R139: PARSE_EXTRA reads back the Fields of a well-formed section and stops at its end (the record unchanged: entry 15). -/
def Obligations.ParseExtraReadsTheFields : Prop :=
  ∀ (fs : List Field) (rest : Bytes) (s : State), extraLen fs ≤ 65535 → overCap s.params.extraCap (extraLen fs) = false →
    avail s = le16 (BitVec.ofNat 16 (extraLen fs)) ++ extraBody fs ++ rest →
    ∃ t, exec .parseExtra s = .next t ∧ t.ret = .fields fs ∧ avail t = rest ∧
      t.r = { s.r with buf := s.r.buf ++ le16 (BitVec.ofNat 16 (extraLen fs)) ++ extraBody fs
                       pos := s.r.pos + (2 + extraLen fs) } ∧
      t.h = s.h ∧ t.p = s.p ∧ t.c = s.c ∧ t.len = s.len ∧ s.recordKept t ∧ t.ser = s.ser ∧ t.params = s.params ∧
      t.out.snk = s.out.snk ∧ t.out.reg = s.out.reg ∧ t.out.script = s.out.script

/-- R141: PARSE_ZSTR reads up to the first zero byte, which it consumes (the record unchanged: entry 15). -/
def Obligations.ParseZstrReadsUpToTheZero : Prop :=
  ∀ (sec : StrSection) (text rest : Bytes) (s : State), 0#8 ∉ text → overCap (strCap sec s.params) text.length = false →
    avail s = text ++ 0#8 :: rest →
    ∃ t, exec (.parseZstr sec) s = .next t ∧ t.ret = .bytes text ∧ avail t = rest ∧
      t.r = { s.r with buf := s.r.buf ++ text ++ [0#8], pos := s.r.pos + (text.length + 1) } ∧
      t.h = s.h ∧ t.p = s.p ∧ t.c = s.c ∧ t.len = s.len ∧ s.recordKept t ∧ t.ser = s.ser ∧ t.params = s.params ∧
      t.out.snk = s.out.snk ∧ t.out.reg = s.out.reg ∧ t.out.script = s.out.script

/-! ### DECODE -/

/-- R8, R138, R142, R143, R199: DECODE always ends, in one of two outcomes; it consumes `LEN` bytes and no others, on a fault
`H` is as it was, and what it does not own is untouched. C moves only when the FLG byte has FHCRC. That of the registers `P` only the phase can
change at the operation level is the model's (DEDUCED, entry 9). -/
def Obligations.DecodeEndsAndConsumesLen : Prop :=
  ∀ s : State, s.params.grain = .operation →
    ∃ t, exec .decode s = .next t ∧ t.len ≤ (avail s).length ∧ avail t = (avail s).drop t.len ∧ t.len = t.r.pos ∧
      (s.r.bound = false → t.out.src = s.out.src) ∧ s.decodeKept t ∧ t.p = { s.p with ph := t.p.ph } ∧
      (((avail s).getD 3 0#8).getLsbD 1 = false → t.c = s.c) ∧
      (t.ranOk .unit ∨ ∃ f code, t.ranInto f code ∧ code ≠ 0#8 ∧ t.h = s.h ∧ t.p.ph = .idle)

/-- R131, R132, R152, R217: fewer than two bytes, whatever they are, or no source bound: UnexpectedEndOfStream(2, got). The magic
and fewer than eight more bytes: UnexpectedEndOfStream(8, k). Everything there was is consumed. -/
def Obligations.DecodeRejectsATruncatedStart : Prop :=
  ∀ s : State, s.params.grain = .operation →
    ((avail s).length < 2 →
      ∃ t, exec .decode s = .next t ∧
        t.ranInto ⟨.unexpectedEndOfStream, 2#16, BitVec.ofNat 16 (avail s).length⟩ 2#8 ∧ t.h = s.h ∧
        t.len = (avail s).length ∧ avail t = [] ∧ t.p.ph = .idle) ∧
    (∀ rest, avail s = 0x1f#8 :: 0x8b#8 :: rest → rest.length < 8 →
      ∃ t, exec .decode s = .next t ∧
        t.ranInto ⟨.unexpectedEndOfStream, 8#16, BitVec.ofNat 16 rest.length⟩ 2#8 ∧ t.h = s.h ∧
        t.len = 2 + rest.length ∧ avail t = [] ∧ t.p.ph = .idle)

/-- R131, R152, R186: two first bytes that are not the magic give InvalidMagic with those bytes, after exactly two. -/
def Obligations.DecodeRejectsAWrongMagic : Prop :=
  ∀ (s : State) (a b : Byte) (rest : Bytes), s.params.grain = .operation → avail s = a :: b :: rest →
    ¬(a = 0x1f#8 ∧ b = 0x8b#8) →
    ∃ t, exec .decode s = .next t ∧ t.ranInto ⟨.invalidMagic, a.setWidth 16, b.setWidth 16⟩ 1#8 ∧ t.h = s.h ∧
      t.len = 2 ∧ avail t = rest ∧ t.p.ph = .idle

/-- R140, R190: `xlen` of 1 to 3 faults before a subfield header is read; a first subfield whose payload does not fit faults
before the payload is read. -/
def Obligations.DecodeRejectsAMalformedExtra : Prop :=
  ∀ (s : State) (cm flg t0 t1 t2 t3 xfl os l0 l1 : Byte) (more : Bytes), s.params.grain = .operation →
    flg.getLsbD 2 = true → overCap s.params.extraCap (l0.toNat + 256 * l1.toNat) = false →
    avail s = [0x1f#8, 0x8b#8, cm, flg, t0, t1, t2, t3, xfl, os, l0, l1] ++ more →
    (1 ≤ l0.toNat + 256 * l1.toNat → l0.toNat + 256 * l1.toNat ≤ 3 →
      ∃ t, exec .decode s = .next t ∧ t.ranInto ⟨.malformedExtra, l1 ++ l0, 0#16⟩ 5#8 ∧ t.h = s.h ∧ t.len = 12 ∧
        avail t = more) ∧
    (∀ (i0 i1 q0 q1 : Byte) (rest : Bytes), more = [i0, i1, q0, q1] ++ rest → 4 ≤ l0.toNat + 256 * l1.toNat →
      l0.toNat + 256 * l1.toNat < 4 + (q0.toNat + 256 * q1.toNat) →
      ∃ t, exec .decode s = .next t ∧ t.ranInto ⟨.malformedExtra, l1 ++ l0, q1 ++ q0⟩ 5#8 ∧ t.h = s.h ∧ t.len = 16 ∧
        avail t = rest)

/-- R141: a string without a zero byte ends in UnexpectedEndOfStream(1, 0) with the source used up: the filename as the first
section, and the comment as the first section. -/
def Obligations.DecodeRejectsAnUnterminatedString : Prop :=
  ∀ (s : State) (cm flg t0 t1 t2 t3 xfl os : Byte) (text : Bytes), s.params.grain = .operation → 0#8 ∉ text →
    avail s = [0x1f#8, 0x8b#8, cm, flg, t0, t1, t2, t3, xfl, os] ++ text →
    (flg &&& 0x0C#8 = 0x08#8 ∧ s.params.nameCap = none ∨ flg &&& 0x1C#8 = 0x10#8 ∧ s.params.commentCap = none) →
    ∃ t, exec .decode s = .next t ∧ t.ranInto ⟨.unexpectedEndOfStream, 1#16, 0#16⟩ 2#8 ∧ t.h = s.h ∧
      t.len = 10 + text.length ∧ avail t = []

/-- R139, R141, R192: above a finite capacity DECODE ends in CapacityExceeded with the section's number: FEXTRA when `xlen` is
read, a string at the byte that does not fit. -/
def Obligations.DecodeFaultsAboveCapacity : Prop :=
  ∀ (s : State) (cm flg t0 t1 t2 t3 xfl os : Byte) (more : Bytes) (c : Nat), s.params.grain = .operation →
    avail s = [0x1f#8, 0x8b#8, cm, flg, t0, t1, t2, t3, xfl, os] ++ more →
    (∀ l0 l1 rest, flg.getLsbD 2 = true → s.params.extraCap = some c → more = l0 :: l1 :: rest →
      c < l0.toNat + 256 * l1.toNat →
      ∃ t, exec .decode s = .next t ∧ t.ranInto ⟨.capacityExceeded, 1#16, 0#16⟩ 7#8 ∧ t.h = s.h ∧ t.len = 12) ∧
    (∀ text rest, flg &&& 0x0C#8 = 0x08#8 → s.params.nameCap = some c → more = text ++ rest → 0#8 ∉ text →
      text.length = c + 1 →
      ∃ t, exec .decode s = .next t ∧ t.ranInto ⟨.capacityExceeded, 2#16, 0#16⟩ 7#8 ∧ t.h = s.h ∧ t.len = 10 + (c + 1)) ∧
    (∀ text rest, flg &&& 0x1C#8 = 0x10#8 → s.params.commentCap = some c → more = text ++ rest → 0#8 ∉ text →
      text.length = c + 1 →
      ∃ t, exec .decode s = .next t ∧ t.ranInto ⟨.capacityExceeded, 3#16, 0#16⟩ 7#8 ∧ t.h = s.h ∧ t.len = 10 + (c + 1))

/-- R136, R188, R197: after the sections of a Header with FHCRC, two stored bytes that are not the checksum, low byte first, give
ChecksumMismatch(computed, stored); fewer than two give UnexpectedEndOfStream(2, got), even when the one is wrong. -/
def Obligations.DecodeChecksTheChecksum : Prop :=
  ∀ (s : State) (h : Header) (more : Bytes), s.params.grain = .operation → h.valid = true →
    h.withinCaps s.params = true → h.flg.getLsbD 1 = true → avail s = plainBytes h ++ more →
    (∀ b0 b1 rest, more = b0 :: b1 :: rest → (b1 ++ b0 : Half) ≠ crc16Of (plainBytes h) →
      ∃ t, exec .decode s = .next t ∧ t.ranInto ⟨.checksumMismatch, crc16Of (plainBytes h), b1 ++ b0⟩ 3#8 ∧
        t.h = s.h ∧ t.len = (plainBytes h).length + 2 ∧ avail t = rest) ∧
    (more.length < 2 →
      ∃ t, exec .decode s = .next t ∧ t.ranInto ⟨.unexpectedEndOfStream, 2#16, BitVec.ofNat 16 more.length⟩ 2#8 ∧
        t.h = s.h ∧ t.len = (plainBytes h).length + more.length ∧ avail t = [])

/-- R142, R70, R151: a Header that DECODE leaves is valid, and the bytes consumed are exactly its own. -/
def Obligations.DecodedHeaderIsValidAndExact : Prop :=
  ∀ (s t : State), s.params.grain = .operation → exec .decode s = .next t → t.ranOk .unit →
    t.h.valid = true ∧ t.len = t.h.wireLength

/-- R150: DECODE is a function of the source's content and the capacities: two states that agree on them, whatever their Headers
and registers, end in the same outcome, with the same `LEN`, and on `ok` with the same Header. -/
def Obligations.DecodeDependsOnTheSourceAlone : Prop :=
  ∀ (s s' t t' : State), s.params.grain = .operation → s'.params = s.params → avail s' = avail s →
    exec .decode s = .next t → exec .decode s' = .next t' →
    t'.out.rsp = t.out.rsp ∧ t'.len = t.len ∧ avail t' = avail t ∧ (t.out.rsp = some (.ok .unit) → t'.h = t.h)

/-! ### ENCODE -/

/-- R160 to R166, R168, R55: the emitted bytes, in order, appended to the sink with the mark on the final one, and returned; `H`
unchanged. That `S.OUT` holds the output afterwards is the model's (entry 10), and that S.IDX and the latched checksum are as
they were (entry 30). -/
def Obligations.EncodeEmitsTheHeader : Prop :=
  ∀ s : State, s.params.grain = .operation →
    (∀ fs, s.h.extra = some fs → (∀ f ∈ fs, f.data.length ≤ 65535) ∧
      (fs.map (fun f => 4 + f.data.length)).sum ≤ 65535) →
    ∃ t plain out marked, exec .encode s = .next t ∧
      plain = [0x1f#8, 0x8b#8, s.h.cm, s.h.flg] ++ le32 s.h.mtime ++ [s.h.xfl, s.h.os] ++
        (match s.h.extra with
          | none => []
          | some fs => le16 (BitVec.ofNat 16 (fs.map (fun f => 4 + f.data.length)).sum) ++
              (fs.map (fun f => [f.ids0, f.ids1] ++ le16 (BitVec.ofNat 16 f.data.length) ++ f.data)).flatten) ++
        (match s.h.name with | none => [] | some text => text ++ [0#8]) ++
        (match s.h.comment with | none => [] | some text => text ++ [0#8]) ∧
      out = plain ++ (if s.h.flg.getLsbD 1 then le16 (crc16Of plain) else []) ∧
      t.ranOk (.bytes out) ∧ t.out.snk = s.out.snk ++ marked ∧ marked.map (fun x => x.byte) = out ∧
      (∀ i x, marked[i]? = some x → (x.last = true ↔ i + 1 = out.length)) ∧ t.len = out.length ∧ t.ser = { s.ser with out := out } ∧
      t.h = s.h ∧ t.r = s.r ∧ t.p = s.p ∧ t.params = s.params ∧ t.ret = s.ret ∧ t.out.src = s.out.src ∧
      t.out.reg = s.out.reg ∧ t.out.script = s.out.script ∧ (s.h.flg.getLsbD 1 = false → t.c = s.c)

/-- R167, R191, R199 (d): a data length or a section that does not fit 16 bits ends ENCODE in EncodeOverflow with nothing
delivered and `H` unchanged, at either level. -/
def Obligations.EncodeFaultsOnOverflow : Prop :=
  ∀ (s : State) (fs : List Field), s.h.extra = some fs →
    ((∃ f ∈ fs, 65535 < f.data.length) ∨ 65535 < (fs.map (fun f => 4 + f.data.length)).sum) →
    ∃ t, exec .encode s = .next t ∧ t.ranInto ⟨.encodeOverflow, 1#16, 0#16⟩ 6#8 ∧ t.out.snk = s.out.snk ∧ t.len = 0 ∧
      t.ser.ph = .idle ∧ t.h = s.h ∧ t.r = s.r ∧ t.p = s.p ∧ t.c = s.c ∧ t.params = s.params ∧ t.ret = s.ret ∧
      t.out.src = s.out.src ∧ t.out.reg = s.out.reg ∧ t.out.script = s.out.script

/-- R70: the number of bytes ENCODE delivers. -/
def Obligations.EncodedLengthIsTheFormula : Prop :=
  ∀ (s t : State) (out : Bytes), s.params.grain = .operation → s.h.flagsAgree = true → exec .encode s = .next t →
    t.ranOk (.bytes out) → out.length = s.h.wireLength

/-- R171: switching FHCRC on adds two bytes, changes byte 3 and no other, and the two are the checksum of the rest; switching it
off again gives the first output back. -/
def Obligations.ChecksumTogglesAndRestores : Prop :=
  ∀ (s t0 : State) (e0 : Bytes), s.params.grain = .operation → s.h.flg.getLsbD 1 = false → exec .encode s = .next t0 →
    t0.ranOk (.bytes e0) →
    ∃ s1 t1 s2 t2 e1, exec (.wrFlg (s.h.flg ||| 0x02#8)) s = .next s1 ∧ exec .encode s1 = .next t1 ∧
      t1.ranOk (.bytes e1) ∧ e1.length = e0.length + 2 ∧ e1.getD 3 0#8 = e0.getD 3 0#8 ||| 0x02#8 ∧
      (∀ i, i < e0.length → i ≠ 3 → e1.getD i 0#8 = e0.getD i 0#8) ∧
      e1.drop e0.length = le16 (crc16Of (e1.take e0.length)) ∧
      exec (.wrFlg (s1.h.flg &&& 0xFD#8)) t1 = .next s2 ∧ exec .encode s2 = .next t2 ∧ t2.ranOk (.bytes e0)

/-- R169: bytes to Header to bytes. An ENCODE after a DECODE that ended `ok` with `LEN = n` returns the first `n` bytes of the
source. -/
def Obligations.EncodeReturnsTheDecodedBytes : Prop :=
  ∀ s t : State, s.params.grain = .operation → exec .decode s = .next t → t.ranOk .unit →
    ∃ u, exec .encode t = .next u ∧ u.ranOk (.bytes ((avail s).take t.len)) ∧
      u.out.snk = t.out.snk ++ sinkBytes ((avail s).take t.len)

/-- R170: Header to bytes to Header. ENCODE of a valid Header ends `ok`, and a DECODE of its bytes, whatever follows them and
whatever the state, leaves that Header and consumes exactly them (within the capacities, R5). -/
def Obligations.DecodeRecoversTheEncodedHeader : Prop :=
  ∀ (s d : State) (rest : Bytes), s.params.grain = .operation → s.h.valid = true → d.params.grain = .operation →
    s.h.withinCaps d.params = true → avail d = headerBytes s.h ++ rest →
    ∃ t u, exec .encode s = .next t ∧ t.ranOk (.bytes (headerBytes s.h)) ∧ exec .decode d = .next u ∧ u.ranOk .unit ∧
      u.h = s.h ∧ u.len = (headerBytes s.h).length ∧ avail u = rest

/-! ### The checksum unit -/

/-- R175, R176: the check values (the parameters of the CRC: entry 16). -/
def Obligations.ChecksumCheckValues : Prop :=
  crc32Of [0x31#8, 0x32#8, 0x33#8, 0x34#8, 0x35#8, 0x36#8, 0x37#8, 0x38#8, 0x39#8] = 0xCBF43926#32 ∧
  crc32Of [] = 0#32 ∧ crc32Of [0x1f#8, 0x8b#8] = 0xF6E946C9#32 ∧
  crc16Of [0x1f#8, 0x8b#8, 8#8, 2#8, 0#8, 0#8, 0#8, 0#8, 0#8, 255#8] = 0xC990#16

/-- R175 to R177, R179: the command and the two procedures answer the CRC-32 of their operand or its low 16 bits; after the bytes
`xs` and one more the register is the one after `xs`, that byte xored into its low bits and shifted out. CRC16 leaves
everything but `C` and the record. The numbers are entry 16, the record after a procedure entry 15. -/
def Obligations.ChecksumRunsTheRegister : Prop :=
  ∀ (xs : Bytes) (b : Byte) (s : State),
    (∃ t, exec (.crc32 []) s = .next t ∧ t.c = 0xFFFFFFFF#32) ∧
    (∃ t, exec (.crc32 xs) s = .next t ∧ t.ret = .u32 (t.c ^^^ 0xFFFFFFFF#32) ∧ t = { s with c := t.c, ret := t.ret } ∧
      ∃ u, exec (.crc32 (xs ++ [b])) s = .next u ∧ u.c = crcShifts 8 (t.c ^^^ b.setWidth 32)) ∧
    (∃ t, exec (.crc16Fn xs) s = .next t ∧ t.ret = .u16 ((crc32Of xs).setWidth 16) ∧
      t = { s with c := t.c, ret := t.ret }) ∧
    (∃ t, exec (.crc16 xs) s = .next t ∧ t.ranOk (.u16 ((crc32Of xs).setWidth 16)) ∧ t.h = s.h ∧ s.unitsKept t)

/-! ### The wire format as instructions of the parser -/

/-- R61, R132, R145, R146: the fixed part is latched into `P.W` with its stores null; with no section bit DECODE is done, else the
parser is at the first section the FLG byte selects (an instruction by entry 13). -/
def Obligations.FixedPartIsLatched : Prop :=
  ∀ (cm flg xfl os : Byte) (m : Word32) (s : State), s.p.ph = .magic ∨ s.p.ph = .fixed →
    ∃ t, exec (.gzipFixed cm flg m xfl os) s = .next t ∧ t.p.w = ⟨cm, flg, m, xfl, os, none, none, none⟩ ∧
      t.p = { s.p with ph := t.p.ph, cnt := 0, tmp := [], acc := [], w := t.p.w, snap := t.p.snap } ∧
      (t.p.ph ≠ .hcrc → t.c = s.c ∧ t.p.snap = s.p.snap) ∧ t.r = s.r ∧ t.ser = s.ser ∧ t.params = s.params ∧ t.ret = s.ret ∧ s.hostKept t ∧
      (flg &&& 0x1E#8 = 0#8 → t.h = t.p.w ∧ t.p.ph = .idle ∧ t.len = s.r.pos ∧ t.ranOk .unit) ∧
      (flg &&& 0x1E#8 ≠ 0#8 → t.h = s.h ∧ t.len = s.len ∧ s.recordKept t ∧
        t.p.ph = (if flg.getLsbD 2 then .xlen else if flg.getLsbD 3 then .name else if flg.getLsbD 4 then .comment
          else .hcrc))

/-- R63, R72, R146, R149: FTEXT and the unnamed bits select nothing. Each other test of the latched FLG byte, made after the fixed part and before its section
(`before` lists the phases in between), goes to the section when its bit is set and changes nothing when it is not. That these
are instructions is entry 13, and their effect in FIXED entry 31. -/
def Obligations.FlagTestsSelectTheirSections : Prop :=
  ∀ s : State, exec .ftext s = .next s ∧ (∀ bits, exec (.flgUnnamed bits) s = .next s) ∧
    ∀ (i : Instr) (bit : Nat) (target : Phase) (before : List Phase),
      (i, bit, target, before) ∈
        [(Instr.fextra, 2, Phase.xlen, [Phase.fixed]), (.fname, 3, .name, [.fixed, .xlen, .sfTag, .sfLen, .sfData]),
         (.fcomment, 4, .comment, [.fixed, .xlen, .sfTag, .sfLen, .sfData, .name]),
         (.fhcrc, 1, .hcrc, [.fixed, .xlen, .sfTag, .sfLen, .sfData, .name, .comment])] →
      s.p.ph ∈ before →
      ∃ t, exec i s = .next t ∧ (s.p.w.flg.getLsbD bit = false → t = s) ∧
        (s.p.w.flg.getLsbD bit = true →
          t.p = { s.p with ph := target, cnt := 0, tmp := [], acc := [], snap := t.p.snap } ∧
          (target = .hcrc → t.p.snap = crc16Of s.r.buf) ∧ (target ≠ .hcrc → t.p.snap = s.p.snap ∧ t.c = s.c) ∧
          t = { s with p := t.p, c := t.c })

/-- R146: the four tests of the FLG byte in their order, each made only when those before it selected nothing, are NEXT. -/
def Obligations.FlagTestsInOrderAreNext : Prop :=
  ∀ flg : Byte,
    nextPhase 3 flg = (if flg.getLsbD 1 then some .hcrc else none) ∧
    nextPhase 2 flg = (if flg.getLsbD 4 then some .comment else nextPhase 3 flg) ∧
    nextPhase 1 flg = (if flg.getLsbD 3 then some .name else nextPhase 2 flg) ∧
    nextPhase 0 flg = (if flg.getLsbD 2 then some .xlen else nextPhase 1 flg)

/-- R64, R139, R140, R145: the declared length of the section is latched, an empty sequence is present, and what follows is the
next section (0), the fault MalformedExtra (1 to 3) or a subfield (4 and more); above a capacity, CapacityExceeded. An instruction by entry 13. -/
def Obligations.SectionLengthIsLatched : Prop :=
  ∀ (xlen : Half) (s : State), s.p.ph = .xlen →
    ∃ t, exec (.fextraSection xlen) s = .next t ∧ t.p.rem = xlen ∧ t.p.slen = s.p.slen ∧ t.p.tag = s.p.tag ∧
      (t.p.ph ≠ .hcrc → t.c = s.c ∧ t.p.snap = s.p.snap) ∧ t.r = s.r ∧ t.ser = s.ser ∧ t.params = s.params ∧
      t.ret = s.ret ∧ s.hostKept t ∧
      (overCap s.params.extraCap xlen.toNat = true →
        t.ranInto ⟨.capacityExceeded, 1#16, 0#16⟩ 7#8 ∧ t.h = s.h ∧ t.p.ph = .idle ∧ t.len = s.r.pos) ∧
      (overCap s.params.extraCap xlen.toNat = false → t.p.w = { s.p.w with extra := some [] } ∧
        (xlen = 0#16 → nextPhase 1 s.p.w.flg ≠ none → 
          t.h = s.h ∧ some t.p.ph = nextPhase 1 s.p.w.flg ∧ t.len = s.len ∧ s.recordKept t) ∧
        (xlen = 0#16 → nextPhase 1 s.p.w.flg = none →
          t.h = t.p.w ∧ t.p.ph = .idle ∧ t.len = s.r.pos ∧ t.ranOk .unit) ∧
        (1 ≤ xlen.toNat → xlen.toNat ≤ 3 →
          t.ranInto ⟨.malformedExtra, xlen, 0#16⟩ 5#8 ∧ t.h = s.h ∧ t.p.ph = .idle ∧ t.len = s.r.pos) ∧
        (4 ≤ xlen.toNat → t.h = s.h ∧ t.p.ph = .sfTag ∧ t.len = s.len ∧ s.recordKept t))

/-- R65, R139, R145: a subfield that fits is appended to `P.W.EXTRA` and taken off the remainder; one that does not is
MalformedExtra(rem, slen), with nothing appended. An instruction by entry 13. -/
def Obligations.SubfieldIsAppended : Prop :=
  ∀ (i0 i1 : Byte) (data : Bytes) (fs : List Field) (s : State),
    s.p.ph = .sfTag ∨ s.p.ph = .sfLen ∨ s.p.ph = .sfData → data.length ≤ 65535 → s.p.w.extra = some fs →
    ∃ t, exec (.subfield i0 i1 data) s = .next t ∧ t.r = s.r ∧ t.ser = s.ser ∧ t.params = s.params ∧ t.ret = s.ret ∧
      s.hostKept t ∧ t.p.tag = (i0, i1) ∧ t.p.slen = BitVec.ofNat 16 data.length ∧
      (t.p.ph ≠ .hcrc → t.c = s.c ∧ t.p.snap = s.p.snap) ∧
      (s.p.rem.toNat < 4 + data.length →
        t.ranInto ⟨.malformedExtra, s.p.rem, BitVec.ofNat 16 data.length⟩ 5#8 ∧ t.p.w = s.p.w ∧ t.h = s.h ∧
        t.p.ph = .idle ∧ t.len = s.r.pos) ∧
      (4 + data.length ≤ s.p.rem.toNat →
        t.p.w = { s.p.w with extra := some (fs ++ [⟨i0, i1, data⟩]) } ∧
        t.p.rem.toNat + (4 + data.length) = s.p.rem.toNat ∧
        (4 ≤ t.p.rem.toNat → t.p.ph = .sfTag ∧ t.h = s.h ∧ t.len = s.len ∧ s.recordKept t) ∧
        (1 ≤ t.p.rem.toNat → t.p.rem.toNat ≤ 3 →
          t.ranInto ⟨.malformedExtra, t.p.rem, 0#16⟩ 5#8 ∧ t.h = s.h ∧ t.p.ph = .idle ∧ t.len = s.r.pos) ∧
        (t.p.rem = 0#16 → nextPhase 1 s.p.w.flg ≠ none →
          some t.p.ph = nextPhase 1 s.p.w.flg ∧ t.h = s.h ∧ t.len = s.len ∧ s.recordKept t) ∧
        (t.p.rem = 0#16 → nextPhase 1 s.p.w.flg = none → t.h = t.p.w ∧ t.p.ph = .idle ∧ t.len = s.r.pos ∧ t.ranOk .unit))

/-- R66, R141, R145: the text of a string goes to the store its phase names, and the parser to the next section the FLG byte
selects, or DECODE is done. An instruction by entry 13. -/
def Obligations.StringGoesToItsStore : Prop :=
  ∀ (text : Bytes) (s : State),
    (s.p.ph = .name → overCap s.params.nameCap text.length = false →
      ∃ t, exec (.zstring text) s = .next t ∧ t.p.w = { s.p.w with name := some text } ∧ t.r = s.r ∧ s.hostKept t ∧
        t.ser = s.ser ∧ t.params = s.params ∧ t.ret = s.ret ∧
        t.p = { s.p with ph := t.p.ph, cnt := 0, tmp := [], acc := [], w := t.p.w, snap := t.p.snap } ∧
        (t.p.ph ≠ .hcrc → t.c = s.c ∧ t.p.snap = s.p.snap) ∧
        (nextPhase 2 s.p.w.flg ≠ none → 
          some t.p.ph = nextPhase 2 s.p.w.flg ∧ t.h = s.h ∧ t.len = s.len ∧ s.recordKept t) ∧
        (nextPhase 2 s.p.w.flg = none → t.h = t.p.w ∧ t.p.ph = .idle ∧ t.len = s.r.pos ∧ t.ranOk .unit)) ∧
    (s.p.ph = .comment → overCap s.params.commentCap text.length = false →
      ∃ t, exec (.zstring text) s = .next t ∧ t.p.w = { s.p.w with comment := some text } ∧ t.r = s.r ∧ s.hostKept t ∧
        t.ser = s.ser ∧ t.params = s.params ∧ t.ret = s.ret ∧
        t.p = { s.p with ph := t.p.ph, cnt := 0, tmp := [], acc := [], w := t.p.w, snap := t.p.snap } ∧
        (t.p.ph ≠ .hcrc → t.c = s.c ∧ t.p.snap = s.p.snap) ∧
        (s.p.w.flg.getLsbD 1 = true → 
          t.p.ph = .hcrc ∧ t.p.snap = crc16Of s.r.buf ∧ t.h = s.h ∧ t.len = s.len ∧ s.recordKept t) ∧
        (s.p.w.flg.getLsbD 1 = false → t.h = t.p.w ∧ t.p.ph = .idle ∧ t.len = s.r.pos ∧ t.ranOk .unit))

/-- R67, R136, R145: a stored checksum equal to the snapshot ends DECODE `ok` with the working Header in `H`; another is
ChecksumMismatch(computed, stored). An instruction by entry 13. -/
def Obligations.StoredChecksumDecides : Prop :=
  ∀ (stored : Half) (s : State), s.p.ph = .hcrc →
    ∃ t, exec (.headerCrc stored) s = .next t ∧ t.r = s.r ∧ s.hostKept t ∧ t.ser = s.ser ∧ t.params = s.params ∧
      t.c = s.c ∧ t.ret = s.ret ∧ t.len = s.r.pos ∧ t.p.ph = .idle ∧ t.p.w = s.p.w ∧
      t.p.rem = s.p.rem ∧ t.p.slen = s.p.slen ∧ t.p.tag = s.p.tag ∧ t.p.snap = s.p.snap ∧
      (stored = s.p.snap → t.h = s.p.w ∧ t.ranOk .unit) ∧
      (stored ≠ s.p.snap → t.h = s.h ∧ t.ranInto ⟨.checksumMismatch, s.p.snap, stored⟩ 3#8)

/-- R144 and entry 13: in IDLE no element of the wire format has an effect ("the machine takes no step"); in a phase that is not
the element's own the model stops by name. -/
def Obligations.ElementsWaitForTheirPhase : Prop :=
  ∀ (i : Instr) (own : List Phase) (s : State),
    (i, own) ∈ ([(.fextra, [.fixed]), (.fname, [.fixed, .xlen, .sfTag, .sfLen, .sfData]),
      (.fcomment, [.fixed, .xlen, .sfTag, .sfLen, .sfData, .name]),
      (.fhcrc, [.fixed, .xlen, .sfTag, .sfLen, .sfData, .name, .comment])] : List (Instr × List Phase)) ∨
    (∃ a b c d m, (i, own) = (.gzipFixed a b m c d, [.magic, .fixed])) ∨ (∃ n, (i, own) = (.fextraSection n, [.xlen])) ∨
    (∃ a b d, (i, own) = (.subfield a b d, [.sfTag, .sfLen, .sfData])) ∨
    (∃ x, (i, own) = (.zstring x, [.name, .comment])) ∨ (∃ v, (i, own) = (.headerCrc v, [.hcrc])) →
    (s.p.ph = .idle → exec i s = .next s) ∧ (s.p.ph ≠ .idle → s.p.ph ∉ own → exec i s = .fault .outOfPhase)

/-! ### The step level -/

/-- R145 against the wire format (an element as an instruction: entry 13): the step that pulls the last byte of an element is the execution of that element on the state
that has received the byte. -/
def Obligations.LastByteRunsTheElement : Prop :=
  ∀ (s : State) (b : Byte) (more : Bytes), s.out.script = [] → avail s = b :: more →
    (∀ cm flg t0 t1 t2 t3 xfl, s.p.ph = .fixed → s.p.cnt = 7 → s.p.tmp = [cm, flg, t0, t1, t2, t3, xfl] →
      step s = exec (.gzipFixed cm flg (u32 [t0, t1, t2, t3]) xfl b) (gather b (takeByte b s))) ∧
    (∀ l0, s.p.ph = .xlen → s.p.cnt = 1 → s.p.tmp = [l0] →
      step s = exec (.fextraSection (b ++ l0)) (gather b (takeByte b s))) ∧
    (s.p.ph = .sfLen → s.p.cnt = 1 → s.p.tmp = [0#8] → b = 0#8 →
      step s = exec (.subfield s.p.tag.1 s.p.tag.2 []) (gather b (takeByte b s))) ∧
    (s.p.ph = .sfData → s.p.acc.length = s.p.cnt → s.p.cnt + 1 = s.p.slen.toNat → 4 + s.p.slen.toNat ≤ s.p.rem.toNat →
      step s = exec (.subfield s.p.tag.1 s.p.tag.2 (s.p.acc ++ [b]))
        ((takeByte b s).setP { s.p with cnt := s.p.cnt + 1 })) ∧
    (s.p.ph = .name → b = 0#8 → overCap s.params.nameCap s.p.acc.length = false →
      step s = exec (.zstring s.p.acc) (takeByte b s)) ∧
    (s.p.ph = .comment → b = 0#8 → overCap s.params.commentCap s.p.acc.length = false →
      step s = exec (.zstring s.p.acc) (takeByte b s)) ∧
    (∀ c0, s.p.ph = .hcrc → s.p.cnt = 1 → s.p.tmp = [c0] →
      step s = exec (.headerCrc (b ++ c0)) (gather b (takeByte b s)))

/-- R145, R144: a step of the parser pulls exactly one byte, or finds the source at its end and ends DECODE in
UnexpectedEndOfStream with the wanted count of the phase and what it got (0 in a string, else the bytes counted), `H`
unchanged. -/
def Obligations.ParserStepPullsOneByte : Prop :=
  ∀ s : State, s.p.ph ≠ .idle → s.out.script = [] →
    ∃ t, step s = .next t ∧ avail t = (avail s).drop 1 ∧ t.out.snk = s.out.snk ∧ t.ser = s.ser ∧
      (∀ b more, avail s = b :: more → t.r = { s.r with buf := s.r.buf ++ [b], pos := s.r.pos + 1 }) ∧
      (avail s = [] → t.r = s.r ∧ t.h = s.h ∧ t.p.ph = .idle ∧ t.len = s.r.pos ∧
        ∃ got, t.ranInto ⟨.unexpectedEndOfStream,
          (match s.p.ph with | .fixed => 8#16 | .sfData => s.p.slen | .name => 1#16 | .comment => 1#16 | _ => 2#16), got⟩ 2#8 ∧
          (s.p.cnt ≤ 65535 →
            got = (match s.p.ph with | .name => 0#16 | .comment => 0#16 | _ => BitVec.ofNat 16 s.p.cnt)))

/-- R147, R26: the phase never moves to an earlier section; it stays, goes on, or ends at IDLE. -/
def Obligations.PhaseNeverMovesBack : Prop :=
  ∀ s t : State, s.p.ph ≠ .idle → s.out.script = [] → step s = .next t →
    t.p.ph = .idle ∨ t.p.ph = s.p.ph ∨
    (s.p.ph, t.p.ph) ∈ [(Phase.magic, Phase.fixed), (.fixed, .xlen), (.fixed, .name), (.fixed, .comment), (.fixed, .hcrc),
      (.xlen, .sfTag), (.xlen, .name), (.xlen, .comment), (.xlen, .hcrc), (.sfTag, .sfLen), (.sfLen, .sfData),
      (.sfLen, .sfTag), (.sfLen, .name), (.sfLen, .comment), (.sfLen, .hcrc), (.sfData, .sfTag), (.sfData, .name),
      (.sfData, .comment), (.sfData, .hcrc), (.name, .comment), (.name, .hcrc), (.comment, .hcrc)]

/-- R148: the byte-serial parser, started by the command and run for as many steps as it consumes bytes (one more when it finds the
source at its end), is idle again with the outcome, the Header, `LEN`, the status registers and the source position that the
operation level gives from the same state. The number of steps, one of them to start the machine, is the model's (entry 18). -/
def Obligations.ParserMachineRefinesDecode : Prop :=
  ∀ s : State, s.params.grain = .byteSerial → busy s = false → s.out.script = [.cmd [0x02#8]] →
    ∃ t u, exec .decode { s with params := { s.params with grain := .operation } } = .next t ∧
      runsTo (1 + t.len + (if t.err = 2#8 then 1 else 0)) s u ∧ u.p.ph = .idle ∧ u.h = t.h ∧ u.len = t.len ∧
      u.out.rsp = t.out.rsp ∧ u.status = t.status ∧ u.err = t.err ∧ u.errInfo = t.errInfo ∧ u.out.src = t.out.src ∧
      u.out.snk = t.out.snk

/-- R172: the byte-serial serializer, started by the command, delivers after as many steps as it emits bytes what the operation
level delivers, with the same outcome, `LEN` and Header. That the start of the machine is one step of its own is the model's
(entry 18). -/
def Obligations.SerializerMachineRefinesEncode : Prop :=
  ∀ s : State, s.params.grain = .byteSerial → busy s = false → s.out.script = [.cmd [0x03#8]] →
    ∃ t u, exec .encode { s with params := { s.params with grain := .operation } } = .next t ∧
      runsTo (1 + t.len) s u ∧ u.ser.ph = .idle ∧ u.h = t.h ∧ u.len = t.len ∧ u.out.rsp = t.out.rsp ∧
      u.status = t.status ∧ u.err = t.err ∧ u.errInfo = t.errInfo ∧ u.out.src = t.out.src ∧ u.out.snk = t.out.snk

/-! ### Invariants -/

/-- R20, R113: every step keeps the flag and presence invariant, of `H` and of the Header under construction. -/
def Obligations.EveryStepKeepsTheFlagInvariant : Prop :=
  ∀ s t : State, s.flagInv = true → step s = .next t → t.flagInv = true

/-- R25 to R27, R139, R172: every step keeps the two machines where their registers say, when at most one of them is active
(R206, `EveryStepKeepsTheRecord`). -/
def Obligations.EveryStepKeepsTheMachinesOpen : Prop :=
  ∀ s t : State, s.machineInv = true → s.p.ph = .idle ∨ s.ser.ph = .idle → step s = .next t → t.machineInv = true

/-- R29, R30, R200, R206: every step keeps the status registers a mirror of the last outcome, BUSY the sign of a command in
progress, and at most one machine active. -/
def Obligations.EveryStepKeepsTheRecord : Prop :=
  ∀ s t : State, s.statusInv = true → step s = .next t → t.statusInv = true

/-- R34: the three invariants hold at reset. -/
def Obligations.ResetMeetsTheInvariants : Prop :=
  State.reset.flagInv = true ∧ State.reset.machineInv = true ∧ State.reset.statusInv = true

/-- R8, R199, R200: every command, from any state at the operation level, ends in a next state with DONE set and one of the two
outcomes, leaves the parameters, and on a fault leaves `H`. -/
def Obligations.EveryCommandEndsInOneOutcome : Prop :=
  ∀ (bs rest : Bytes) (i : Instr) (s : State), s.params.grain = .operation → decodeAs .cmd bs = .ok (i, rest) →
    ∃ t, exec i s = .next t ∧ t.params = s.params ∧ t.out.script = s.out.script ∧
      ((∃ v, t.ranOk v) ∨ ∃ f code, t.ranInto f code ∧ code ≠ 0#8 ∧ t.h = s.h)
end

