-- ==== Sys2Proof/Laws/Checksum.lean ====
section
/-! SUPPORT. The CRC register over sequences (44_checksum.md R175, R179). -/

namespace Sys2Proof.Machine

@[simp] theorem crcFold_nil (c : Word32) : crcFold c [] = c := rfl

/-- R175: one byte more at the front. -/
@[simp] theorem crcFold_cons (c : Word32) (b : Byte) (s : Bytes) : crcFold c (b :: s) = crcFold (crcByte c b) s := rfl

/-- R179: the register after two sequences is the second from the first's. -/
@[simp] theorem crcFold_append (c : Word32) (s t : Bytes) : crcFold c (s ++ t) = crcFold (crcFold c s) t := by
  simp [crcFold]

end Sys2Proof.Machine
end

