-- ==== Sys2Proof/Laws/Operands.lean ====
section
/-! SUPPORT. The operand forms: the little-endian integers and their inverses (00_scope.md R6), the lengths of the encoded forms
(40_header_and_field.md R111, R112), the test of the first two bytes. -/

namespace Sys2Proof.Machine

/-! ### Little-endian integers -/

/-- R6: two bytes put together, as a number. -/
theorem toNat_append8 (hi lo : Byte) : (hi ++ lo : BitVec (8 + 8)).toNat = lo.toNat + 256 * hi.toNat := by
  rw [BitVec.toNat_append, ← Nat.shiftLeft_add_eq_or_of_lt lo.isLt, Nat.shiftLeft_eq]
  omega

/-- R6 `U16` of two bytes. -/
theorem u16_two (lo hi : Byte) : u16 [lo, hi] = (hi ++ lo : Half) := rfl

/-- R6 `U16` as a number. -/
theorem u16_toNat (lo hi : Byte) : (u16 [lo, hi]).toNat = lo.toNat + 256 * hi.toNat := toNat_append8 hi lo

/-- A byte of a value, as a number. -/
theorem extract8_toNat {w : Nat} (v : BitVec w) (k : Nat) : (v.extractLsb' k 8).toNat = v.toNat / 2 ^ k % 256 := by
  rw [BitVec.extractLsb'_toNat, Nat.shiftRight_eq_div_pow]

/-- R6: `U16` reads back what `LE16` wrote. -/
@[simp] theorem u16_le16 (v : Half) : u16 (le16 v) = v := by
  apply BitVec.eq_of_toNat_eq
  have h := v.isLt
  rw [le16, u16_toNat, extract8_toNat, extract8_toNat]
  omega

/-- R6: `LE16` gives back the bytes `U16` read. -/
@[simp] theorem le16_u16 (lo hi : Byte) : le16 (u16 [lo, hi]) = [lo, hi] := by
  have h := lo.isLt
  have h' := hi.isLt
  simp only [le16, List.cons.injEq, and_true]
  constructor <;> apply BitVec.eq_of_toNat_eq <;> rw [extract8_toNat, u16_toNat] <;> omega

/-- The same with the half written out. -/
@[simp] theorem le16_append (lo hi : Byte) : le16 (hi ++ lo) = [lo, hi] := le16_u16 lo hi

/-- R6 `U32` as a number. -/
theorem u32_toNat (b0 b1 b2 b3 : Byte) :
    (u32 [b0, b1, b2, b3]).toNat = b0.toNat + 256 * (b1.toNat + 256 * (b2.toNat + 256 * b3.toNat)) := by
  have h0 := b0.isLt
  have h1 := b1.isLt
  have h2 := b2.isLt
  have e1 : (b1 ++ b0 : BitVec (8 + 8)).toNat = b0.toNat + 256 * b1.toNat := toNat_append8 b1 b0
  have e2 : (b2 ++ (b1 ++ b0) : BitVec (8 + (8 + 8))).toNat = b0.toNat + 256 * (b1.toNat + 256 * b2.toNat) := by
    rw [BitVec.toNat_append, ← Nat.shiftLeft_add_eq_or_of_lt (BitVec.isLt _), Nat.shiftLeft_eq, e1]
    omega
  have e3 : (b3 ++ (b2 ++ (b1 ++ b0)) : BitVec (8 + (8 + (8 + 8)))).toNat =
      b0.toNat + 256 * (b1.toNat + 256 * (b2.toNat + 256 * b3.toNat)) := by
    rw [BitVec.toNat_append, ← Nat.shiftLeft_add_eq_or_of_lt (BitVec.isLt _), Nat.shiftLeft_eq, e2]
    omega
  exact e3

/-- R6: `U32` reads back what `LE32` wrote. -/
@[simp] theorem u32_le32 (v : Word32) : u32 (le32 v) = v := by
  apply BitVec.eq_of_toNat_eq
  have h := v.isLt
  rw [le32, u32_toNat, extract8_toNat, extract8_toNat, extract8_toNat, extract8_toNat]
  omega

/-- R6: `LE32` gives back the bytes `U32` read. -/
@[simp] theorem le32_u32 (b0 b1 b2 b3 : Byte) : le32 (u32 [b0, b1, b2, b3]) = [b0, b1, b2, b3] := by
  have h0 := b0.isLt
  have h1 := b1.isLt
  have h2 := b2.isLt
  have h3 := b3.isLt
  simp only [le32, List.cons.injEq, and_true]
  refine ⟨?_, ?_, ?_, ?_⟩ <;> apply BitVec.eq_of_toNat_eq <;> rw [extract8_toNat, u32_toNat] <;> omega

/-- A sequence of two bytes. -/
theorem two_of_length {d : Bytes} (h : d.length = 2) : ∃ a b, d = [a, b] := by
  rcases d with _ | ⟨a, _ | ⟨b, _ | ⟨c, l⟩⟩⟩ <;> simp_all

/-- A sequence of eight bytes. -/
theorem eight_of_length {d : Bytes} (h : d.length = 8) :
    ∃ a b t0 t1 t2 t3 x o, d = [a, b, t0, t1, t2, t3, x, o] := by
  rcases d with _ | ⟨_, _ | ⟨_, _ | ⟨_, _ | ⟨_, _ | ⟨_, _ | ⟨_, _ | ⟨_, _ | ⟨_, _ | ⟨_, l⟩⟩⟩⟩⟩⟩⟩⟩⟩ <;> simp_all

/-! ### Lengths -/

@[simp] theorem le16_length (v : Half) : (le16 v).length = 2 := rfl
@[simp] theorem le32_length (v : Word32) : (le32 v).length = 4 := rfl
@[simp] theorem magic_length : magic.length = 2 := rfl
@[simp] theorem fieldIds_length (f : Field) : (fieldIds f).length = 2 := rfl

@[simp] theorem fixedBytes_length (cm flg : Byte) (m : Word32) (xfl os : Byte) :
    (fixedBytes cm flg m xfl os).length = 10 := rfl

/-- R111, R112: `FIELD_LEN` is the length of `FIELD_ENC`. -/
@[simp] theorem fieldEnc_length (f : Field) : (fieldEnc f).length = fieldLen f := by
  simp [fieldEnc, fieldLen]
  omega

@[simp] theorem extraBody_nil : extraBody [] = [] := rfl
@[simp] theorem extraLen_nil : extraLen [] = 0 := rfl

@[simp] theorem extraBody_cons (f : Field) (fs : List Field) : extraBody (f :: fs) = fieldEnc f ++ extraBody fs := by
  simp [extraBody]

@[simp] theorem extraLen_cons (f : Field) (fs : List Field) : extraLen (f :: fs) = fieldLen f + extraLen fs := by
  simp [extraLen]

@[simp] theorem extraBody_append (fs gs : List Field) : extraBody (fs ++ gs) = extraBody fs ++ extraBody gs := by
  simp [extraBody]

@[simp] theorem extraLen_append (fs gs : List Field) : extraLen (fs ++ gs) = extraLen fs + extraLen gs := by
  simp [extraLen]

/-- R160: the length of the encoded Fields is the sum of their `FIELD_LEN`. -/
@[simp] theorem extraBody_length (fs : List Field) : (extraBody fs).length = extraLen fs := by
  induction fs with
  | nil => rfl
  | cons f fs ih => simp [ih]

/-- R163: a string on the wire is one byte longer than its text. -/
@[simp] theorem zstrBytes_length (text : Bytes) : (zstrBytes text).length = text.length + 1 := by simp [zstrBytes]

/-- A length that fits 16 bits is kept by its wire form. -/
theorem lenHalf_toNat {n : Nat} (h : n ≤ 65535) : (lenHalf n).toNat = n := by
  rw [lenHalf, BitVec.toNat_ofNat]
  omega

/-- A half is the wire form of its value. -/
@[simp] theorem lenHalf_of_toNat (v : Half) : lenHalf v.toNat = v := by simp [lenHalf]

/-- R187: a count that fits its half. -/
theorem countHalf_small {n : Nat} (h : n ≤ 65535) : countHalf n = BitVec.ofNat 16 n := by simp [countHalf, h]

end Sys2Proof.Machine
end

