-- ==== Sys2Proof/Laws/Decode.lean ====
section
/-! SUPPORT. What the operand decoders can do, in both directions: what they read back of the encoder's bytes, and what bytes they
accept (30_encoding.md R66, R75; entry 5). -/

namespace Sys2Proof

open Machine

/-- Everything `into` can do. -/
theorem Decoded.into_ok {α β : Type} {d : Decoded α} {mk : α → β} {b : β} {rest : Bytes}
    (h : d.into mk = .ok (b, rest)) : ∃ a, d = .ok (a, rest) ∧ b = mk a := by
  cases d with
  | ok p =>
    simp only [Decoded.into, Except.ok.injEq, Prod.mk.injEq] at h
    exact ⟨p.1, by rw [← h.2], h.1.symm⟩
  | error e => simp [Decoded.into] at h

@[simp] theorem Decoded.into_ok_mk {α β : Type} (a : α) (rest : Bytes) (mk : α → β) :
    Decoded.into (.ok (a, rest)) mk = .ok (mk a, rest) := rfl

/-! ### Sequences and pairs on CMD -/

@[simp] theorem decodeSeq_nil : decodeSeq [] = .error .cutShort := rfl
@[simp] theorem decodeSeq_end (rest : Bytes) : decodeSeq (0#8 :: rest) = .ok ([], rest) := by unfold decodeSeq; rfl
@[simp] theorem decodeSeq_cut : decodeSeq [1#8] = .error .cutShort := by unfold decodeSeq; rfl
@[simp] theorem decodeSeq_mark (b : Byte) (more : Bytes) :
    decodeSeq (1#8 :: b :: more) = (decodeSeq more).into (fun s => b :: s) := by
  conv_lhs => unfold decodeSeq
  rfl

/-- A mark that is neither 0 nor 1 (entry 5). -/
theorem decodeSeq_badMark {mark : Byte} (rest : Bytes) (h0 : mark ≠ 0#8) (h1 : mark ≠ 1#8) :
    decodeSeq (mark :: rest) = .error (.badMark mark) := by
  unfold decodeSeq
  simp [h0, h1]

/-- A `Bytes` operand is read back, whatever follows it. -/
@[simp] theorem decodeSeq_encodeSeq (s rest : Bytes) : decodeSeq (encodeSeq s ++ rest) = .ok (s, rest) := by
  induction s with
  | nil => simp [encodeSeq]
  | cons b s ih => simp [encodeSeq, ih]

/-- A `Bytes` operand that is accepted begins with the encoder's bytes. -/
theorem decodeSeq_ok {bs s rest : Bytes} (h : decodeSeq bs = .ok (s, rest)) : bs = encodeSeq s ++ rest := by
  induction bs using decodeSeq.induct generalizing s with
  | case1 => simp at h
  | case2 more =>
    simp only [decodeSeq_end, Except.ok.injEq, Prod.mk.injEq] at h
    simp [← h.1, ← h.2, encodeSeq]
  | case3 => simp at h
  | case4 b more _ ih =>
    rw [decodeSeq_mark] at h
    obtain ⟨t, ht, rfl⟩ := Decoded.into_ok h
    simp [encodeSeq, ih ht]
  | case5 mark more h0 h1 => simp [decodeSeq_badMark more h0 h1] at h

/-- A `(Bytes, Bytes)` operand is read back. -/
@[simp] theorem decodePair_encode (p : Bytes × Bytes) (rest : Bytes) :
    decodePair (encodeSeq p.1 ++ (encodeSeq p.2 ++ rest)) = .ok (p, rest) := by simp [decodePair]

/-- A `(Bytes, Bytes)` operand that is accepted begins with the encoder's bytes. -/
theorem decodePair_ok {bs rest : Bytes} {p : Bytes × Bytes} (h : decodePair bs = .ok (p, rest)) :
    bs = encodeSeq p.1 ++ (encodeSeq p.2 ++ rest) := by
  cases e : decodeSeq bs with
  | error x => simp [decodePair, e] at h
  | ok q =>
    simp only [decodePair, e] at h
    obtain ⟨d, hd, rfl⟩ := Decoded.into_ok h
    rw [decodeSeq_ok e, decodeSeq_ok hd]

/-- Every operand has a byte. -/
theorem encodeSeq_length_pos (s : Bytes) : 1 ≤ (encodeSeq s).length := by cases s <;> simp [encodeSeq]

/-- A `Pairs` operand is read back, with enough fuel. -/
theorem decodePairs_encodePairs (ps : List (Bytes × Bytes)) (rest : Bytes) (fuel : Nat) (h : ps.length < fuel) :
    decodePairs fuel (encodePairs ps ++ rest) = .ok (ps, rest) := by
  induction ps generalizing fuel with
  | nil => cases fuel <;> simp_all [encodePairs, decodePairs]
  | cons p ps ih =>
    obtain ⟨k, rfl⟩ : ∃ k, fuel = k + 1 := ⟨fuel - 1, by omega⟩
    simp only [List.length_cons] at h
    simp [encodePairs, decodePairs, ih k (by omega)]

/-- The operand is longer than its number of pairs. -/
theorem encodePairs_length (ps : List (Bytes × Bytes)) : ps.length < (encodePairs ps).length := by
  induction ps with
  | nil => simp [encodePairs]
  | cons p ps ih =>
    simp only [encodePairs, List.length_cons, List.length_append]
    omega

/-- A `Pairs` operand that is accepted begins with the encoder's bytes. -/
theorem decodePairs_ok {fuel : Nat} {bs rest : Bytes} {ps : List (Bytes × Bytes)}
    (h : decodePairs fuel bs = .ok (ps, rest)) : bs = encodePairs ps ++ rest := by
  induction fuel generalizing bs ps with
  | zero => cases bs <;> simp [decodePairs] at h
  | succ fuel ih =>
    rcases bs with _ | ⟨mark, bs⟩
    · simp [decodePairs] at h
    · by_cases h0 : mark = 0#8
      · subst h0
        simp only [decodePairs, if_true, Except.ok.injEq, Prod.mk.injEq] at h
        simp [← h.1, ← h.2, encodePairs]
      · by_cases h1 : mark = 1#8
        · subst h1
          simp only [decodePairs, h0, if_false, if_true] at h
          cases e : decodePair bs with
          | error x => simp [e] at h
          | ok q =>
            simp only [e] at h
            obtain ⟨qs, hq, rfl⟩ := Decoded.into_ok h
            rw [decodePair_ok (p := q.1) (rest := q.2) e, ih hq]
            simp [encodePairs]
        · simp [decodePairs, h0, h1] at h

/-! ### Command codes -/

/-- R78: a code that R77 does not list is read as itself. -/
theorem decodeCmd_reserved {code : Byte} (rest : Bytes) (h : code ∉ assignedCodes) :
    decodeCmd (code :: rest) = .ok (.reserved code, rest) := by
  have key : ∀ n, code.toNat = n → BitVec.ofNat 8 n ∉ assignedCodes := by
    rintro n rfl
    simpa using h
  simp only [decodeCmd]
  split <;> first | rfl | (have c := key _ ‹_›; exact absurd (by decide) c)

/-- R77: a code that is read as a reserved one is none of the 24. -/
theorem decodeCmd_reserved_unassigned {code c : Byte} {rest more : Bytes}
    (h : decodeCmd (code :: rest) = .ok (.reserved c, more)) : c = code ∧ more = rest ∧ code ∉ assignedCodes := by
  by_cases hc : code ∈ assignedCodes
  · exfalso
    simp only [assignedCodes, List.mem_cons, List.not_mem_nil, or_false] at hc
    rcases hc with rfl | rfl | rfl | rfl | rfl | rfl | rfl | rfl | rfl | rfl | rfl | rfl | rfl | rfl | rfl | rfl | rfl | rfl |
      rfl | rfl | rfl | rfl | rfl | rfl <;>
    first
    | (injection h with h; injection h with h; cases h)
    | (obtain ⟨_, _, e⟩ := Decoded.into_ok h; cases e)
  · rw [decodeCmd_reserved rest hc] at h
    simp only [Except.ok.injEq, Prod.mk.injEq, Instr.reserved.injEq] at h
    exact ⟨h.1.symm, h.2.symm, hc⟩

/-! ### Strings on the wire -/

/-- R66: text without a zero byte is read back. -/
theorem decodeZstr_zstrBytes (text rest : Bytes) (h : 0#8 ∉ text) :
    decodeZstr (zstrBytes text ++ rest) = .ok (text, rest) := by
  induction text with
  | nil => simp [zstrBytes, decodeZstr]
  | cons b text ih =>
    simp only [List.mem_cons, not_or] at h
    have := ih h.2
    simp only [zstrBytes, List.append_assoc, List.cons_append, List.nil_append] at this
    simp [zstrBytes, decodeZstr, Ne.symm h.1, this]

/-- R66: what the string decoder accepts, and that its text holds no zero byte. -/
theorem decodeZstr_ok {bs text rest : Bytes} (h : decodeZstr bs = .ok (text, rest)) :
    bs = zstrBytes text ++ rest ∧ 0#8 ∉ text := by
  induction bs generalizing text with
  | nil => simp [decodeZstr] at h
  | cons b bs ih =>
    by_cases h0 : b = 0#8
    · subst h0
      simp only [decodeZstr, if_true, Except.ok.injEq, Prod.mk.injEq] at h
      simp [← h.1, ← h.2, zstrBytes]
    · simp only [decodeZstr, h0, if_false] at h
      obtain ⟨t, ht, rfl⟩ := Decoded.into_ok h
      obtain ⟨e, hz⟩ := ih ht
      refine ⟨by rw [e]; simp [zstrBytes], ?_⟩
      simp [hz, Ne.symm h0]

end Sys2Proof
end

