-- ==== Sys2Proof/Laws/State.lean ====
section
/-! SUPPORT. One lemma per field per named update of the state. -/

namespace Sys2Proof.Machine

@[simp] theorem State.setH_h (s : State) (v : Header) : (s.setH v).h = v := rfl
@[simp] theorem State.setH_r (s : State) (v : Header) : (s.setH v).r = s.r := rfl
@[simp] theorem State.setH_p (s : State) (v : Header) : (s.setH v).p = s.p := rfl
@[simp] theorem State.setH_ser (s : State) (v : Header) : (s.setH v).ser = s.ser := rfl
@[simp] theorem State.setH_c (s : State) (v : Header) : (s.setH v).c = s.c := rfl
@[simp] theorem State.setH_status (s : State) (v : Header) : (s.setH v).status = s.status := rfl
@[simp] theorem State.setH_err (s : State) (v : Header) : (s.setH v).err = s.err := rfl
@[simp] theorem State.setH_errInfo (s : State) (v : Header) : (s.setH v).errInfo = s.errInfo := rfl
@[simp] theorem State.setH_len (s : State) (v : Header) : (s.setH v).len = s.len := rfl
@[simp] theorem State.setH_params (s : State) (v : Header) : (s.setH v).params = s.params := rfl
@[simp] theorem State.setH_out (s : State) (v : Header) : (s.setH v).out = s.out := rfl
@[simp] theorem State.setH_ret (s : State) (v : Header) : (s.setH v).ret = s.ret := rfl

@[simp] theorem State.setR_h (s : State) (v : Reader) : (s.setR v).h = s.h := rfl
@[simp] theorem State.setR_r (s : State) (v : Reader) : (s.setR v).r = v := rfl
@[simp] theorem State.setR_p (s : State) (v : Reader) : (s.setR v).p = s.p := rfl
@[simp] theorem State.setR_ser (s : State) (v : Reader) : (s.setR v).ser = s.ser := rfl
@[simp] theorem State.setR_c (s : State) (v : Reader) : (s.setR v).c = s.c := rfl
@[simp] theorem State.setR_status (s : State) (v : Reader) : (s.setR v).status = s.status := rfl
@[simp] theorem State.setR_err (s : State) (v : Reader) : (s.setR v).err = s.err := rfl
@[simp] theorem State.setR_errInfo (s : State) (v : Reader) : (s.setR v).errInfo = s.errInfo := rfl
@[simp] theorem State.setR_len (s : State) (v : Reader) : (s.setR v).len = s.len := rfl
@[simp] theorem State.setR_params (s : State) (v : Reader) : (s.setR v).params = s.params := rfl
@[simp] theorem State.setR_out (s : State) (v : Reader) : (s.setR v).out = s.out := rfl
@[simp] theorem State.setR_ret (s : State) (v : Reader) : (s.setR v).ret = s.ret := rfl

@[simp] theorem State.setP_h (s : State) (v : Parser) : (s.setP v).h = s.h := rfl
@[simp] theorem State.setP_r (s : State) (v : Parser) : (s.setP v).r = s.r := rfl
@[simp] theorem State.setP_p (s : State) (v : Parser) : (s.setP v).p = v := rfl
@[simp] theorem State.setP_ser (s : State) (v : Parser) : (s.setP v).ser = s.ser := rfl
@[simp] theorem State.setP_c (s : State) (v : Parser) : (s.setP v).c = s.c := rfl
@[simp] theorem State.setP_status (s : State) (v : Parser) : (s.setP v).status = s.status := rfl
@[simp] theorem State.setP_err (s : State) (v : Parser) : (s.setP v).err = s.err := rfl
@[simp] theorem State.setP_errInfo (s : State) (v : Parser) : (s.setP v).errInfo = s.errInfo := rfl
@[simp] theorem State.setP_len (s : State) (v : Parser) : (s.setP v).len = s.len := rfl
@[simp] theorem State.setP_params (s : State) (v : Parser) : (s.setP v).params = s.params := rfl
@[simp] theorem State.setP_out (s : State) (v : Parser) : (s.setP v).out = s.out := rfl
@[simp] theorem State.setP_ret (s : State) (v : Parser) : (s.setP v).ret = s.ret := rfl

@[simp] theorem State.setSer_h (s : State) (v : Serializer) : (s.setSer v).h = s.h := rfl
@[simp] theorem State.setSer_r (s : State) (v : Serializer) : (s.setSer v).r = s.r := rfl
@[simp] theorem State.setSer_p (s : State) (v : Serializer) : (s.setSer v).p = s.p := rfl
@[simp] theorem State.setSer_ser (s : State) (v : Serializer) : (s.setSer v).ser = v := rfl
@[simp] theorem State.setSer_c (s : State) (v : Serializer) : (s.setSer v).c = s.c := rfl
@[simp] theorem State.setSer_status (s : State) (v : Serializer) : (s.setSer v).status = s.status := rfl
@[simp] theorem State.setSer_err (s : State) (v : Serializer) : (s.setSer v).err = s.err := rfl
@[simp] theorem State.setSer_errInfo (s : State) (v : Serializer) : (s.setSer v).errInfo = s.errInfo := rfl
@[simp] theorem State.setSer_len (s : State) (v : Serializer) : (s.setSer v).len = s.len := rfl
@[simp] theorem State.setSer_params (s : State) (v : Serializer) : (s.setSer v).params = s.params := rfl
@[simp] theorem State.setSer_out (s : State) (v : Serializer) : (s.setSer v).out = s.out := rfl
@[simp] theorem State.setSer_ret (s : State) (v : Serializer) : (s.setSer v).ret = s.ret := rfl

@[simp] theorem State.setC_h (s : State) (v : Word32) : (s.setC v).h = s.h := rfl
@[simp] theorem State.setC_r (s : State) (v : Word32) : (s.setC v).r = s.r := rfl
@[simp] theorem State.setC_p (s : State) (v : Word32) : (s.setC v).p = s.p := rfl
@[simp] theorem State.setC_ser (s : State) (v : Word32) : (s.setC v).ser = s.ser := rfl
@[simp] theorem State.setC_c (s : State) (v : Word32) : (s.setC v).c = v := rfl
@[simp] theorem State.setC_status (s : State) (v : Word32) : (s.setC v).status = s.status := rfl
@[simp] theorem State.setC_err (s : State) (v : Word32) : (s.setC v).err = s.err := rfl
@[simp] theorem State.setC_errInfo (s : State) (v : Word32) : (s.setC v).errInfo = s.errInfo := rfl
@[simp] theorem State.setC_len (s : State) (v : Word32) : (s.setC v).len = s.len := rfl
@[simp] theorem State.setC_params (s : State) (v : Word32) : (s.setC v).params = s.params := rfl
@[simp] theorem State.setC_out (s : State) (v : Word32) : (s.setC v).out = s.out := rfl
@[simp] theorem State.setC_ret (s : State) (v : Word32) : (s.setC v).ret = s.ret := rfl

@[simp] theorem State.setLen_h (s : State) (v : Nat) : (s.setLen v).h = s.h := rfl
@[simp] theorem State.setLen_r (s : State) (v : Nat) : (s.setLen v).r = s.r := rfl
@[simp] theorem State.setLen_p (s : State) (v : Nat) : (s.setLen v).p = s.p := rfl
@[simp] theorem State.setLen_ser (s : State) (v : Nat) : (s.setLen v).ser = s.ser := rfl
@[simp] theorem State.setLen_c (s : State) (v : Nat) : (s.setLen v).c = s.c := rfl
@[simp] theorem State.setLen_status (s : State) (v : Nat) : (s.setLen v).status = s.status := rfl
@[simp] theorem State.setLen_err (s : State) (v : Nat) : (s.setLen v).err = s.err := rfl
@[simp] theorem State.setLen_errInfo (s : State) (v : Nat) : (s.setLen v).errInfo = s.errInfo := rfl
@[simp] theorem State.setLen_len (s : State) (v : Nat) : (s.setLen v).len = v := rfl
@[simp] theorem State.setLen_params (s : State) (v : Nat) : (s.setLen v).params = s.params := rfl
@[simp] theorem State.setLen_out (s : State) (v : Nat) : (s.setLen v).out = s.out := rfl
@[simp] theorem State.setLen_ret (s : State) (v : Nat) : (s.setLen v).ret = s.ret := rfl

@[simp] theorem State.setOut_h (s : State) (v : HostSide) : (s.setOut v).h = s.h := rfl
@[simp] theorem State.setOut_r (s : State) (v : HostSide) : (s.setOut v).r = s.r := rfl
@[simp] theorem State.setOut_p (s : State) (v : HostSide) : (s.setOut v).p = s.p := rfl
@[simp] theorem State.setOut_ser (s : State) (v : HostSide) : (s.setOut v).ser = s.ser := rfl
@[simp] theorem State.setOut_c (s : State) (v : HostSide) : (s.setOut v).c = s.c := rfl
@[simp] theorem State.setOut_status (s : State) (v : HostSide) : (s.setOut v).status = s.status := rfl
@[simp] theorem State.setOut_err (s : State) (v : HostSide) : (s.setOut v).err = s.err := rfl
@[simp] theorem State.setOut_errInfo (s : State) (v : HostSide) : (s.setOut v).errInfo = s.errInfo := rfl
@[simp] theorem State.setOut_len (s : State) (v : HostSide) : (s.setOut v).len = s.len := rfl
@[simp] theorem State.setOut_params (s : State) (v : HostSide) : (s.setOut v).params = s.params := rfl
@[simp] theorem State.setOut_out (s : State) (v : HostSide) : (s.setOut v).out = v := rfl
@[simp] theorem State.setOut_ret (s : State) (v : HostSide) : (s.setOut v).ret = s.ret := rfl

@[simp] theorem State.setRet_h (s : State) (v : Value) : (s.setRet v).h = s.h := rfl
@[simp] theorem State.setRet_r (s : State) (v : Value) : (s.setRet v).r = s.r := rfl
@[simp] theorem State.setRet_p (s : State) (v : Value) : (s.setRet v).p = s.p := rfl
@[simp] theorem State.setRet_ser (s : State) (v : Value) : (s.setRet v).ser = s.ser := rfl
@[simp] theorem State.setRet_c (s : State) (v : Value) : (s.setRet v).c = s.c := rfl
@[simp] theorem State.setRet_status (s : State) (v : Value) : (s.setRet v).status = s.status := rfl
@[simp] theorem State.setRet_err (s : State) (v : Value) : (s.setRet v).err = s.err := rfl
@[simp] theorem State.setRet_errInfo (s : State) (v : Value) : (s.setRet v).errInfo = s.errInfo := rfl
@[simp] theorem State.setRet_len (s : State) (v : Value) : (s.setRet v).len = s.len := rfl
@[simp] theorem State.setRet_params (s : State) (v : Value) : (s.setRet v).params = s.params := rfl
@[simp] theorem State.setRet_out (s : State) (v : Value) : (s.setRet v).out = s.out := rfl
@[simp] theorem State.setRet_ret (s : State) (v : Value) : (s.setRet v).ret = v := rfl

end Sys2Proof.Machine
end

