-- ==== Sys2Proof/Laws/Ops.lean ====
section
/-! SUPPORT. What the shared operations of Machine/Ops.lean do: field lemmas, and one lemma that says once everything a read
can do. -/

namespace Sys2Proof.Machine

/-! ### How a command ends -/

@[simp] theorem endOk_h (v : Value) (s : State) : (endOk v s).h = s.h := rfl
@[simp] theorem endOk_r (v : Value) (s : State) : (endOk v s).r = s.r := rfl
@[simp] theorem endOk_p (v : Value) (s : State) : (endOk v s).p = s.p := rfl
@[simp] theorem endOk_ser (v : Value) (s : State) : (endOk v s).ser = s.ser := rfl
@[simp] theorem endOk_c (v : Value) (s : State) : (endOk v s).c = s.c := rfl
@[simp] theorem endOk_status (v : Value) (s : State) : (endOk v s).status = statusOk := rfl
@[simp] theorem endOk_err (v : Value) (s : State) : (endOk v s).err = 0#8 := rfl
@[simp] theorem endOk_errInfo (v : Value) (s : State) : (endOk v s).errInfo = 0#32 := rfl
@[simp] theorem endOk_len (v : Value) (s : State) : (endOk v s).len = s.len := rfl
@[simp] theorem endOk_params (v : Value) (s : State) : (endOk v s).params = s.params := rfl
@[simp] theorem endOk_ret (v : Value) (s : State) : (endOk v s).ret = s.ret := rfl
@[simp] theorem endOk_out_src (v : Value) (s : State) : (endOk v s).out.src = s.out.src := rfl
@[simp] theorem endOk_out_snk (v : Value) (s : State) : (endOk v s).out.snk = s.out.snk := rfl
@[simp] theorem endOk_out_rsp (v : Value) (s : State) : (endOk v s).out.rsp = some (.ok v) := rfl
@[simp] theorem endOk_out_reg (v : Value) (s : State) : (endOk v s).out.reg = s.out.reg := rfl
@[simp] theorem endOk_out_script (v : Value) (s : State) : (endOk v s).out.script = s.out.script := rfl

@[simp] theorem takeFault_h (w : Agent) (f : FaultRec) (s : State) :
    (takeFault w f s).h = s.h := rfl
@[simp] theorem takeFault_r (w : Agent) (f : FaultRec) (s : State) :
    (takeFault w f s).r = s.r := rfl
@[simp] theorem takeFault_p (w : Agent) (f : FaultRec) (s : State) :
    (takeFault w f s).p = faultParser w s.p := rfl
@[simp] theorem takeFault_ser (w : Agent) (f : FaultRec) (s : State) :
    (takeFault w f s).ser = faultSerializer w s.ser := rfl
@[simp] theorem takeFault_c (w : Agent) (f : FaultRec) (s : State) :
    (takeFault w f s).c = s.c := rfl
@[simp] theorem takeFault_status (w : Agent) (f : FaultRec) (s : State) :
    (takeFault w f s).status = statusFault := rfl
@[simp] theorem takeFault_err (w : Agent) (f : FaultRec) (s : State) :
    (takeFault w f s).err = faultCode f.kind := rfl
@[simp] theorem takeFault_errInfo (w : Agent) (f : FaultRec) (s : State) :
    (takeFault w f s).errInfo = faultInfo f := rfl
@[simp] theorem takeFault_len (w : Agent) (f : FaultRec) (s : State) :
    (takeFault w f s).len = faultLen w s := rfl
@[simp] theorem takeFault_params (w : Agent) (f : FaultRec) (s : State) :
    (takeFault w f s).params = s.params := rfl
@[simp] theorem takeFault_ret (w : Agent) (f : FaultRec) (s : State) :
    (takeFault w f s).ret = s.ret := rfl
@[simp] theorem takeFault_out_src (w : Agent) (f : FaultRec) (s : State) :
    (takeFault w f s).out.src = s.out.src := rfl
@[simp] theorem takeFault_out_snk (w : Agent) (f : FaultRec) (s : State) :
    (takeFault w f s).out.snk = s.out.snk := rfl
@[simp] theorem takeFault_out_rsp (w : Agent) (f : FaultRec) (s : State) :
    (takeFault w f s).out.rsp = some (.fault f) := rfl
@[simp] theorem takeFault_out_reg (w : Agent) (f : FaultRec) (s : State) :
    (takeFault w f s).out.reg = s.out.reg := rfl
@[simp] theorem takeFault_out_script (w : Agent) (f : FaultRec) (s : State) :
    (takeFault w f s).out.script = s.out.script := rfl

@[simp] theorem faultLen_parser (s : State) : faultLen .parser s = s.r.pos := rfl
@[simp] theorem faultLen_serializer (s : State) : faultLen .serializer s = 0 := rfl
@[simp] theorem faultLen_other (s : State) : faultLen .other s = s.len := rfl
@[simp] theorem faultParser_parser (p : Parser) : faultParser .parser p = { p with ph := .idle } := rfl
@[simp] theorem faultParser_serializer (p : Parser) : faultParser .serializer p = p := rfl
@[simp] theorem faultParser_other (p : Parser) : faultParser .other p = p := rfl
@[simp] theorem faultSerializer_parser (x : Serializer) : faultSerializer .parser x = x := rfl
@[simp] theorem faultSerializer_serializer (x : Serializer) :
    faultSerializer .serializer x = { x with ph := .idle } := rfl
@[simp] theorem faultSerializer_other (x : Serializer) : faultSerializer .other x = x := rfl

/-! ### Procedures -/

@[simp] theorem Proc.bind_ret {α β : Type} (v : α) (s : State) (k : α → State → Proc β) :
    (Proc.ret v s).bind k = k v s := rfl

@[simp] theorem Proc.bind_raise {α β : Type} (f : FaultRec) (s : State) (k : α → State → Proc β) :
    (Proc.raise f s : Proc α).bind k = .raise f s := rfl

/-- What a sequence can do: its first part raises, or returns and the second part runs. -/
theorem Proc.bind_cases {α β : Type} (m : Proc α) (k : α → State → Proc β) :
    (∃ f s, m = .raise f s ∧ m.bind k = .raise f s) ∨ (∃ v s, m = .ret v s ∧ m.bind k = k v s) := by
  cases m with
  | ret v s => exact .inr ⟨v, s, rfl, rfl⟩
  | raise f s => exact .inl ⟨f, s, rfl, rfl⟩

@[simp] theorem runProc_ret {α : Type} (v : α) (s : State) (mk : α → Value) :
    runProc (.ret v s) mk = s.setRet (mk v) := rfl

@[simp] theorem runProc_raise {α : Type} (f : FaultRec) (s : State) (mk : α → Value) :
    runProc (.raise f s : Proc α) mk = takeFault .parser f s := rfl

/-! ### The source and the Byte Reader -/

/-- The state after the bytes `d` have been pulled, counted and buffered. -/
def took (d : Bytes) (s : State) : State :=
  { s with
    r := { s.r with buf := s.r.buf ++ d, pos := s.r.pos + d.length }
    out := { s.out with src := srcAfter d.length s } }

/-- The state after a short read: all there was has been pulled and counted, nothing buffered. -/
def drained (s : State) : State :=
  { s with
    r := { s.r with pos := s.r.pos + (avail s).length }
    out := { s.out with src := if s.r.bound then [] else s.out.src } }

@[simp] theorem took_h (d : Bytes) (s : State) : (took d s).h = s.h := rfl
@[simp] theorem took_p (d : Bytes) (s : State) : (took d s).p = s.p := rfl
@[simp] theorem took_ser (d : Bytes) (s : State) : (took d s).ser = s.ser := rfl
@[simp] theorem took_c (d : Bytes) (s : State) : (took d s).c = s.c := rfl
@[simp] theorem took_status (d : Bytes) (s : State) : (took d s).status = s.status := rfl
@[simp] theorem took_err (d : Bytes) (s : State) : (took d s).err = s.err := rfl
@[simp] theorem took_errInfo (d : Bytes) (s : State) : (took d s).errInfo = s.errInfo := rfl
@[simp] theorem took_len (d : Bytes) (s : State) : (took d s).len = s.len := rfl
@[simp] theorem took_params (d : Bytes) (s : State) : (took d s).params = s.params := rfl
@[simp] theorem took_ret (d : Bytes) (s : State) : (took d s).ret = s.ret := rfl
@[simp] theorem took_bound (d : Bytes) (s : State) : (took d s).r.bound = s.r.bound := rfl
@[simp] theorem took_buf (d : Bytes) (s : State) : (took d s).r.buf = s.r.buf ++ d := rfl
@[simp] theorem took_pos (d : Bytes) (s : State) : (took d s).r.pos = s.r.pos + d.length := rfl

/-- Taking moves the available bytes on. -/
@[simp] theorem avail_took (d : Bytes) (s : State) : avail (took d s) = (avail s).drop d.length := by
  cases h : s.r.bound <;> simp [avail, took, srcAfter, h]

/-- What is left after the first bytes have been taken. -/
theorem avail_took_append {d rest : Bytes} {s : State} (h : avail s = d ++ rest) : avail (took d s) = rest := by
  simp [h]

/-- Taking `d` and then `e` is taking `d ++ e`. -/
@[simp] theorem took_took (d e : Bytes) (s : State) : took e (took d s) = took (d ++ e) s := by
  obtain ⟨h, ⟨b, buf, pos⟩, p, ser, c, st, err, info, len, ps, out, ret⟩ := s
  cases b <;> simp [took, srcAfter, Nat.add_assoc]

/-- Taking nothing. -/
@[simp] theorem took_nil (s : State) : took [] s = s := by
  obtain ⟨h, ⟨b, buf, pos⟩, p, ser, c, st, err, info, len, ps, out, ret⟩ := s
  cases b <;> simp [took, srcAfter]

/-- Nothing is left after a short read. -/
@[simp] theorem avail_drained (s : State) : avail (drained s) = [] := by
  cases h : s.r.bound <;> simp [avail, drained, h]

/-- R121: everything a read can do. It returns the next `n` bytes, or is short. -/
theorem brRead_cases (n : Nat) (s : State) :
    (n ≤ (avail s).length ∧ brRead n s = .ret ((avail s).take n) (took ((avail s).take n) s)) ∨
    ((avail s).length < n ∧
      brRead n s = .raise ⟨.unexpectedEndOfStream, countHalf n, countHalf (avail s).length⟩ (drained s)) := by
  by_cases h : (avail s).length < n
  · right
    have e : (avail s).take n = avail s := List.take_of_length_le (le_of_lt h)
    have es : srcAfter n s = if s.r.bound then [] else s.out.src := by
      cases hb : s.r.bound
      · simp [srcAfter, hb]
      · simp only [avail, hb, if_true] at h
        simp [srcAfter, hb, List.drop_of_length_le (le_of_lt h)]
    simp [brRead, e, h, es, drained, State.setOut, State.setR]
  · left
    simp [brRead, took, State.setOut, State.setR, not_lt.mp h]

/-- R121: a read that the source can serve, in the form the parser meets it. -/
theorem brRead_append {d rest : Bytes} {s : State} (h : avail s = d ++ rest) : brRead d.length s = .ret d (took d s) := by
  rcases brRead_cases d.length s with ⟨-, e⟩ | ⟨l, -⟩
  · simpa [h] using e
  · simp [h] at l

/-- R121: a read that the source cannot serve. -/
theorem brRead_short {n : Nat} {s : State} (h : (avail s).length < n) :
    brRead n s = .raise ⟨.unexpectedEndOfStream, countHalf n, countHalf (avail s).length⟩ (drained s) := by
  rcases brRead_cases n s with ⟨l, -⟩ | ⟨-, e⟩
  · omega
  · exact e

/-- R121: what a read that returned has read. -/
theorem brRead_ret {n : Nat} {s s' : State} {d : Bytes} (h : brRead n s = .ret d s') :
    d.length = n ∧ avail s = d ++ avail s' ∧ s' = took d s := by
  rcases brRead_cases n s with ⟨l, e⟩ | ⟨-, e⟩
  · rw [e] at h
    injection h with h1 h2
    subst h1 h2
    simp [l]
  · rw [e] at h
    cases h

/-! ### Reset and binding -/

@[simp] theorem avail_bindSource (b : Bytes) (s : State) : avail (bindSource b s) = b := by
  simp [avail, bindSource]

@[simp] theorem applyReset_params (s : State) : (applyReset s).params = s.params := rfl
@[simp] theorem applyReset_h (s : State) : (applyReset s).h = Header.fresh := rfl
@[simp] theorem applyReset_out_src (s : State) : (applyReset s).out.src = s.out.src := rfl
@[simp] theorem applyReset_out_snk (s : State) : (applyReset s).out.snk = s.out.snk := rfl
@[simp] theorem applyReset_out_script (s : State) : (applyReset s).out.script = s.out.script := rfl

end Sys2Proof.Machine
end

