-- ==== Sys2Proof/Laws/Outcome.lean ====
section
/-! SUPPORT. How `endOk` and `takeFault` meet the outcome predicates of Safety.lean, and the capacity test. -/

namespace Sys2Proof.Machine

/-- R195: `A` is the low half of the information register. -/
@[simp] theorem faultInfo_low (f : FaultRec) : (faultInfo f).extractLsb' 0 16 = f.a := by
  apply BitVec.eq_of_getLsbD_eq
  intro i hi
  have e : (f.b ++ f.a).getLsbD i = f.a.getLsbD i := by rw [BitVec.getLsbD_append]; simp [hi]
  simp only [BitVec.getLsbD_extractLsb', hi, decide_true, Bool.true_and, Nat.zero_add]
  exact e

/-- R195: `B` is the high half of the information register. -/
@[simp] theorem faultInfo_high (f : FaultRec) : (faultInfo f).extractLsb' 16 16 = f.b := by
  apply BitVec.eq_of_getLsbD_eq
  intro i hi
  have e : (f.b ++ f.a).getLsbD (16 + i) = f.b.getLsbD i := by rw [BitVec.getLsbD_append]; simp
  simp only [BitVec.getLsbD_extractLsb', hi, decide_true, Bool.true_and]
  exact e

/-- R200: the ok end. -/
theorem ranOk_endOk (v : Value) (s : State) : (endOk v s).ranOk v := ⟨rfl, rfl, rfl, rfl⟩

/-- R199 (a): the fault entry. -/
theorem ranInto_takeFault (w : Agent) (f : FaultRec) (s : State) : (takeFault w f s).ranInto f (faultCode f.kind) :=
  ⟨rfl, rfl, faultInfo_low f, faultInfo_high f, rfl⟩

/-- The ok end of a command touches nothing but the record. -/
theorem onlyAnswered_endOk (v : Value) (s : State) : s.onlyAnswered (endOk v s) :=
  ⟨rfl, rfl, rfl, rfl, rfl, rfl, rfl, rfl, rfl, rfl, rfl, rfl⟩

/-- R199 (b), (e): a fault of a command that is neither DECODE nor ENCODE touches nothing but the record. -/
theorem onlyAnswered_takeFault (f : FaultRec) (s : State) : s.onlyAnswered (takeFault .other f s) :=
  ⟨rfl, rfl, rfl, rfl, rfl, rfl, rfl, rfl, rfl, rfl, rfl, rfl⟩

/-- A command that ends `ok` and has written `H` alone. -/
theorem unitsKept_setH (v : Value) (h : Header) (s : State) : s.unitsKept (endOk v (s.setH h)) :=
  ⟨rfl, rfl, rfl, rfl, rfl, rfl, rfl, rfl, rfl, rfl⟩

/-- No fault has code 0 (R194). -/
theorem faultCode_ne_zero (k : FaultKind) : faultCode k ≠ 0#8 := by cases k <;> decide

/-- R5: a capacity that is not exceeded. -/
theorem overCap_eq_false {cap : Option Nat} {n : Nat} : overCap cap n = false ↔ ∀ c, cap = some c → n ≤ c := by
  cases cap <;> simp [overCap]

/-- R5: a capacity that is exceeded. -/
theorem overCap_eq_true {cap : Option Nat} {n : Nat} : overCap cap n = true ↔ ∃ c, cap = some c ∧ c < n := by
  cases cap <;> simp [overCap]

end Sys2Proof.Machine
end

