-- ==== Sys2Proof/Laws/Optional.lean ====
section
/-! SUPPORT. What FIELD_NEW and the loop of SET_EXTRA can do (40_header_and_field.md R101, R110). -/

namespace Sys2Proof.Machine

/-- R110: everything FIELD_NEW can do. -/
theorem fieldNew_cases (ids data : Bytes) :
    (∃ i0 i1, ids = [i0, i1] ∧ fieldNew ids data = .ok ⟨i0, i1, data⟩) ∨
    (ids.length ≠ 2 ∧ fieldNew ids data = .error ⟨.invalidFieldIds, saturatedHalf ids.length, 0#16⟩) := by
  rcases ids with _ | ⟨a, _ | ⟨b, _ | ⟨c, l⟩⟩⟩ <;> simp [fieldNew]

/-- R101: pairs that are Fields become those Fields. -/
theorem fieldsNew_rawPairs (fs : List Field) : fieldsNew (rawPairs fs) = .ok fs := by
  induction fs with
  | nil => rfl
  | cons f fs ih =>
    simp only [rawPairs, List.map_cons, fieldsNew, fieldNew] at *
    rw [ih]

/-- R101, R197: Fields before a bad pair do not matter. -/
theorem fieldsNew_append_error (fs : List Field) (p : Bytes × Bytes) (tail : List (Bytes × Bytes)) (e : FaultRec)
    (h : fieldNew p.1 p.2 = .error e) : fieldsNew (rawPairs fs ++ p :: tail) = .error e := by
  induction fs with
  | nil => simp [rawPairs, fieldsNew, h]
  | cons f fs ih =>
    simp only [rawPairs, List.map_cons, fieldsNew, fieldNew, List.cons_append] at *
    rw [ih]

end Sys2Proof.Machine
end

