-- ==== Sys2Proof/Laws/DecodeOp.lean ====
section
/-! SUPPORT. What the procedures of DECODE can do (42_decode.md R130 to R142). In one direction: the bytes of each section are read
back as the section. In the other: what a procedure that returns has read. And in both outcomes: a procedure only pulls. -/

namespace Sys2Proof.Machine

/-! ### Pulling -/

/-- R124, R143: `s'` is `s` after some bytes of the source have been pulled, whatever was buffered. -/
def pullsTo (s s' : State) : Prop :=
  ∃ k buf, k ≤ (avail s).length ∧ avail s' = (avail s).drop k ∧
    s' = { s with r := { s.r with buf := buf, pos := s.r.pos + k }, out := { s.out with src := srcAfter k s } }

theorem pullsTo_took {d : Bytes} {s : State} (h : d.length ≤ (avail s).length) : pullsTo s (took d s) :=
  ⟨d.length, s.r.buf ++ d, h, avail_took d s, rfl⟩

theorem pullsTo_refl (s : State) : pullsTo s s := by
  simpa using pullsTo_took (d := []) (s := s) (by simp)

theorem pullsTo_drained (s : State) : pullsTo s (drained s) := by
  refine ⟨(avail s).length, s.r.buf, by omega, by simp, ?_⟩
  cases h : s.r.bound <;> simp [drained, srcAfter, avail, h]

theorem pullsTo_trans {a b c : State} (h : pullsTo a b) (h' : pullsTo b c) : pullsTo a c := by
  obtain ⟨k, buf, hk, ha, e⟩ := h
  obtain ⟨k', buf', hk', ha', e'⟩ := h'
  refine ⟨k + k', buf', ?_, ?_, ?_⟩
  · rw [ha, List.length_drop] at hk'
    omega
  · rw [ha', ha, List.drop_drop]
  · rw [e', e]
    cases hb : a.r.bound <;> simp [srcAfter, hb, Nat.add_assoc]

/-- The state a procedure ends in, in either outcome. -/
def Proc.final {α : Type} : Proc α → State
  | .ret _ s => s
  | .raise _ s => s

@[simp] theorem Proc.final_ret {α : Type} (v : α) (s : State) : (Proc.ret v s).final = s := rfl
@[simp] theorem Proc.final_raise {α : Type} (f : FaultRec) (s : State) : (Proc.raise f s : Proc α).final = s := rfl

/-- A sequence whose parts only pull only pulls. -/
theorem pullsTo_bind {α β : Type} {s : State} {m : Proc α} {k : α → State → Proc β} (hm : pullsTo s m.final)
    (hk : ∀ v s', m = .ret v s' → pullsTo s' (k v s').final) : pullsTo s (m.bind k).final := by
  cases m with
  | ret v s' => exact pullsTo_trans hm (hk v s' rfl)
  | raise f s' => exact hm

theorem pullsTo_brRead (n : Nat) (s : State) : pullsTo s (brRead n s).final := by
  rcases brRead_cases n s with ⟨-, e⟩ | ⟨-, e⟩ <;> rw [e]
  · exact pullsTo_took (by simp)
  · exact pullsTo_drained s

/-- What a sequence that returned has done. -/
theorem Proc.bind_ret_inv {α β : Type} {m : Proc α} {k : α → State → Proc β} {v : β} {s' : State}
    (h : m.bind k = .ret v s') : ∃ a s1, m = .ret a s1 ∧ k a s1 = .ret v s' := by
  cases m with
  | ret a s1 => exact ⟨a, s1, rfl, h⟩
  | raise f s1 => cases h

/-! ### PARSE_EXTRA -/

theorem pullsTo_subfields (fuel rem : Nat) (acc : List Field) (s : State) :
    pullsTo s (subfields fuel rem acc s).final := by
  induction fuel generalizing rem acc s with
  | zero => exact pullsTo_refl s
  | succ fuel ih =>
    unfold subfields
    split
    · exact pullsTo_refl s
    split
    · exact pullsTo_refl s
    refine pullsTo_bind (pullsTo_brRead 2 s) fun ids s1 _ => ?_
    refine pullsTo_bind (pullsTo_brRead 2 s1) fun q s2 _ => ?_
    dsimp only
    split
    · exact pullsTo_refl s2
    refine pullsTo_bind (pullsTo_brRead _ s2) fun data s3 _ => ?_
    split
    · exact ih _ _ s3
    · exact pullsTo_refl s3

/-- R139: the loop reads encoded Fields back. -/
theorem subfields_append (fs acc : List Field) (rest : Bytes) (fuel : Nat) (s : State) (hf : extraLen fs ≤ fuel)
    (hl : ∀ f ∈ fs, f.data.length ≤ 65535) (h : avail s = extraBody fs ++ rest) :
    subfields fuel (extraLen fs) acc s = .ret (acc ++ fs) (took (extraBody fs) s) := by
  induction fs generalizing acc fuel s with
  | nil => cases fuel <;> simp [subfields]
  | cons f fs ih =>
    have hlen : extraLen (f :: fs) = 4 + f.data.length + extraLen fs := by simp [fieldLen]
    obtain ⟨k, rfl⟩ : ∃ k, fuel = k + 1 := ⟨fuel - 1, by omega⟩
    have hd : f.data.length ≤ 65535 := hl f (by simp)
    have e0 : avail s = fieldIds f ++ (le16 (lenHalf f.data.length) ++ (f.data ++ (extraBody fs ++ rest))) := by
      rw [h]; simp [fieldEnc]
    have e1 := avail_took_append e0
    have e2 := avail_took_append e1
    have r1 : brRead 2 s = _ := brRead_append e0
    have r2 : brRead 2 (took (fieldIds f) s) = _ := brRead_append e1
    have r3 := brRead_append e2
    have hs : (u16 (le16 (lenHalf f.data.length))).toNat = f.data.length := by rw [u16_le16, lenHalf_toNat hd]
    have ef : fieldNew (fieldIds f) f.data = .ok f := rfl
    unfold subfields
    rw [if_neg (by omega), if_neg (by omega), r1, Proc.bind_ret, r2, Proc.bind_ret]
    dsimp only
    rw [hs, if_neg (by omega), r3, Proc.bind_ret, ef]
    dsimp only
    rw [show extraLen (f :: fs) - (4 + f.data.length) = extraLen fs by omega,
      ih (acc ++ [f]) k _ (by omega) (fun g hg => hl g (by simp [hg])) (avail_took_append e2)]
    simp [fieldEnc]

/-- R139: what the loop has read when it returns: encoded Fields that fill `rem` exactly. -/
theorem subfields_ret {fuel rem : Nat} {acc fs : List Field} {s s' : State} (hf : rem ≤ fuel)
    (h : subfields fuel rem acc s = .ret fs s') :
    ∃ gs, fs = acc ++ gs ∧ extraLen gs = rem ∧ (∀ f ∈ gs, f.data.length ≤ 65535) ∧
      avail s = extraBody gs ++ avail s' ∧ s' = took (extraBody gs) s := by
  induction fuel generalizing rem acc s with
  | zero =>
    simp only [subfields, Proc.ret.injEq] at h
    obtain ⟨rfl, rfl⟩ := h
    exact ⟨[], by simp, by simp; omega, by simp, by simp, by simp⟩
  | succ fuel ih =>
    unfold subfields at h
    split at h
    · simp only [Proc.ret.injEq] at h
      obtain ⟨rfl, rfl⟩ := h
      exact ⟨[], by simp, by simp; omega, by simp, by simp, by simp⟩
    split at h
    · cases h
    obtain ⟨ids, s1, h1, h⟩ := Proc.bind_ret_inv h
    obtain ⟨q, s2, h2, h⟩ := Proc.bind_ret_inv h
    dsimp only at h
    split at h
    · cases h
    obtain ⟨data, s3, h3, h⟩ := Proc.bind_ret_inv h
    obtain ⟨l1, a1, rfl⟩ := brRead_ret h1
    obtain ⟨l2, a2, rfl⟩ := brRead_ret h2
    obtain ⟨l3, a3, rfl⟩ := brRead_ret h3
    obtain ⟨i0, i1, rfl⟩ := two_of_length l1
    obtain ⟨q0, q1, rfl⟩ := two_of_length l2
    simp only [fieldNew] at h
    have hb := (u16 [q0, q1]).isLt
    obtain ⟨gs, rfl, hr, hl, ha, hs⟩ := ih (by omega) h
    have ef : fieldEnc ⟨i0, i1, data⟩ = [i0, i1] ++ [q0, q1] ++ data := by simp [fieldEnc, fieldIds, l3]
    refine ⟨⟨i0, i1, data⟩ :: gs, by simp, ?_, ?_, ?_, ?_⟩
    · simp only [extraLen_cons, fieldLen, hr]
      omega
    · simp only [List.mem_cons, forall_eq_or_imp]
      exact ⟨by omega, hl⟩
    · rw [a1, a2, a3, ha]
      simp [ef]
    · rw [hs]
      simp [ef]

theorem pullsTo_parseExtra (s : State) : pullsTo s (parseExtra s).final := by
  refine pullsTo_bind (pullsTo_brRead 2 s) fun l s1 _ => ?_
  dsimp only
  split
  · exact pullsTo_refl s1
  · exact pullsTo_subfields _ _ _ s1

/-- R64: the bytes of an XSEC section. -/
def xsecBytes (fs : List Field) : Bytes := le16 (lenHalf (extraLen fs)) ++ extraBody fs

/-- R139: PARSE_EXTRA reads a section back. -/
theorem parseExtra_append {fs : List Field} {rest : Bytes} {s : State} (hx : extraLen fs ≤ 65535)
    (hc : overCap s.params.extraCap (extraLen fs) = false) (h : avail s = xsecBytes fs ++ rest) :
    parseExtra s = .ret fs (took (xsecBytes fs) s) := by
  rw [xsecBytes, List.append_assoc] at h
  have r1 : brRead 2 s = _ := brRead_append h
  have hs : (u16 (le16 (lenHalf (extraLen fs)))).toNat = extraLen fs := by rw [u16_le16, lenHalf_toNat hx]
  have hl : ∀ f ∈ fs, f.data.length ≤ 65535 := fun f hf => by
    have : fieldLen f ≤ extraLen fs := List.single_le_sum (by simp) _ (List.mem_map_of_mem hf)
    have : fieldLen f = 4 + f.data.length := rfl
    omega
  unfold parseExtra
  rw [r1, Proc.bind_ret]
  dsimp only
  rw [hs, if_neg (by simp [hc]), subfields_append fs [] rest _ _ le_rfl hl (avail_took_append h)]
  simp [xsecBytes]

/-- R139: what PARSE_EXTRA has read when it returns. -/
theorem parseExtra_ret {fs : List Field} {s s' : State} (h : parseExtra s = .ret fs s') :
    extraLen fs ≤ 65535 ∧ (∀ f ∈ fs, f.data.length ≤ 65535) ∧ overCap s.params.extraCap (extraLen fs) = false ∧
      avail s = xsecBytes fs ++ avail s' ∧ s' = took (xsecBytes fs) s := by
  unfold parseExtra at h
  obtain ⟨l, s1, h1, h⟩ := Proc.bind_ret_inv h
  dsimp only at h
  split at h
  · cases h
  rename_i hc
  obtain ⟨l1, a1, rfl⟩ := brRead_ret h1
  obtain ⟨q0, q1, rfl⟩ := two_of_length l1
  obtain ⟨gs, rfl, hr, hl, ha, hs⟩ := subfields_ret le_rfl h
  have hb := (u16 [q0, q1]).isLt
  have ex : le16 (lenHalf (extraLen fs)) = [q0, q1] := by rw [hr, lenHalf_of_toNat, le16_u16]
  refine ⟨by omega, hl, ?_, ?_, ?_⟩
  · rw [hr]
    simpa using hc
  · rw [a1, ha]
    simp [xsecBytes, ex]
  · rw [hs]
    simp [xsecBytes, ex]

/-! ### PARSE_ZSTR -/

theorem pullsTo_zstrLoop (cap : Option Nat) (sec : Half) (fuel : Nat) (acc : Bytes) (s : State) :
    pullsTo s (zstrLoop cap sec fuel acc s).final := by
  induction fuel generalizing acc s with
  | zero => exact pullsTo_refl s
  | succ fuel ih =>
    unfold zstrLoop
    refine pullsTo_bind (pullsTo_brRead 1 s) fun d s1 _ => ?_
    dsimp only
    split
    · exact pullsTo_refl s1
    split
    · exact pullsTo_refl s1
    · exact ih _ s1

/-- R141: the loop reads a string back. -/
theorem zstrLoop_append (cap : Option Nat) (sec : Half) (text acc rest : Bytes) (fuel : Nat) (s : State)
    (hf : text.length < fuel) (hz : 0#8 ∉ text) (hc : overCap cap (acc.length + text.length) = false)
    (h : avail s = zstrBytes text ++ rest) :
    zstrLoop cap sec fuel acc s = .ret (acc ++ text) (took (zstrBytes text) s) := by
  induction text generalizing acc fuel s with
  | nil =>
    obtain ⟨k, rfl⟩ : ∃ k, fuel = k + 1 := ⟨fuel - 1, by omega⟩
    have r1 : brRead 1 s = _ := brRead_append (d := [0#8]) h
    unfold zstrLoop
    rw [r1, Proc.bind_ret]
    simp [byteAt, zstrBytes]
  | cons b text ih =>
    simp only [List.length_cons] at hf hc
    simp only [List.mem_cons, not_or] at hz
    obtain ⟨k, rfl⟩ : ∃ k, fuel = k + 1 := ⟨fuel - 1, by omega⟩
    have e0 : avail s = [b] ++ (zstrBytes text ++ rest) := by rw [h]; simp [zstrBytes]
    have r1 : brRead 1 s = _ := brRead_append e0
    have hcap : cap ≠ some acc.length := by
      rintro rfl
      simp [overCap] at hc
    unfold zstrLoop
    rw [r1, Proc.bind_ret]
    simp only [byteAt, List.getD_cons_zero]
    rw [if_neg (Ne.symm hz.1), if_neg hcap,
      ih (acc ++ [b]) k _ (by omega) hz.2 (by simpa [Nat.add_assoc, Nat.add_comm 1] using hc) (avail_took_append e0)]
    simp [zstrBytes]

/-- R5: room for one byte more. -/
theorem overCap_succ {cap : Option Nat} {n : Nat} (h : overCap cap n = false) (hn : cap ≠ some n) :
    overCap cap (n + 1) = false := by
  rcases cap with _ | c
  · rfl
  · simp only [overCap, decide_eq_false_iff_not, not_lt, ne_eq, Option.some.injEq] at *
    omega

/-- R5: nothing is above no capacity at all. -/
@[simp] theorem overCap_zero (cap : Option Nat) : overCap cap 0 = false := by cases cap <;> simp [overCap]

/-- R141: what the loop has read when it returns. -/
theorem zstrLoop_ret {cap : Option Nat} {sec : Half} {fuel : Nat} {acc text : Bytes} {s s' : State}
    (hc : overCap cap acc.length = false) (h : zstrLoop cap sec fuel acc s = .ret text s') :
    ∃ more, text = acc ++ more ∧ 0#8 ∉ more ∧ overCap cap text.length = false ∧
      avail s = zstrBytes more ++ avail s' ∧ s' = took (zstrBytes more) s := by
  induction fuel generalizing acc s with
  | zero => cases h
  | succ fuel ih =>
    unfold zstrLoop at h
    obtain ⟨d, s1, h1, h⟩ := Proc.bind_ret_inv h
    obtain ⟨l1, a1, rfl⟩ := brRead_ret h1
    obtain ⟨b, rfl⟩ := List.length_eq_one_iff.mp l1
    simp only [byteAt, List.getD_cons_zero] at h
    split at h
    · subst b
      simp only [Proc.ret.injEq] at h
      obtain ⟨rfl, rfl⟩ := h
      exact ⟨[], by simp, by simp, hc, a1, rfl⟩
    rename_i hb
    split at h
    · cases h
    rename_i hn
    obtain ⟨more, rfl, hz, hm, ha, hs⟩ := ih (by simpa using overCap_succ hc hn) h
    refine ⟨b :: more, by simp, by simp [hz, Ne.symm hb], hm, ?_, ?_⟩
    · rw [a1, ha]
      simp [zstrBytes]
    · rw [hs]
      simp [zstrBytes]

/-- R141: text without a zero byte, with no capacity, ends in the read that finds the source at its end. -/
theorem zstrLoop_unterminated (sec : Half) (text acc : Bytes) (fuel : Nat) (s : State) (hf : text.length < fuel)
    (hz : 0#8 ∉ text) (ha : avail s = text) :
    zstrLoop none sec fuel acc s = .raise ⟨.unexpectedEndOfStream, 1#16, 0#16⟩ (drained (took text s)) := by
  induction text generalizing acc fuel s with
  | nil =>
    obtain ⟨k, rfl⟩ : ∃ k, fuel = k + 1 := ⟨fuel - 1, by omega⟩
    rw [zstrLoop, brRead_short (by rw [ha]; simp), ha, Proc.bind_raise]
    simp [countHalf]
  | cons b t ih =>
    obtain ⟨k, rfl⟩ : ∃ k, fuel = k + 1 := ⟨fuel - 1, by omega⟩
    simp only [List.length_cons] at hf
    simp only [List.mem_cons, not_or] at hz
    have e0 : avail s = [b] ++ t := ha
    have r1 : brRead 1 s = _ := brRead_append e0
    rw [zstrLoop, r1, Proc.bind_ret]
    simp only [byteAt, List.getD_cons_zero]
    rw [if_neg (Ne.symm hz.1), if_neg (by simp), ih _ _ _ (by omega) hz.2 (avail_took_append e0)]
    simp

/-- R141, R192: the byte that does not fit a capacity is read, and ends the loop. -/
theorem zstrLoop_capped (c : Nat) (sec : Half) (text acc rest : Bytes) (fuel : Nat) (s : State)
    (hf : text.length ≤ fuel) (hz : 0#8 ∉ text) (hc : acc.length + text.length = c + 1) (hc' : acc.length ≤ c)
    (ha : avail s = text ++ rest) : zstrLoop (some c) sec fuel acc s = .raise (capFault sec) (took text s) := by
  induction text generalizing acc fuel s with
  | nil =>
    simp only [List.length_nil] at hc
    omega
  | cons b t ih =>
    simp only [List.length_cons] at hf hc
    obtain ⟨k, rfl⟩ : ∃ k, fuel = k + 1 := ⟨fuel - 1, by omega⟩
    simp only [List.mem_cons, not_or] at hz
    have e0 : avail s = [b] ++ (t ++ rest) := ha
    have r1 : brRead 1 s = _ := brRead_append e0
    rw [zstrLoop, r1, Proc.bind_ret]
    simp only [byteAt, List.getD_cons_zero]
    rw [if_neg (Ne.symm hz.1)]
    by_cases h : c = acc.length
    · rw [if_pos (by simp [h])]
      have ht : t = [] := by
        apply List.eq_nil_of_length_eq_zero
        omega
      subst ht
      rfl
    · rw [if_neg (by simpa using h),
        ih _ _ _ (by omega) hz.2 (by simp; omega) (by simp; omega) (avail_took_append e0)]
      simp

theorem pullsTo_parseZstr (sec : StrSection) (s : State) : pullsTo s (parseZstr sec s).final :=
  pullsTo_zstrLoop _ _ _ _ s

/-- R141: PARSE_ZSTR reads a string back. -/
theorem parseZstr_append {sec : StrSection} {text rest : Bytes} {s : State} (hz : 0#8 ∉ text)
    (hc : overCap (strCap sec s.params) text.length = false) (h : avail s = zstrBytes text ++ rest) :
    parseZstr sec s = .ret text (took (zstrBytes text) s) := by
  have := zstrLoop_append (strCap sec s.params) (strCode sec) text [] rest ((avail s).length + 1) s
    (by rw [h]; simp; omega) hz (by simpa using hc) h
  simpa [parseZstr] using this

/-- R141: what PARSE_ZSTR has read when it returns. -/
theorem parseZstr_ret {sec : StrSection} {text : Bytes} {s s' : State} (h : parseZstr sec s = .ret text s') :
    0#8 ∉ text ∧ overCap (strCap sec s.params) text.length = false ∧ avail s = zstrBytes text ++ avail s' ∧
      s' = took (zstrBytes text) s := by
  obtain ⟨more, rfl, r⟩ := zstrLoop_ret (by simp) h
  simpa using r

end Sys2Proof.Machine
end

