-- ==== Sys2Proof/Laws/EncodeOp.lean ====
section
/-! SUPPORT. The emitted bytes of a Header (43_encode.md R160 to R168) and everything ENCODE can do. -/

namespace Sys2Proof.Machine

/-- R55: the transactions of SNK carry the bytes, in order. -/
@[simp] theorem sinkBytes_map_byte (bs : Bytes) : (sinkBytes bs).map (fun x => x.byte) = bs := by
  induction bs with
  | nil => rfl
  | cons b more ih => simp [sinkBytes, ih]

@[simp] theorem sinkBytes_length (bs : Bytes) : (sinkBytes bs).length = bs.length := by
  induction bs with
  | nil => rfl
  | cons b more ih => simp [sinkBytes, ih]

/-- R55: the mark stands on the final byte and on no other. -/
theorem sinkBytes_last {bs : Bytes} {i : Nat} {x : SinkByte} (h : (sinkBytes bs)[i]? = some x) :
    x.last = true ↔ i + 1 = bs.length := by
  induction bs generalizing i with
  | nil => simp [sinkBytes] at h
  | cons b more ih =>
    cases i with
    | zero =>
      simp only [sinkBytes, List.getElem?_cons_zero, Option.some.injEq] at h
      subst h
      cases more <;> simp
    | succ i =>
      simp only [sinkBytes, List.getElem?_cons_succ] at h
      simp [ih h]

/-- R160 step 0, R167: the overflow test as a statement about the Fields. -/
theorem encodeOverflows_eq_false {h : Header} :
    encodeOverflows h = false ↔ ∀ fs, h.extra = some fs → (∀ f ∈ fs, f.data.length ≤ 65535) ∧ extraLen fs ≤ 65535 := by
  cases e : h.extra with
  | none => simp [encodeOverflows, e]
  | some fs => simp [encodeOverflows, e]

/-- R160: everything ENCODE can do at the operation level: EncodeOverflow with nothing delivered, or the whole output. -/
theorem encodeWhole_cases (s : State) :
    (encodeOverflows s.h = true ∧
      encodeWhole s = takeFault .serializer overflowFault (s.setSer { s.ser with out := [] })) ∨
    (encodeOverflows s.h = false ∧
      encodeWhole s = endOk (.bytes (headerBytes s.h))
        { s with
          ser := { s.ser with out := headerBytes s.h }
          c := if fhcrcSet s.h.flg then crcFold crcInit (plainBytes s.h) else s.c
          len := (headerBytes s.h).length
          out := { s.out with snk := s.out.snk ++ sinkBytes (headerBytes s.h) } }) := by
  cases e : encodeOverflows s.h
  · right
    refine ⟨rfl, ?_⟩
    cases hf : fhcrcSet s.h.flg <;>
      simp [encodeWhole, e, deliver, crcOfPlain, hf, crcRun, State.setSer, State.setOut, State.setLen, State.setC]
  · left
    exact ⟨rfl, by simp [encodeWhole, e]⟩

/-- R165, R180: a Header without FHCRC is emitted as the bytes the checksum would cover. -/
theorem headerBytes_noHcrc {h : Header} (hf : fhcrcSet h.flg = false) : headerBytes h = plainBytes h := by
  simp [headerBytes, hf]

/-- R165, R180: a Header with FHCRC is followed by the checksum of the bytes before it. -/
theorem headerBytes_hcrc {h : Header} (hf : fhcrcSet h.flg = true) :
    headerBytes h = plainBytes h ++ le16 (crc16Of (plainBytes h)) := by simp [headerBytes, hf]

/-- R70: the length of the output. -/
theorem headerBytes_length (h : Header) :
    (headerBytes h).length = 10 + (match h.extra with | none => 0 | some fs => 2 + extraLen fs) +
      (match h.name with | none => 0 | some text => text.length + 1) +
      (match h.comment with | none => 0 | some text => text.length + 1) + (if fhcrcSet h.flg then 2 else 0) := by
  cases hf : fhcrcSet h.flg <;> rcases he : h.extra with _ | fs <;> rcases hn : h.name with _ | n <;>
    rcases hc : h.comment with _ | c <;>
    simp [headerBytes, plainBytes, fixedOf, xlenOf, bodyOf, stringOf, hf, he, hn, hc] <;> omega

/-- R20, R70: with flags that agree, the length is the formula's. -/
theorem headerBytes_length_wire {h : Header} (ha : h.flagsAgree = true) : (headerBytes h).length = h.wireLength := by
  simp only [Header.flagsAgree, Bool.and_eq_true, beq_iff_eq] at ha
  obtain ⟨⟨h1, h2⟩, h3⟩ := ha
  rw [headerBytes_length, Header.wireLength, h1, h2, h3]
  rcases h.extra with _ | fs <;> rcases h.name with _ | n <;> rcases h.comment with _ | c <;> simp

end Sys2Proof.Machine
end

