-- ==== Sys2Proof/Laws/DecodeRun.lean ====
section
/-! SUPPORT. What steps 1 to 6 of DECODE can do (42_decode.md R130 to R142): they read the emitted bytes of a valid Header back as
that Header, and when they return they have read the emitted bytes of the Header they return. -/

namespace Sys2Proof.Machine

@[simp] theorem avail_brOpen (s : State) : avail (brOpen s) = avail s := rfl
@[simp] theorem brOpen_params (s : State) : (brOpen s).params = s.params := rfl
@[simp] theorem brOpen_buf (s : State) : (brOpen s).r.buf = [] := rfl
@[simp] theorem brOpen_pos (s : State) : (brOpen s).r.pos = 0 := rfl
@[simp] theorem crcRun_params (bs : Bytes) (s : State) : (crcRun bs s).params = s.params := rfl
@[simp] theorem crcRun_r (bs : Bytes) (s : State) : (crcRun bs s).r = s.r := rfl
@[simp] theorem avail_crcRun (bs : Bytes) (s : State) : avail (crcRun bs s) = avail s := rfl

/-- Reading does not touch `C`. -/
theorem took_setC (d : Bytes) (c : Word32) (s : State) : took d (s.setC c) = (took d s).setC c := rfl

/-! ### The fixed part and the optional sections -/

/-- R131, R132: the fixed part is read back, its stores null. -/
theorem parseFixed_append {cm flg xfl os : Byte} {m : Word32} {rest : Bytes} {s : State}
    (h : avail s = fixedBytes cm flg m xfl os ++ rest) :
    parseFixed s = .ret (fixedHeader cm flg m xfl os) (took (fixedBytes cm flg m xfl os) s) := by
  have e0 : avail s = magic ++ (([cm, flg] ++ le32 m ++ [xfl, os]) ++ rest) := by rw [h]; simp [fixedBytes]
  have r1 : brRead 2 s = _ := brRead_append e0
  have r2 : brRead 8 (took magic s) = _ := brRead_append (avail_took_append e0)
  have em : u32 [BitVec.extractLsb' 0 8 m, BitVec.extractLsb' 8 8 m, BitVec.extractLsb' 16 8 m, BitVec.extractLsb' 24 8 m] = m :=
    u32_le32 m
  unfold parseFixed
  rw [r1, Proc.bind_ret, if_pos rfl, r2, Proc.bind_ret]
  simp [byteAt, le32, em, fixedBytes]

/-- R131, R132: the fixed part, from its ten bytes written out. -/
theorem parseFixed_bytes {cm flg t0 t1 t2 t3 xfl os : Byte} {more : Bytes} {s : State}
    (h : avail s = [0x1f#8, 0x8b#8, cm, flg, t0, t1, t2, t3, xfl, os] ++ more) :
    parseFixed s = .ret (fixedHeader cm flg (u32 [t0, t1, t2, t3]) xfl os)
      (took [0x1f#8, 0x8b#8, cm, flg, t0, t1, t2, t3, xfl, os] s) := by
  have e : fixedBytes cm flg (u32 [t0, t1, t2, t3]) xfl os =
      [0x1f#8, 0x8b#8, cm, flg, t0, t1, t2, t3, xfl, os] := by simp [fixedBytes, magic]
  rw [← e] at h ⊢
  exact parseFixed_append h

/-- R131, R132: what the fixed part has read when it returns. -/
theorem parseFixed_ret {w : Header} {s s' : State} (h : parseFixed s = .ret w s') :
    ∃ cm flg m xfl os, w = fixedHeader cm flg m xfl os ∧ avail s = fixedBytes cm flg m xfl os ++ avail s' ∧
      s' = took (fixedBytes cm flg m xfl os) s := by
  unfold parseFixed at h
  obtain ⟨d, s1, h1, h⟩ := Proc.bind_ret_inv h
  obtain ⟨l1, a1, rfl⟩ := brRead_ret h1
  split at h
  · subst d
    obtain ⟨f, s2, h2, h⟩ := Proc.bind_ret_inv h
    obtain ⟨l2, a2, rfl⟩ := brRead_ret h2
    obtain ⟨cm, flg, t0, t1, t2, t3, xfl, os, rfl⟩ := eight_of_length l2
    simp only [Proc.ret.injEq] at h
    obtain ⟨rfl, rfl⟩ := h
    refine ⟨cm, flg, u32 [t0, t1, t2, t3], xfl, os, rfl, ?_, ?_⟩
    · rw [a1, a2]
      simp [fixedBytes]
    · simp [fixedBytes]
  · cases h

theorem pullsTo_parseFixed (s : State) : pullsTo s (parseFixed s).final := by
  refine pullsTo_bind (pullsTo_brRead 2 s) fun d s1 _ => ?_
  split
  · exact pullsTo_bind (pullsTo_brRead 8 s1) fun f s2 _ => pullsTo_refl s2
  · exact pullsTo_refl s1

/-- R133 to R135: a section that is not selected is not read. -/
@[simp] theorem optionally_false {α : Type} (m : State → Proc α) (s : State) : optionally false m s = .ret none s := rfl

/-- R133 to R135: a section that is selected. -/
theorem optionally_ret {α : Type} {m : State → Proc α} {s s' : State} {v : α} (h : m s = .ret v s') :
    optionally true m s = .ret (some v) s' := by simp [optionally, h]

/-- R133 to R135: what an optional section has done when it returns. -/
theorem optionally_ret_inv {α : Type} {b : Bool} {m : State → Proc α} {s s' : State} {v : Option α}
    (h : optionally b m s = .ret v s') : (b = false ∧ v = none ∧ s' = s) ∨ (b = true ∧ ∃ a, v = some a ∧ m s = .ret a s') := by
  cases b
  · simp only [optionally_false, Proc.ret.injEq] at h
    exact .inl ⟨rfl, h.1.symm, h.2.symm⟩
  · obtain ⟨a, s1, h1, h2⟩ := Proc.bind_ret_inv (m := m s) h
    simp only [Proc.ret.injEq] at h2
    exact .inr ⟨rfl, a, h2.1.symm, h2.2 ▸ h1⟩

theorem pullsTo_optionally {α : Type} (b : Bool) (m : State → Proc α) (s : State) (hm : pullsTo s (m s).final) :
    pullsTo s (optionally b m s).final := by
  cases b
  · exact pullsTo_refl s
  · exact pullsTo_bind hm fun v s1 _ => pullsTo_refl s1

/-! ### The whole run -/

/-- R64, R162: the bytes of the FEXTRA section, when there is one. -/
def optXsec (extra : Option (List Field)) : Bytes :=
  match extra with
  | none => []
  | some fs => xsecBytes fs

/-- R162: step 2 of ENCODE emits them. -/
theorem xlenOf_append_bodyOf (h : Header) : xlenOf h ++ bodyOf h = optXsec h.extra := by
  rcases e : h.extra with _ | fs <;> simp [xlenOf, bodyOf, e, optXsec, xsecBytes]

/-- R24: what validity says of the flags. -/
theorem valid_flags {h : Header} (hv : h.valid = true) :
    fextraSet h.flg = h.extra.isSome ∧ fnameSet h.flg = h.name.isSome ∧ fcommentSet h.flg = h.comment.isSome := by
  simp only [Header.valid, Header.flagsAgree, Bool.and_eq_true, beq_iff_eq] at hv
  exact ⟨hv.1.1.1.1.1, hv.1.1.1.1.2, hv.1.1.1.2⟩

/-- R24 (c), (d): what validity says of the Fields. -/
theorem valid_extra {h : Header} {fs : List Field} (hv : h.valid = true) (e : h.extra = some fs) :
    (∀ f ∈ fs, f.data.length ≤ 65535) ∧ extraLen fs ≤ 65535 := by
  simp only [Header.valid, e, lengthsFit, Bool.and_eq_true, List.all_eq_true, decide_eq_true_eq] at hv
  exact hv.2

/-- R24 (b): what validity says of the filename. -/
theorem valid_name {h : Header} {text : Bytes} (hv : h.valid = true) (e : h.name = some text) : 0#8 ∉ text := by
  simp only [Header.valid, e, zeroFree, Bool.and_eq_true, Bool.not_eq_true', List.contains_eq_mem,
    decide_eq_false_iff_not] at hv
  exact hv.1.1.2

/-- R24 (b): what validity says of the comment. -/
theorem valid_comment {h : Header} {text : Bytes} (hv : h.valid = true) (e : h.comment = some text) : 0#8 ∉ text := by
  simp only [Header.valid, e, zeroFree, Bool.and_eq_true, Bool.not_eq_true', List.contains_eq_mem,
    decide_eq_false_iff_not] at hv
  exact hv.1.2

/-- R24: a valid Header encodes. -/
theorem valid_encodes {h : Header} (hv : h.valid = true) : encodeOverflows h = false :=
  encodeOverflows_eq_false.mpr fun _ e => valid_extra hv e

/-- R5: what the capacities say, store by store. -/
theorem withinCaps_iff {h : Header} {ps : Params} : h.withinCaps ps = true ↔
    overCap ps.extraCap (extraLen (h.extra.getD [])) = false ∧ overCap ps.nameCap (h.name.getD []).length = false ∧
      overCap ps.commentCap (h.comment.getD []).length = false := by
  simp [Header.withinCaps, and_assoc]

/-- R131 to R135: on the bytes of a valid Header that the capacities admit, steps 1 to 5 return it; step 6 is left to do. -/
theorem decodeRun_append {h : Header} {rest : Bytes} {s : State} (hv : h.valid = true)
    (hc : h.withinCaps s.params = true) (ha : avail s = plainBytes h ++ rest) :
    decodeRun s = (optionally (fhcrcSet h.flg) checkHcrc (took (plainBytes h) (brOpen s))).bind fun _ s6 => .ret h s6 := by
  obtain ⟨f1, f2, f3⟩ := valid_flags hv
  obtain ⟨c1, c2, c3⟩ := withinCaps_iff.mp hc
  have e0 : avail (brOpen s) = fixedOf h ++ ((xlenOf h ++ bodyOf h) ++ (stringOf h.name ++ (stringOf h.comment ++ rest))) := by
    rw [avail_brOpen, ha]; simp [plainBytes]
  have e1 := avail_took_append e0
  have e2 := avail_took_append e1
  have e3 := avail_took_append e2
  have p1 : optionally (fextraSet h.flg) parseExtra (took (fixedOf h) (brOpen s)) =
      .ret h.extra (took (xlenOf h ++ bodyOf h) (took (fixedOf h) (brOpen s))) := by
    rw [xlenOf_append_bodyOf, f1]
    rw [xlenOf_append_bodyOf] at e1
    rcases e : h.extra with _ | fs
    · simp [optXsec]
    · rw [e] at e1 c1
      exact optionally_ret (parseExtra_append (valid_extra hv e).2 c1 e1)
  have p2 : optionally (fnameSet h.flg) (parseZstr .name) (took (xlenOf h ++ bodyOf h) (took (fixedOf h) (brOpen s))) =
      .ret h.name (took (stringOf h.name) (took (xlenOf h ++ bodyOf h) (took (fixedOf h) (brOpen s)))) := by
    rw [f2]
    rcases e : h.name with _ | text
    · simp [stringOf]
    · rw [e] at e2 c2
      exact optionally_ret (parseZstr_append (valid_name hv e) c2 e2)
  have p3 : optionally (fcommentSet h.flg) (parseZstr .comment)
      (took (stringOf h.name) (took (xlenOf h ++ bodyOf h) (took (fixedOf h) (brOpen s)))) =
      .ret h.comment (took (stringOf h.comment) (took (stringOf h.name) (took (xlenOf h ++ bodyOf h) (took (fixedOf h) (brOpen s))))) := by
    rw [f3]
    rcases e : h.comment with _ | text
    · simp [stringOf]
    · rw [e] at e3 c3
      exact optionally_ret (parseZstr_append (valid_comment hv e) c3 e3)
  unfold decodeRun
  rw [parseFixed_append e0, Proc.bind_ret]
  simp only [fixedHeader]
  change (optionally (fextraSet h.flg) parseExtra (took (fixedOf h) (brOpen s))).bind _ = _
  rw [p1, Proc.bind_ret, p2, Proc.bind_ret, p3, Proc.bind_ret]
  simp [plainBytes]

/-- R136: step 6, with the snapshot written out. -/
theorem checkHcrc_eq (s : State) : checkHcrc s = (brRead 2 (crcRun s.r.buf s)).bind fun q s1 =>
    if u16 q = crc16Of s.r.buf then .ret () s1 else .raise ⟨.checksumMismatch, crc16Of s.r.buf, u16 q⟩ s1 := rfl

/-- R136: step 6, when the two stored bytes are there. -/
theorem checkHcrc_append {q : Half} {rest : Bytes} {s : State} (h : avail s = le16 q ++ rest) :
    checkHcrc s = if q = crc16Of s.r.buf then .ret () (took (le16 q) (crcRun s.r.buf s))
      else .raise ⟨.checksumMismatch, crc16Of s.r.buf, q⟩ (took (le16 q) (crcRun s.r.buf s)) := by
  have r1 : brRead 2 (crcRun s.r.buf s) = _ := brRead_append (s := crcRun s.r.buf s) h
  rw [checkHcrc_eq, r1, Proc.bind_ret, u16_le16]

/-- R136, R197: step 6, when the source ends before them: the checksum does not matter. -/
theorem checkHcrc_short {s : State} (h : (avail s).length < 2) :
    checkHcrc s = .raise ⟨.unexpectedEndOfStream, countHalf 2, countHalf (avail s).length⟩ (drained (crcRun s.r.buf s)) := by
  have r1 : brRead 2 (crcRun s.r.buf s) = _ := brRead_short (s := crcRun s.r.buf s) h
  rw [checkHcrc_eq, r1, Proc.bind_raise, avail_crcRun]

/-- R136: what step 6 has read when it returns. -/
theorem checkHcrc_ret {s s' : State} {u : Unit} (h : checkHcrc s = .ret u s') :
    avail s = le16 (crc16Of s.r.buf) ++ avail s' ∧ s' = took (le16 (crc16Of s.r.buf)) (crcRun s.r.buf s) := by
  rw [checkHcrc_eq] at h
  obtain ⟨q, s1, h1, h⟩ := Proc.bind_ret_inv h
  obtain ⟨l1, a1, rfl⟩ := brRead_ret h1
  obtain ⟨q0, q1, rfl⟩ := two_of_length l1
  split at h
  · rename_i hq
    simp only [Proc.ret.injEq] at h
    rw [← h.2]
    rw [← hq, le16_u16]
    exact ⟨a1, rfl⟩
  · cases h

/-- R36 (b), R136: what DECODE leaves in `C` when it has read a Header's bytes. -/
def crcAfter (h : Header) (c : Word32) : Word32 := if fhcrcSet h.flg then crcFold crcInit (plainBytes h) else c

/-- R130, R142: on the emitted bytes of a valid Header that the capacities admit, steps 1 to 6 return it. -/
theorem decodeRun_headerBytes {h : Header} {rest : Bytes} {s : State} (hv : h.valid = true)
    (hc : h.withinCaps s.params = true) (ha : avail s = headerBytes h ++ rest) :
    decodeRun s = .ret h ((took (headerBytes h) (brOpen s)).setC (crcAfter h s.c)) := by
  cases hf : fhcrcSet h.flg
  · rw [headerBytes_noHcrc hf] at ha ⊢
    rw [decodeRun_append hv hc ha, hf]
    simp [crcAfter, hf, State.setC]
    rfl
  · rw [headerBytes_hcrc hf, List.append_assoc] at ha
    have e : avail (took (plainBytes h) (brOpen s)) = le16 (crc16Of (plainBytes h)) ++ rest := avail_took_append ha
    have hk := checkHcrc_append e
    simp only [took_buf, brOpen_buf, List.nil_append, if_true] at hk
    rw [decodeRun_append hv hc ha, hf, headerBytes_hcrc hf, optionally_ret hk, Proc.bind_ret]
    rw [crcRun, took_setC, took_took, crcAfter, hf, if_pos rfl]

/-- R133: what the optional FEXTRA section has read when it returns. -/
theorem optionalExtra_ret {b : Bool} {ex : Option (List Field)} {s s' : State}
    (h : optionally b parseExtra s = .ret ex s') :
    b = ex.isSome ∧ lengthsFit ex = true ∧ overCap s.params.extraCap (extraLen (ex.getD [])) = false ∧
      avail s = optXsec ex ++ avail s' ∧
      s' = took (optXsec ex) s := by
  rcases optionally_ret_inv h with ⟨rfl, rfl, rfl⟩ | ⟨rfl, fs, rfl, hp⟩
  · simp [lengthsFit, optXsec]
  · obtain ⟨hx, hl, hc, ha, hs⟩ := parseExtra_ret hp
    exact ⟨rfl, by simpa [lengthsFit, hx] using hl, hc, ha, hs⟩

/-- R134, R135: what an optional string section has read when it returns. -/
theorem optionalZstr_ret {b : Bool} {sec : StrSection} {v : Option Bytes} {s s' : State}
    (h : optionally b (parseZstr sec) s = .ret v s') :
    b = v.isSome ∧ zeroFree v = true ∧ overCap (strCap sec s.params) (v.getD []).length = false ∧
      avail s = stringOf v ++ avail s' ∧ s' = took (stringOf v) s := by
  rcases optionally_ret_inv h with ⟨rfl, rfl, rfl⟩ | ⟨rfl, text, rfl, hp⟩
  · simp [zeroFree, stringOf]
  · obtain ⟨hz, hc, ha, hs⟩ := parseZstr_ret hp
    exact ⟨rfl, by simpa [zeroFree] using hz, hc, ha, hs⟩

/-- R130 to R142, R151: when steps 1 to 6 return, they return a valid Header that the capacities admit, and have read its emitted
bytes, no more and no fewer. -/
theorem decodeRun_ret {h : Header} {s s' : State} (hr : decodeRun s = .ret h s') :
    h.valid = true ∧ h.withinCaps s.params = true ∧ avail s = headerBytes h ++ avail s' ∧
      s' = (took (headerBytes h) (brOpen s)).setC (crcAfter h s.c) := by
  unfold decodeRun at hr
  obtain ⟨w, s1, h1, hr1⟩ := Proc.bind_ret_inv hr
  obtain ⟨ex, s2, h2, hr2⟩ := Proc.bind_ret_inv hr1
  obtain ⟨nm, s3, h3, hr3⟩ := Proc.bind_ret_inv hr2
  obtain ⟨co, s4, h4, hr4⟩ := Proc.bind_ret_inv hr3
  obtain ⟨u, s5, h5, hr5⟩ := Proc.bind_ret_inv hr4
  simp only [Proc.ret.injEq] at hr5
  clear hr hr1 hr2 hr3 hr4
  obtain ⟨cm, flg, m, xfl, os, rfl, a1, rfl⟩ := parseFixed_ret h1
  obtain ⟨rfl, rfl⟩ := hr5
  obtain ⟨b2, l2, c2, a2, rfl⟩ := optionalExtra_ret h2
  obtain ⟨b3, z3, c3, a3, rfl⟩ := optionalZstr_ret h3
  obtain ⟨b4, z4, c4, a4, rfl⟩ := optionalZstr_ret h4
  simp only [fixedHeader] at b2 b3 b4 h5 ⊢
  generalize hh : (⟨cm, flg, m, xfl, os, ex, nm, co⟩ : Header) = h
  have hflg : h.flg = flg := by rw [← hh]
  have hx : xlenOf h ++ bodyOf h = optXsec ex := by
    rw [xlenOf_append_bodyOf, ← hh]
  have hp : plainBytes h = fixedBytes cm flg m xfl os ++ (optXsec ex ++
      (stringOf nm ++ stringOf co)) := by
    rw [← hx, ← hh]
    simp [plainBytes, fixedOf]
  have hv : h.valid = true := by
    rw [← hh]
    simp [Header.valid, Header.flagsAgree, b2, b3, b4, l2, z3, z4]
  have hc : h.withinCaps s.params = true := by
    rw [withinCaps_iff, ← hh]
    exact ⟨c2, c3, c4⟩
  have hp : plainBytes h = fixedBytes cm flg m xfl os ++ optXsec ex ++ stringOf nm ++ stringOf co := by
    rw [hp]
    simp
  have ha : avail s = plainBytes h ++ avail (took (plainBytes h) (brOpen s)) := by
    rw [← avail_brOpen s, a1, a2, a3, a4]
    simp only [took_took, hp, List.append_assoc]
  refine ⟨hv, hc, ?_⟩
  simp only [took_took, ← hp] at h5
  rw [← hflg] at h5
  rcases optionally_ret_inv h5 with ⟨hf, rfl, rfl⟩ | ⟨hf, v, rfl, hk⟩
  · rw [headerBytes_noHcrc hf, crcAfter, hf]
    exact ⟨ha, rfl⟩
  · obtain ⟨a5, rfl⟩ := checkHcrc_ret hk
    simp only [took_buf, brOpen_buf, List.nil_append] at a5 ⊢
    rw [headerBytes_hcrc hf, crcAfter, hf, if_pos rfl]
    refine ⟨?_, ?_⟩
    · rw [ha, a5, List.append_assoc]
    · rw [crcRun, took_setC, took_took]

/-- R137: a DECODE whose steps 1 to 6 return. -/
theorem execDecode_ret {s s' : State} {h : Header} (hg : s.params.grain = .operation) (hr : decodeRun s = .ret h s') :
    execDecode s = .next (endOk .unit ((s'.setH h).setLen s'.r.pos)) := by simp only [execDecode, hg, decodeWhole, hr]

/-- R138: a DECODE one of whose steps raises. -/
theorem execDecode_raise {s s' : State} {f : FaultRec} (hg : s.params.grain = .operation)
    (hr : decodeRun s = .raise f s') : execDecode s = .next (takeFault .parser f s') := by
  simp only [execDecode, hg, decodeWhole, hr]

/-- R136: the checksum step pulls, and moves `C`. -/
theorem pullsTo_checkHcrc (s : State) : ∃ c s1, pullsTo s s1 ∧ (checkHcrc s).final = s1.setC c := by
  rcases brRead_cases 2 (crcRun s.r.buf s) with ⟨l, e⟩ | ⟨l, e⟩
  · rw [avail_crcRun] at l e
    refine ⟨crcFold crcInit s.r.buf, took ((avail s).take 2) s, pullsTo_took (by simp), ?_⟩
    rw [checkHcrc_eq, e, Proc.bind_ret]
    by_cases hq : u16 ((avail s).take 2) = crc16Of s.r.buf
    · rw [if_pos hq]
      rfl
    · rw [if_neg hq]
      rfl
  · refine ⟨crcFold crcInit s.r.buf, drained s, pullsTo_drained s, ?_⟩
    rw [checkHcrc_eq, e, Proc.bind_raise]
    rfl

/-- R124, R143: what steps 1 to 6 leave in either outcome: some bytes pulled, and `C` moved only when the FLG byte, the fourth of
the source, has FHCRC. -/
theorem decodeRun_final (s : State) : ∃ c s1, pullsTo (brOpen s) s1 ∧ (decodeRun s).final = s1.setC c ∧
    (fhcrcSet ((avail s).getD 3 0#8) = false → c = s.c) := by
  have keep : ∀ s1, pullsTo (brOpen s) s1 → s1.c = s.c := by
    rintro s1 ⟨k, buf, -, -, rfl⟩
    rfl
  have same : ∀ s1 : State, s1 = s1.setC s1.c := fun _ => rfl
  have p1 := pullsTo_parseFixed (brOpen s)
  unfold decodeRun
  cases h1 : parseFixed (brOpen s) with
  | raise f s1 =>
    rw [h1] at p1
    exact ⟨s1.c, s1, p1, same s1, fun _ => keep s1 p1⟩
  | ret w s1 =>
    obtain ⟨cm, flg, m, xfl, os, rfl, a1, -⟩ := parseFixed_ret h1
    have hflg : (avail s).getD 3 0#8 = flg := by
      rw [← avail_brOpen s, a1]
      rfl
    rw [h1] at p1
    simp only [Proc.bind_ret, Proc.final_ret] at p1 ⊢
    have p2 := pullsTo_trans p1 (pullsTo_optionally (fextraSet (fixedHeader cm flg m xfl os).flg) parseExtra s1 (pullsTo_parseExtra s1))
    cases h2 : optionally (fextraSet (fixedHeader cm flg m xfl os).flg) parseExtra s1 with
    | raise f s2 =>
      rw [h2] at p2
      exact ⟨s2.c, s2, p2, same s2, fun _ => keep s2 p2⟩
    | ret ex s2 =>
    rw [h2] at p2
    simp only [Proc.bind_ret, Proc.final_ret] at p2 ⊢
    have p3 := pullsTo_trans p2 (pullsTo_optionally (fnameSet (fixedHeader cm flg m xfl os).flg) (parseZstr .name) s2 (pullsTo_parseZstr _ s2))
    cases h3 : optionally (fnameSet (fixedHeader cm flg m xfl os).flg) (parseZstr .name) s2 with
    | raise f s3 =>
      rw [h3] at p3
      exact ⟨s3.c, s3, p3, same s3, fun _ => keep s3 p3⟩
    | ret nm s3 =>
    rw [h3] at p3
    simp only [Proc.bind_ret, Proc.final_ret] at p3 ⊢
    have p4 := pullsTo_trans p3 (pullsTo_optionally (fcommentSet (fixedHeader cm flg m xfl os).flg) (parseZstr .comment) s3 (pullsTo_parseZstr _ s3))
    cases h4 : optionally (fcommentSet (fixedHeader cm flg m xfl os).flg) (parseZstr .comment) s3 with
    | raise f s4 =>
      rw [h4] at p4
      exact ⟨s4.c, s4, p4, same s4, fun _ => keep s4 p4⟩
    | ret co s4 =>
    rw [h4] at p4
    simp only [Proc.bind_ret, Proc.final_ret] at p4 ⊢
    rw [hflg]
    change ∃ c s1, _ ∧ ((optionally (fhcrcSet flg) checkHcrc s4).bind _).final = _ ∧ _
    cases hf : fhcrcSet flg
    · exact ⟨s4.c, s4, p4, same s4, fun _ => keep s4 p4⟩
    · obtain ⟨c, s5, p5, e5⟩ := pullsTo_checkHcrc s4
      refine ⟨c, s5, pullsTo_trans p4 p5, ?_, by simp⟩
      simp only [optionally, if_true]
      cases h5 : checkHcrc s4 <;> rw [h5] at e5 <;> exact e5

end Sys2Proof.Machine
end

