-- ==== Sys2Proof/Laws/Flags.lean ====
section
/-! SUPPORT. What the updates of the FLG byte do to its presence bits (10_state.md R12, R20; 40_header_and_field.md R92, R101 to
R108). -/

namespace Sys2Proof.Machine

/-- R92, R222: a masked write keeps the presence bits. -/
theorem flgMasked_presence (v flg : Byte) : fextraSet (flgMasked v flg) = fextraSet flg ∧
    fnameSet (flgMasked v flg) = fnameSet flg ∧ fcommentSet (flgMasked v flg) = fcommentSet flg := by
  simp [flgMasked, fextraSet, fnameSet, fcommentSet]

/-- R92: a masked write takes the other bits from its operand. -/
theorem flgMasked_bits (v flg : Byte) (i : Nat) (h : i < 8) :
    (flgMasked v flg).getLsbD i = if 2 ≤ i ∧ i ≤ 4 then flg.getLsbD i else v.getLsbD i := by
  simp only [flgMasked]
  interval_cases i <;> simp

/-- R101: FEXTRA set, the other bits kept. -/
theorem flgWithExtra_presence (flg : Byte) : fextraSet (flgWithExtra flg) = true ∧
    fnameSet (flgWithExtra flg) = fnameSet flg ∧ fcommentSet (flgWithExtra flg) = fcommentSet flg ∧
    fhcrcSet (flgWithExtra flg) = fhcrcSet flg := by simp [flgWithExtra, fextraSet, fnameSet, fcommentSet, fhcrcSet]

/-- R102: FEXTRA cleared, the other bits kept. -/
theorem flgWithoutExtra_presence (flg : Byte) : fextraSet (flgWithoutExtra flg) = false ∧
    fnameSet (flgWithoutExtra flg) = fnameSet flg ∧ fcommentSet (flgWithoutExtra flg) = fcommentSet flg ∧
    fhcrcSet (flgWithoutExtra flg) = fhcrcSet flg := by
  simp [flgWithoutExtra, fextraSet, fnameSet, fcommentSet, fhcrcSet]

/-- R104: FNAME set, the other bits kept. -/
theorem flgWithName_presence (flg : Byte) : fextraSet (flgWithName flg) = fextraSet flg ∧
    fnameSet (flgWithName flg) = true ∧ fcommentSet (flgWithName flg) = fcommentSet flg ∧
    fhcrcSet (flgWithName flg) = fhcrcSet flg := by simp [flgWithName, fextraSet, fnameSet, fcommentSet, fhcrcSet]

/-- R105: FNAME cleared, the other bits kept. -/
theorem flgWithoutName_presence (flg : Byte) : fextraSet (flgWithoutName flg) = fextraSet flg ∧
    fnameSet (flgWithoutName flg) = false ∧ fcommentSet (flgWithoutName flg) = fcommentSet flg ∧
    fhcrcSet (flgWithoutName flg) = fhcrcSet flg := by
  simp [flgWithoutName, fextraSet, fnameSet, fcommentSet, fhcrcSet]

/-- R107: FCOMMENT set, the other bits kept. -/
theorem flgWithComment_presence (flg : Byte) : fextraSet (flgWithComment flg) = fextraSet flg ∧
    fnameSet (flgWithComment flg) = fnameSet flg ∧ fcommentSet (flgWithComment flg) = true ∧
    fhcrcSet (flgWithComment flg) = fhcrcSet flg := by
  simp [flgWithComment, fextraSet, fnameSet, fcommentSet, fhcrcSet]

/-- R108: FCOMMENT cleared, the other bits kept. -/
theorem flgWithoutComment_presence (flg : Byte) : fextraSet (flgWithoutComment flg) = fextraSet flg ∧
    fnameSet (flgWithoutComment flg) = fnameSet flg ∧ fcommentSet (flgWithoutComment flg) = false ∧
    fhcrcSet (flgWithoutComment flg) = fhcrcSet flg := by
  simp [flgWithoutComment, fextraSet, fnameSet, fcommentSet, fhcrcSet]

end Sys2Proof.Machine
end

