-- ==== Sys2Proof/Laws/ParserMachine.lean ====
section
/-! SUPPORT. What NEXT, GOTO, SUBLOOP and ENDSUB of the byte-serial parser can do (42_decode.md R145, R146). -/

namespace Sys2Proof.Machine

/-! ### NEXT -/

theorem mask_test (flg : Byte) : decide (flg &&& 0x04#8 ≠ 0#8) = fextraSet flg ∧
    decide (flg &&& 0x08#8 ≠ 0#8) = fnameSet flg ∧ decide (flg &&& 0x10#8 ≠ 0#8) = fcommentSet flg ∧
    decide (flg &&& 0x02#8 ≠ 0#8) = fhcrcSet flg := by
  revert flg
  decide

/-- R146: after the comment. -/
theorem nextPhase_three (flg : Byte) : nextPhase 3 flg = if fhcrcSet flg then some .hcrc else none := by
  obtain ⟨-, -, -, h4⟩ := mask_test flg
  simp only [nextPhase, sectionTable, List.drop, List.find?, h4]
  cases fhcrcSet flg <;> rfl

/-- R146: after the filename. -/
theorem nextPhase_two (flg : Byte) : nextPhase 2 flg = if fcommentSet flg then some .comment else nextPhase 3 flg := by
  obtain ⟨-, -, h3, -⟩ := mask_test flg
  simp only [nextPhase, sectionTable, List.drop, List.find?, h3]
  cases fcommentSet flg <;> rfl

/-- R146: after FEXTRA. -/
theorem nextPhase_one (flg : Byte) : nextPhase 1 flg = if fnameSet flg then some .name else nextPhase 2 flg := by
  obtain ⟨-, h2, -, -⟩ := mask_test flg
  simp only [nextPhase, sectionTable, List.drop, List.find?, h2]
  cases fnameSet flg <;> rfl

/-- R146: after the fixed part. -/
theorem nextPhase_zero (flg : Byte) : nextPhase 0 flg = if fextraSet flg then some .xlen else nextPhase 1 flg := by
  obtain ⟨h1, -, -, -⟩ := mask_test flg
  simp only [nextPhase, sectionTable, List.drop, List.find?, h1]
  cases fextraSet flg <;> rfl

/-! ### GOTO -/

/-- R145: GOTO into a section that is not the trailer. -/
theorem goto_section {ph : Phase} (h : ph ≠ .hcrc) (s : State) :
    goto (some ph) s = s.setP { s.p with ph := ph, cnt := 0, tmp := [], acc := [] } := by
  cases ph <;> first | rfl | exact absurd rfl h

/-- R145: GOTO(HCRC): the snapshot of every byte read so far. -/
theorem goto_hcrc (s : State) :
    goto (some .hcrc) s =
      (s.setC (crcFold crcInit s.r.buf)).setP { s.p with ph := .hcrc, cnt := 0, tmp := [], acc := [], snap := crc16Of s.r.buf } := rfl

/-- R145: GOTO(DONE). -/
theorem goto_done (s : State) :
    goto none s = endOk .unit { s with h := s.p.w, len := s.r.pos, p := { s.p with ph := .idle, cnt := 0, tmp := [], acc := [] } } := rfl

/-- The phase GOTO ends in; `DONE` is IDLE. -/
@[simp] theorem goto_p_ph (t : Option Phase) (s : State) : (goto t s).p.ph = t.getD .idle := by
  rcases t with _ | ph
  · rfl
  · cases ph <;> rfl

@[simp] theorem goto_r (t : Option Phase) (s : State) : (goto t s).r = s.r := by
  rcases t with _ | ph
  · rfl
  · cases ph <;> rfl

@[simp] theorem goto_ser (t : Option Phase) (s : State) : (goto t s).ser = s.ser := by
  rcases t with _ | ph
  · rfl
  · cases ph <;> rfl

@[simp] theorem goto_params (t : Option Phase) (s : State) : (goto t s).params = s.params := by
  rcases t with _ | ph
  · rfl
  · cases ph <;> rfl

@[simp] theorem goto_ret (t : Option Phase) (s : State) : (goto t s).ret = s.ret := by
  rcases t with _ | ph
  · rfl
  · cases ph <;> rfl

@[simp] theorem goto_out_src (t : Option Phase) (s : State) : (goto t s).out.src = s.out.src := by
  rcases t with _ | ph
  · rfl
  · cases ph <;> rfl

@[simp] theorem goto_out_snk (t : Option Phase) (s : State) : (goto t s).out.snk = s.out.snk := by
  rcases t with _ | ph
  · rfl
  · cases ph <;> rfl

@[simp] theorem goto_out_reg (t : Option Phase) (s : State) : (goto t s).out.reg = s.out.reg := by
  rcases t with _ | ph
  · rfl
  · cases ph <;> rfl

@[simp] theorem goto_out_script (t : Option Phase) (s : State) : (goto t s).out.script = s.out.script := by
  rcases t with _ | ph
  · rfl
  · cases ph <;> rfl

@[simp] theorem goto_p_w (t : Option Phase) (s : State) : (goto t s).p.w = s.p.w := by
  rcases t with _ | ph
  · rfl
  · cases ph <;> rfl

@[simp] theorem goto_p_rem (t : Option Phase) (s : State) : (goto t s).p.rem = s.p.rem := by
  rcases t with _ | ph
  · rfl
  · cases ph <;> rfl

@[simp] theorem goto_p_slen (t : Option Phase) (s : State) : (goto t s).p.slen = s.p.slen := by
  rcases t with _ | ph
  · rfl
  · cases ph <;> rfl

@[simp] theorem goto_p_tag (t : Option Phase) (s : State) : (goto t s).p.tag = s.p.tag := by
  rcases t with _ | ph
  · rfl
  · cases ph <;> rfl

/-- R145: GOTO into a section leaves `H`, `LEN` and the record. -/
theorem goto_some_kept (ph : Phase) (s : State) :
    (goto (some ph) s).h = s.h ∧ (goto (some ph) s).len = s.len ∧ s.recordKept (goto (some ph) s) := by
  cases ph <;> exact ⟨rfl, rfl, rfl, rfl, rfl, rfl⟩

/-- R145: GOTO(DONE) ends the DECODE `ok`. -/
theorem goto_none_done (s : State) :
    (goto none s).h = s.p.w ∧ (goto none s).len = s.r.pos ∧ (goto none s).ranOk .unit :=
  ⟨rfl, rfl, ranOk_endOk _ _⟩

/-- R36 (b), R145: only GOTO(HCRC) touches `C` and the snapshot. -/
theorem goto_c_snap {t : Option Phase} (h : t.getD .idle ≠ .hcrc) (s : State) :
    (goto t s).c = s.c ∧ (goto t s).p.snap = s.p.snap := by
  rcases t with _ | ph
  · exact ⟨rfl, rfl⟩
  · cases ph <;> first | exact ⟨rfl, rfl⟩ | exact absurd rfl h

/-- R145: GOTO clears the registers of the read in progress. -/
theorem goto_p (t : Option Phase) (s : State) : (goto t s).p =
    { s.p with ph := t.getD .idle, cnt := 0, tmp := [], acc := [], snap := (goto t s).p.snap } := by
  rcases t with _ | ph
  · rfl
  · cases ph <;> rfl

/-! ### SUBLOOP and ENDSUB -/

/-- R139, R145: everything SUBLOOP can do. -/
theorem subLoop_cases (s : State) :
    (s.p.rem = 0#16 ∧ subLoop s = goto (nextPhase 1 s.p.w.flg) s) ∨
    (1 ≤ s.p.rem.toNat ∧ s.p.rem.toNat ≤ 3 ∧ subLoop s = takeFault .parser (malformed s.p.rem 0#16) s) ∨
    (4 ≤ s.p.rem.toNat ∧ subLoop s = s.setP { s.p with ph := .sfTag, cnt := 0, tmp := [], acc := [] }) := by
  by_cases h0 : s.p.rem = 0#16
  · exact .inl ⟨h0, by rw [subLoop, if_pos h0]⟩
  have h1 : 1 ≤ s.p.rem.toNat := by
    rcases Nat.eq_zero_or_pos s.p.rem.toNat with h | h
    · exact absurd (BitVec.eq_of_toNat_eq h) h0
    · exact h
  by_cases h4 : s.p.rem.toNat < 4
  · exact .inr (.inl ⟨h1, by omega, by rw [subLoop, if_neg h0, if_pos h4]⟩)
  · exact .inr (.inr ⟨by omega, by rw [subLoop, if_neg h0, if_neg h4, goto_section (by decide)]⟩)

/-- R139: a remainder after a subfield that fits. -/
theorem rem_sub_toNat (rem : Half) (n : Nat) : (BitVec.ofNat 16 (rem.toNat - n)).toNat = rem.toNat - n := by
  have := rem.isLt
  rw [BitVec.toNat_ofNat]
  omega

/-- R139, R145: everything SUBLOOP leaves and everything it writes, by what remains of the section. -/
theorem subLoop_spec (s : State) :
    (subLoop s).p.w = s.p.w ∧ (subLoop s).p.rem = s.p.rem ∧ (subLoop s).p.slen = s.p.slen ∧
    (subLoop s).p.tag = s.p.tag ∧
    ((subLoop s).p.ph ≠ .hcrc → (subLoop s).c = s.c ∧ (subLoop s).p.snap = s.p.snap) ∧
    (s.p.rem = 0#16 → nextPhase 1 s.p.w.flg ≠ none → (subLoop s).h = s.h ∧
      some (subLoop s).p.ph = nextPhase 1 s.p.w.flg ∧ (subLoop s).len = s.len ∧ s.recordKept (subLoop s)) ∧
    (s.p.rem = 0#16 → nextPhase 1 s.p.w.flg = none → (subLoop s).h = s.p.w ∧ (subLoop s).p.ph = .idle ∧
      (subLoop s).len = s.r.pos ∧ (subLoop s).ranOk .unit) ∧
    (1 ≤ s.p.rem.toNat → s.p.rem.toNat ≤ 3 → (subLoop s).ranInto ⟨.malformedExtra, s.p.rem, 0#16⟩ 5#8 ∧
      (subLoop s).h = s.h ∧ (subLoop s).p.ph = .idle ∧ (subLoop s).len = s.r.pos) ∧
    (4 ≤ s.p.rem.toNat → (subLoop s).h = s.h ∧ (subLoop s).p.ph = .sfTag ∧ (subLoop s).len = s.len ∧
      s.recordKept (subLoop s)) := by
  rcases subLoop_cases s with ⟨h, e⟩ | ⟨h, h', e⟩ | ⟨h, e⟩
  · have hr : s.p.rem.toNat = 0 := by rw [h]; rfl
    rw [e]
    refine ⟨by simp, by simp, by simp, by simp, ?_, ?_, ?_, by omega, by omega⟩
    · intro h
      rw [goto_p_ph] at h
      exact goto_c_snap h s
    · intro _ hn
      obtain ⟨ph, hx⟩ := Option.ne_none_iff_exists'.mp hn
      rw [hx]
      obtain ⟨a, b, c⟩ := goto_some_kept ph s
      exact ⟨a, by simp, b, c⟩
    · intro _ hn
      rw [hn]
      obtain ⟨a, b, c⟩ := goto_none_done s
      exact ⟨a, by simp, b, c⟩
  · have hr : s.p.rem ≠ 0#16 := by
      intro h0
      rw [h0] at h
      exact absurd h (by decide)
    rw [e]
    exact ⟨rfl, rfl, rfl, rfl, fun _ => ⟨rfl, rfl⟩, fun h => absurd h hr, fun h => absurd h hr,
      fun _ _ => ⟨ranInto_takeFault _ _ _, rfl, rfl, rfl⟩, by omega⟩
  · have hr : s.p.rem ≠ 0#16 := by
      intro h0
      rw [h0] at h
      exact absurd h (by decide)
    rw [e]
    exact ⟨rfl, rfl, rfl, rfl, fun _ => ⟨rfl, rfl⟩, fun h => absurd h hr, fun h => absurd h hr, by omega,
      fun _ => ⟨rfl, rfl, rfl, rfl, rfl, rfl, rfl⟩⟩

/-! ### What no action of the parser touches -/

/-- The Byte Reader, the serializer, the parameters, `ret` and the host side but the outcome are as they were. -/
def State.actionKept (s t : State) : Prop :=
  t.r = s.r ∧ t.ser = s.ser ∧ t.params = s.params ∧ t.ret = s.ret ∧ s.hostKept t

theorem actionKept_trans {a b c : State} (h : a.actionKept b) (h' : b.actionKept c) : a.actionKept c := by
  obtain ⟨h1, h2, h3, h4, h5, h6, h7, h8⟩ := h
  obtain ⟨k1, k2, k3, k4, k5, k6, k7, k8⟩ := h'
  exact ⟨k1.trans h1, k2.trans h2, k3.trans h3, k4.trans h4, k5.trans h5, k6.trans h6, k7.trans h7, k8.trans h8⟩

theorem actionKept_setP (s : State) (p : Parser) : s.actionKept (s.setP p) := ⟨rfl, rfl, rfl, rfl, rfl, rfl, rfl, rfl⟩

theorem actionKept_fault (s : State) (f : FaultRec) : s.actionKept (takeFault .parser f s) :=
  ⟨rfl, rfl, rfl, rfl, rfl, rfl, rfl, rfl⟩

theorem actionKept_goto (t : Option Phase) (s : State) : s.actionKept (goto t s) :=
  ⟨by simp, by simp, by simp, by simp, by simp, by simp, by simp, by simp⟩

theorem actionKept_subLoop (s : State) : s.actionKept (subLoop s) := by
  rcases subLoop_cases s with ⟨-, e⟩ | ⟨-, -, e⟩ | ⟨-, e⟩ <;> rw [e]
  · exact actionKept_goto _ s
  · exact actionKept_fault s _
  · exact actionKept_setP s _

theorem actionKept_endSub (s : State) : s.actionKept (endSub s) :=
  actionKept_trans (actionKept_setP s _) (actionKept_subLoop _)

theorem actionKept_acceptFixed (cm flg : Byte) (m : Word32) (xfl os : Byte) (s : State) :
    s.actionKept (acceptFixed cm flg m xfl os s) := actionKept_trans (actionKept_setP s _) (actionKept_goto _ _)

theorem actionKept_acceptXlen (xlen : Half) (s : State) : s.actionKept (acceptXlen xlen s) := by
  unfold acceptXlen
  dsimp only
  split
  · exact actionKept_trans (actionKept_setP s _) (actionKept_fault _ _)
  · exact actionKept_trans (actionKept_trans (actionKept_setP s _) (actionKept_setP _ _)) (actionKept_subLoop _)

theorem actionKept_acceptSubLen (slen : Half) (s : State) : s.actionKept (acceptSubLen slen s) := by
  unfold acceptSubLen
  dsimp only
  split
  · split
    · exact actionKept_trans (actionKept_trans (actionKept_setP s _) (actionKept_setP _ _)) (actionKept_endSub _)
    · exact actionKept_trans (actionKept_setP s _) (actionKept_goto _ _)
  · exact actionKept_trans (actionKept_setP s _) (actionKept_fault _ _)

theorem actionKept_acceptName (text : Bytes) (s : State) : s.actionKept (acceptName text s) :=
  actionKept_trans (actionKept_setP s _) (actionKept_goto _ _)

theorem actionKept_acceptComment (text : Bytes) (s : State) : s.actionKept (acceptComment text s) :=
  actionKept_trans (actionKept_setP s _) (actionKept_goto _ _)

theorem actionKept_acceptHcrc (stored : Half) (s : State) : s.actionKept (acceptHcrc stored s) := by
  unfold acceptHcrc
  split
  · exact actionKept_goto _ s
  · exact actionKept_fault s _

theorem actionKept_stringByte (sec : StrSection) (b : Byte) (s : State) : s.actionKept (stringByte sec b s) := by
  unfold stringByte
  split
  · cases sec
    · exact actionKept_acceptName _ s
    · exact actionKept_acceptComment _ s
  · split
    · exact actionKept_fault s _
    · exact actionKept_setP s _

/-- R145: what a phase does with a byte touches the parser, `H`, `C`, `LEN` and the record only. -/
theorem actionKept_phaseByte (b : Byte) (s : State) : s.actionKept (phaseByte b s) := by
  have hg : s.actionKept (gather b s) := actionKept_setP s _
  unfold phaseByte
  dsimp only
  split
  · exact actionKept_setP s s.p
  · split
    · split
      · exact actionKept_trans hg (actionKept_goto _ _)
      · exact actionKept_trans hg (actionKept_fault _ _)
    · exact hg
  · split
    · exact actionKept_trans hg (actionKept_acceptFixed _ _ _ _ _ _)
    · exact hg
  · split
    · exact actionKept_trans hg (actionKept_acceptXlen _ _)
    · exact hg
  · split
    · exact actionKept_trans hg (actionKept_trans (actionKept_setP _ _) (actionKept_goto _ _))
    · exact hg
  · split
    · exact actionKept_trans hg (actionKept_acceptSubLen _ _)
    · exact hg
  · split
    · exact actionKept_trans (actionKept_setP s _) (actionKept_endSub _)
    · exact actionKept_setP s _
  · exact actionKept_stringByte _ b s
  · exact actionKept_stringByte _ b s
  · split
    · exact actionKept_trans hg (actionKept_acceptHcrc _ _)
    · exact hg

end Sys2Proof.Machine
end

