-- ==== Sys2Proof/Laws/PerInstr.lean ====
section
/-! SUPPORT. A family of statements about every instruction as syntax: no encoded word is empty (30_encoding.md R60), so a decoder that
reads one always moves on. -/

namespace Sys2Proof.Laws

open Sys2Proof Sys2Proof.Machine

/-- The word of an instruction, where it has one, is at least one byte long. -/
def WordNonempty.Statement (i : Instr) : Prop :=
  ∀ (fmt : Format) (word : Bytes), encodeInstr i = some (fmt, word) → 1 ≤ word.length

theorem WordNonempty.hdrInit : WordNonempty.Statement .hdrInit := by
  rintro fmt word ⟨⟩
  simp
theorem WordNonempty.decode : WordNonempty.Statement .decode := by
  rintro fmt word ⟨⟩
  simp
theorem WordNonempty.encode : WordNonempty.Statement .encode := by
  rintro fmt word ⟨⟩
  simp
theorem WordNonempty.wrCm (v : Byte) : WordNonempty.Statement (.wrCm v) := by
  rintro fmt word ⟨⟩
  simp
theorem WordNonempty.wrFlg (v : Byte) : WordNonempty.Statement (.wrFlg v) := by
  rintro fmt word ⟨⟩
  simp
theorem WordNonempty.wrMtime (v : Word32) : WordNonempty.Statement (.wrMtime v) := by
  rintro fmt word ⟨⟩
  simp
theorem WordNonempty.wrXfl (v : Byte) : WordNonempty.Statement (.wrXfl v) := by
  rintro fmt word ⟨⟩
  simp
theorem WordNonempty.wrOs (v : Byte) : WordNonempty.Statement (.wrOs v) := by
  rintro fmt word ⟨⟩
  simp
theorem WordNonempty.rdCm : WordNonempty.Statement .rdCm := by
  rintro fmt word ⟨⟩
  simp
theorem WordNonempty.rdFlg : WordNonempty.Statement .rdFlg := by
  rintro fmt word ⟨⟩
  simp
theorem WordNonempty.rdMtime : WordNonempty.Statement .rdMtime := by
  rintro fmt word ⟨⟩
  simp
theorem WordNonempty.rdXfl : WordNonempty.Statement .rdXfl := by
  rintro fmt word ⟨⟩
  simp
theorem WordNonempty.rdOs : WordNonempty.Statement .rdOs := by
  rintro fmt word ⟨⟩
  simp
theorem WordNonempty.setExtra (ps : List (Bytes × Bytes)) : WordNonempty.Statement (.setExtra ps) := by
  rintro fmt word ⟨⟩
  simp
theorem WordNonempty.clrExtra : WordNonempty.Statement .clrExtra := by
  rintro fmt word ⟨⟩
  simp
theorem WordNonempty.rdExtra : WordNonempty.Statement .rdExtra := by
  rintro fmt word ⟨⟩
  simp
theorem WordNonempty.setName (text : Bytes) : WordNonempty.Statement (.setName text) := by
  rintro fmt word ⟨⟩
  simp
theorem WordNonempty.clrName : WordNonempty.Statement .clrName := by
  rintro fmt word ⟨⟩
  simp
theorem WordNonempty.rdName : WordNonempty.Statement .rdName := by
  rintro fmt word ⟨⟩
  simp
theorem WordNonempty.setComment (text : Bytes) : WordNonempty.Statement (.setComment text) := by
  rintro fmt word ⟨⟩
  simp
theorem WordNonempty.clrComment : WordNonempty.Statement .clrComment := by
  rintro fmt word ⟨⟩
  simp
theorem WordNonempty.rdComment : WordNonempty.Statement .rdComment := by
  rintro fmt word ⟨⟩
  simp
theorem WordNonempty.fieldNew (ids : Bytes) (data : Bytes) : WordNonempty.Statement (.fieldNew ids data) := by
  rintro fmt word ⟨⟩
  simp
theorem WordNonempty.crc16 (bs : Bytes) : WordNonempty.Statement (.crc16 bs) := by
  rintro fmt word ⟨⟩
  simp
theorem WordNonempty.reserved (code : Byte) : WordNonempty.Statement (.reserved code) := by
  rintro fmt word ⟨⟩
  simp
theorem WordNonempty.gzipFixed (cm : Byte) (flg : Byte) (mtime : Word32) (xfl : Byte) (os : Byte) : WordNonempty.Statement (.gzipFixed cm flg mtime xfl os) := by
  rintro fmt word ⟨⟩
  exact Nat.succ_pos _
theorem WordNonempty.ftext : WordNonempty.Statement .ftext := by
  rintro fmt word ⟨⟩
  simp
theorem WordNonempty.fhcrc : WordNonempty.Statement .fhcrc := by
  rintro fmt word ⟨⟩
  simp
theorem WordNonempty.fextra : WordNonempty.Statement .fextra := by
  rintro fmt word ⟨⟩
  simp
theorem WordNonempty.fname : WordNonempty.Statement .fname := by
  rintro fmt word ⟨⟩
  simp
theorem WordNonempty.fcomment : WordNonempty.Statement .fcomment := by
  rintro fmt word ⟨⟩
  simp
theorem WordNonempty.flgUnnamed (bits : BitVec 3) : WordNonempty.Statement (.flgUnnamed bits) := by
  rintro fmt word ⟨⟩
  simp
theorem WordNonempty.fextraSection (xlen : Half) : WordNonempty.Statement (.fextraSection xlen) := by
  rintro fmt word ⟨⟩
  exact Nat.succ_pos _
theorem WordNonempty.subfield (ids0 : Byte) (ids1 : Byte) (data : Bytes) : WordNonempty.Statement (.subfield ids0 ids1 data) := by
  rintro fmt word ⟨⟩
  simp
theorem WordNonempty.zstring (text : Bytes) : WordNonempty.Statement (.zstring text) := by
  rintro fmt word ⟨⟩
  simp [zstrBytes]
theorem WordNonempty.headerCrc (stored : Half) : WordNonempty.Statement (.headerCrc stored) := by
  rintro fmt word ⟨⟩
  exact Nat.succ_pos _
theorem WordNonempty.brOpen : WordNonempty.Statement .brOpen := by
  intro fmt word h
  simp [encodeInstr] at h
theorem WordNonempty.brRead (n : Nat) : WordNonempty.Statement (.brRead n) := by
  intro fmt word h
  simp [encodeInstr] at h
theorem WordNonempty.brSnapshot : WordNonempty.Statement .brSnapshot := by
  intro fmt word h
  simp [encodeInstr] at h
theorem WordNonempty.parseExtra : WordNonempty.Statement .parseExtra := by
  intro fmt word h
  simp [encodeInstr] at h
theorem WordNonempty.parseZstr (sec : StrSection) : WordNonempty.Statement (.parseZstr sec) := by
  intro fmt word h
  simp [encodeInstr] at h
theorem WordNonempty.fieldLen (f : Field) : WordNonempty.Statement (.fieldLen f) := by
  intro fmt word h
  simp [encodeInstr] at h
theorem WordNonempty.fieldEnc (f : Field) : WordNonempty.Statement (.fieldEnc f) := by
  intro fmt word h
  simp [encodeInstr] at h
theorem WordNonempty.crc32 (bs : Bytes) : WordNonempty.Statement (.crc32 bs) := by
  intro fmt word h
  simp [encodeInstr] at h
theorem WordNonempty.crc16Fn (bs : Bytes) : WordNonempty.Statement (.crc16Fn bs) := by
  intro fmt word h
  simp [encodeInstr] at h

end Sys2Proof.Laws
end

