-- ==== Sys2Proof/Laws/Step.lean ====
section
/-! SUPPORT. Everything one step can do, once, and which instructions a CMD transaction can be. -/

namespace Sys2Proof.Machine

/-- Everything a step that answers a next state has done. -/
theorem step_next_cases {s t : State} (h : step s = .next t) :
    (busy s = true ∧ t = runningStep s) ∨
    (busy s = false ∧
      ((s.out.script = [] ∧ t = s) ∨
       (∃ k rest, s.out.script = .reset k :: rest ∧ t = applyReset (withScript rest s)) ∨
       (∃ b rest, s.out.script = .bindSrc b :: rest ∧ t = bindSource b (withScript rest s)) ∨
       (∃ i v rest, s.out.script = .readReg i :: rest ∧ regRead (withScript rest s) i = some v ∧
         t = (withScript rest s).setOut { (withScript rest s).out with reg := some v }) ∨
       (∃ bs i rest, s.out.script = .cmd bs :: rest ∧ fetchCommand bs = some i ∧
         exec i (withScript rest s) = .next t))) := by
  cases hb : busy s
  · refine .inr ⟨rfl, ?_⟩
    simp only [step, hb, Bool.false_eq_true, if_false] at h
    cases hs : s.out.script with
    | nil =>
      simp only [hs, Host.Outcome.next.injEq] at h
      exact .inl ⟨rfl, h.symm⟩
    | cons a rest =>
      simp only [hs] at h
      cases a with
      | reset k =>
        simp only [Host.Outcome.next.injEq] at h
        exact .inr (.inl ⟨k, rest, rfl, h.symm⟩)
      | bindSrc b =>
        simp only [Host.Outcome.next.injEq] at h
        exact .inr (.inr (.inl ⟨b, rest, rfl, h.symm⟩))
      | readReg i =>
        cases hv : regRead (withScript rest s) i with
        | none => simp [readPort, hv] at h
        | some v =>
          simp only [readPort, hv, Host.Outcome.next.injEq] at h
          exact .inr (.inr (.inr (.inl ⟨i, v, rest, rfl, hv, h.symm⟩)))
      | cmd bs =>
        cases hf : fetchCommand bs with
        | none => simp [hf] at h
        | some i =>
          simp only [hf] at h
          exact .inr (.inr (.inr (.inr ⟨bs, i, rest, rfl, hf, h⟩)))
  · simp only [step, hb, if_true, Host.Outcome.next.injEq] at h
    exact .inl ⟨rfl, h.symm⟩

/-- Everything a step of a running command can do: reset strikes, or the machine advances, the script's reset counted down. -/
theorem runningStep_cases (s : State) :
    (∃ rest, s.out.script = .reset 0 :: rest ∧ runningStep s = applyReset (withScript rest s)) ∨
    (∃ k rest, s.out.script = .reset (k + 1) :: rest ∧ runningStep s = advance (withScript (.reset k :: rest) s)) ∨
    runningStep s = advance s := by
  unfold runningStep
  split
  · exact .inl ⟨_, ‹_›, rfl⟩
  · exact .inr (.inl ⟨_, _, ‹_›, rfl⟩)
  · exact .inr (.inr rfl)

/-- A step of a busy block always answers a next state. -/
theorem step_of_busy {s : State} (h : busy s = true) : step s = .next (runningStep s) := by simp [step, h]

@[simp] theorem withScript_h (rest : List HostAction) (s : State) : (withScript rest s).h = s.h := rfl
@[simp] theorem withScript_r (rest : List HostAction) (s : State) : (withScript rest s).r = s.r := rfl
@[simp] theorem withScript_p (rest : List HostAction) (s : State) : (withScript rest s).p = s.p := rfl
@[simp] theorem withScript_ser (rest : List HostAction) (s : State) : (withScript rest s).ser = s.ser := rfl
@[simp] theorem withScript_c (rest : List HostAction) (s : State) : (withScript rest s).c = s.c := rfl
@[simp] theorem withScript_status (rest : List HostAction) (s : State) : (withScript rest s).status = s.status := rfl
@[simp] theorem withScript_err (rest : List HostAction) (s : State) : (withScript rest s).err = s.err := rfl
@[simp] theorem withScript_errInfo (rest : List HostAction) (s : State) : (withScript rest s).errInfo = s.errInfo := rfl
@[simp] theorem withScript_len (rest : List HostAction) (s : State) : (withScript rest s).len = s.len := rfl
@[simp] theorem withScript_params (rest : List HostAction) (s : State) : (withScript rest s).params = s.params := rfl
@[simp] theorem withScript_ret (rest : List HostAction) (s : State) : (withScript rest s).ret = s.ret := rfl
@[simp] theorem withScript_src (rest : List HostAction) (s : State) : (withScript rest s).out.src = s.out.src := rfl
@[simp] theorem withScript_snk (rest : List HostAction) (s : State) : (withScript rest s).out.snk = s.out.snk := rfl
@[simp] theorem withScript_rsp (rest : List HostAction) (s : State) : (withScript rest s).out.rsp = s.out.rsp := rfl
@[simp] theorem withScript_script (rest : List HostAction) (s : State) : (withScript rest s).out.script = rest := rfl
@[simp] theorem avail_withScript (rest : List HostAction) (s : State) : avail (withScript rest s) = avail s := rfl

/-- R145 SF_LEN, R140 (b): a data length that does not fit is latched and faults before the payload. -/
theorem acceptSubLen_unfit {slen : Half} {s : State} (h : ¬ 4 + slen.toNat ≤ s.p.rem.toNat) :
    acceptSubLen slen s = takeFault .parser (malformed s.p.rem slen) (s.setP { s.p with slen := slen }) := by
  simp [acceptSubLen, subFits, h, State.setP]

/-- R81, R139: a SUBFIELD is placed in SF_DATA only when it fits in the remainder it is placed with. -/
theorem placeElement_subfield_fits (i0 i1 : Byte) (data : Bytes) (s : State)
    (h : (placeElement (.subfield i0 i1 data) s).p.ph = .sfData) :
    4 + (placeElement (.subfield i0 i1 data) s).p.slen.toNat ≤ (placeElement (.subfield i0 i1 data) s).p.rem.toNat := by
  by_cases hc : (data.isEmpty || decide (65535 < 4 + data.length)) = true
  · simp [placeElement, hc, placeWire, State.setP] at h
  · have hlen : 4 + data.length ≤ 65535 := by
      simp only [Bool.or_eq_true, decide_eq_true_eq, not_or] at hc
      omega
    simp only [placeElement, hc, placeWire, State.setP, lenHalf, Bool.false_eq_true, if_false, BitVec.toNat_ofNat]
    omega

/-- R139, R145: a SUBFIELD that fits in no section is placed where its data length ends, and the step is MalformedExtra. -/
theorem step_placed_long_subfield (i0 i1 : Byte) {data : Bytes} (s : State) (hlong : 65531 < data.length)
    (hmax : data.length ≤ 65535) (hs : s.out.script = []) :
    ∃ u, step (placeElement (.subfield i0 i1 data) s) =
      .next (takeFault .parser (malformed 0xFFFF#16 (lenHalf data.length)) u) ∧ u.h = s.h := by
  have hc : (data.isEmpty || decide (65535 < 4 + data.length)) = true := by
    simp only [Bool.or_eq_true, decide_eq_true_eq]
    omega
  have hrem : lenHalf (min (4 + data.length) 65535) = 0xFFFF#16 := by
    rw [Nat.min_eq_right (by omega)]
    rfl
  have hslen : (lenHalf data.length).toNat = data.length := by
    simp only [lenHalf, BitVec.toNat_ofNat]
    omega
  have hplace : placeElement (.subfield i0 i1 data) s =
      placeWire { s.p with ph := .sfLen, cnt := 1, rem := 0xFFFF#16, tag := (i0, i1)
                           tmp := [byteAt (le16 (lenHalf data.length)) 0], acc := [] }
        (byteAt (le16 (lenHalf data.length)) 1) s := by
    simp only [placeElement, hc, if_true, hrem]
  have hword : u16 [byteAt (le16 (lenHalf data.length)) 0, byteAt (le16 (lenHalf data.length)) 1] = lenHalf data.length :=
    u16_le16 (lenHalf data.length)
  have hfit : ¬ 4 + (lenHalf data.length).toNat ≤ (0xFFFF#16 : Half).toNat := by
    rw [hslen]
    simp only [BitVec.toNat_ofNat]
    omega
  rw [hplace, step_of_busy rfl]
  generalize hq : placeWire _ _ s = q
  have hrun : runningStep q = acceptSubLen (u16 [byteAt (le16 (lenHalf data.length)) 0, byteAt (le16 (lenHalf data.length)) 1])
      (gather (byteAt (le16 (lenHalf data.length)) 1) (takeByte (byteAt (le16 (lenHalf data.length)) 1) q)) := by
    subst hq
    simp only [runningStep, placeWire, State.setP, State.setR, State.setOut, hs]
    rfl
  subst hq
  rw [hrun, hword, acceptSubLen_unfit hfit]
  exact ⟨_, rfl, rfl⟩

/-- R77, R78: the instructions a command code selects. -/
def isCommand : Instr → Bool
  | .hdrInit | .decode | .encode | .wrCm _ | .wrFlg _ | .wrMtime _ | .wrXfl _ | .wrOs _ => true
  | .rdCm | .rdFlg | .rdMtime | .rdXfl | .rdOs | .setExtra _ | .clrExtra | .rdExtra => true
  | .setName _ | .clrName | .rdName | .setComment _ | .clrComment | .rdComment | .fieldNew _ _ | .crc16 _ => true
  | .reserved _ => true
  | .gzipFixed _ _ _ _ _ | .ftext | .fhcrc | .fextra | .fname | .fcomment | .flgUnnamed _ => false
  | .fextraSection _ | .subfield _ _ _ | .zstring _ | .headerCrc _ => false
  | .brOpen | .brRead _ | .brSnapshot | .parseExtra | .parseZstr _ | .fieldLen _ | .fieldEnc _ => false
  | .crc32 _ | .crc16Fn _ => false

/-- R76: what is read from CMD is a command. -/
theorem decodeCmd_isCommand {bs rest : Bytes} {i : Instr} (h : decodeCmd bs = .ok (i, rest)) : isCommand i = true := by
  rcases bs with _ | ⟨code, bs⟩
  · cases h
  by_cases hc : code ∈ assignedCodes
  · simp only [assignedCodes, List.mem_cons, List.not_mem_nil, or_false] at hc
    rcases hc with rfl | rfl | rfl | rfl | rfl | rfl | rfl | rfl | rfl | rfl | rfl | rfl | rfl | rfl | rfl | rfl | rfl | rfl |
      rfl | rfl | rfl | rfl | rfl | rfl <;>
    first
    | (injection h with h; injection h with h; subst h; rfl)
    | (obtain ⟨_, _, rfl⟩ := Decoded.into_ok h; rfl)
  · rw [decodeCmd_reserved bs hc] at h
    injection h with h
    injection h with h
    subst h
    rfl

/-- R55, R76: what a CMD transaction fetches is a command. -/
theorem fetchCommand_isCommand {bs : Bytes} {i : Instr} (h : fetchCommand bs = some i) : isCommand i = true := by
  unfold fetchCommand at h
  split at h
  · rename_i e
    injection h with h
    subst h
    exact decodeCmd_isCommand e
  · cases h

end Sys2Proof.Machine
end

