-- ==== Sys2Proof/Tests/Slice0.lean ====
section
/-! SUPPORT. The smoke test of WellFormed, decodings of words written out from the spec's encodings, single steps against the
vectors of 95_test_vectors.md (named by their ids), and a witness for the hypotheses of every statement. -/

namespace Sys2Proof.Tests

open Sys2Proof Sys2Proof.Machine

/-! ### Small states -/

/-- After reset, with the source bound to `bs`. -/
def bound (bs : Bytes) : State := bindSource bs State.reset

/-- After reset, with this Header. -/
def holding (h : Header) : State := State.reset.setH h

/-- The parser in a phase, with the registers of the read in progress, the FLG byte of its working Header and its stores. -/
def parsing (ph : Phase) (cnt : Nat) (tmp acc : Bytes) (flg : Byte) : State :=
  State.reset.setP { Parser.atReset with ph := ph, cnt := cnt, tmp := tmp, acc := acc, w := { Header.fresh with flg := flg } }

/-- A state with other parameters. -/
def withParams (ps : Params) (s : State) : State := { s with params := ps }

/-- Byte-serial machines, capacities unbounded. -/
def serial : Params := { Config.specParams with grain := .byteSerial }

/-- All three capacities 1. -/
def tight : Params := { nameCap := some 1, commentCap := some 1, extraCap := some 1, grain := .operation }

/-- The Header of vector V6. -/
def headerV6 : Header :=
  ⟨8#8, 0x1F#8, 0x5F3E2D1C#32, 2#8, 3#8, some [⟨0x41#8, 0x70#8, [1#8, 2#8, 3#8]⟩, ⟨0x42#8, 0x43#8, []⟩],
    some [0x61#8, 0x2e#8, 0x74#8, 0x78#8, 0x74#8], some [0x68#8, 0x69#8]⟩

/-- The bytes of vector V6. -/
def bytesV6 : Bytes :=
  [0x1f#8, 0x8b#8, 0x08#8, 0x1f#8, 0x1c#8, 0x2d#8, 0x3e#8, 0x5f#8, 0x02#8, 0x03#8, 0x0b#8, 0x00#8, 0x41#8, 0x70#8, 0x03#8, 0x00#8,
   0x01#8, 0x02#8, 0x03#8, 0x42#8, 0x43#8, 0x00#8, 0x00#8, 0x61#8, 0x2e#8, 0x74#8, 0x78#8, 0x74#8, 0x00#8, 0x68#8, 0x69#8, 0x00#8,
   0xe6#8, 0xf6#8]

/-- The bytes of vector V1, the default Header. -/
def bytesV1 : Bytes := [0x1f#8, 0x8b#8, 8#8, 0#8, 0#8, 0#8, 0#8, 0#8, 0#8, 255#8]

/-- The next state of an instruction; `s` itself where there is none. -/
def after (i : Instr) (s : State) : State :=
  match exec i s with
  | .next t => t
  | .fault _ => s
  | .refused _ => s

/-- The next state of a step; `s` itself where there is none. -/
def stepped (s : State) : State :=
  match step s with
  | .next t => t
  | .fault _ => s
  | .refused _ => s

/-- The outcome of a command in short: code, the information register, `LEN`. -/
def record (s : State) : Byte × Word32 × Nat := (s.err, s.errInfo, s.len)

/-! ### WellFormed -/

theorem test_reserved_assigned_code_refused : (Instr.reserved 0x02#8).wellFormed = false := by decide
theorem test_zstring_with_zero_refused : (Instr.zstring [0x61#8, 0#8]).wellFormed = false := by decide
theorem test_long_subfield_refused : (Instr.subfield 1#8 2#8 (List.replicate 65536 0#8)).wellFormed = false := by
  simp only [Instr.wellFormed, List.length_replicate]
  decide
theorem test_long_field_enc_refused : (Instr.fieldEnc ⟨1#8, 2#8, List.replicate 65536 0#8⟩).wellFormed = false := by
  simp only [Instr.wellFormed, List.length_replicate]
  decide
theorem test_subfield_at_the_limit_accepted : (Instr.subfield 1#8 2#8 (List.replicate 65535 0#8)).wellFormed = true := by
  simp only [Instr.wellFormed, List.length_replicate]
  decide

/-! ### Decoding of written words -/

/-- R77: the codes without an operand. -/
theorem test_decode_codes : [0x01#8, 0x02#8, 0x03#8, 0x18#8, 0x19#8, 0x1A#8, 0x1B#8, 0x1C#8].map (fun c => decodeAs .cmd [c]) =
    [Instr.hdrInit, .decode, .encode, .rdCm, .rdFlg, .rdMtime, .rdXfl, .rdOs].map (fun i => .ok (i, [])) := by decide
theorem test_decode_store_codes : [0x21#8, 0x22#8, 0x25#8, 0x26#8, 0x29#8, 0x2A#8].map (fun c => decodeAs .cmd [c]) =
    [Instr.clrExtra, .rdExtra, .clrName, .rdName, .clrComment, .rdComment].map (fun i => .ok (i, [])) := by decide
/-- R77, R44: the codes with an integer operand. -/
theorem test_decode_byte_writes : [0x10#8, 0x11#8, 0x13#8, 0x14#8].map (fun c => decodeAs .cmd [c, 0x85#8]) =
    [Instr.wrCm 0x85#8, .wrFlg 0x85#8, .wrXfl 0x85#8, .wrOs 0x85#8].map (fun i => .ok (i, [])) := by decide
theorem test_decode_wrMtime :
    decodeAs .cmd [0x12#8, 0x04#8, 0x03#8, 0x02#8, 0x81#8] = .ok (.wrMtime 0x81020304#32, []) := by decide
/-- R77, entry 5: the codes with a sequence operand. -/
theorem test_decode_setExtra : decodeAs .cmd [0x20#8, 1#8, 1#8, 0x41#8, 1#8, 0x70#8, 0#8, 1#8, 0x09#8, 0#8, 0#8] =
    .ok (.setExtra [([0x41#8, 0x70#8], [0x09#8])], []) := by decide
theorem test_decode_strings : decodeAs .cmd [0x24#8, 1#8, 0x61#8, 0#8] = .ok (.setName [0x61#8], []) ∧
    decodeAs .cmd [0x28#8, 0#8] = .ok (.setComment [], []) ∧
    decodeAs .cmd [0x38#8, 1#8, 0#8, 0#8] = .ok (.crc16 [0#8], []) := by decide
theorem test_decode_fieldNew : decodeAs .cmd [0x30#8, 1#8, 0x1f#8, 1#8, 0x8b#8, 0#8, 0#8] =
    .ok (.fieldNew [0x1f#8, 0x8b#8] [], []) := by decide
/-- Q2, Q3, Q4, Q7: reserved codes. -/
theorem test_decode_reserved : [0x00#8, 0x04#8, 0xFF#8, 0x23#8].map (fun c => decodeAs .cmd [c]) =
    [0x00#8, 0x04#8, 0xFF#8, 0x23#8].map (fun c => .ok (.reserved c, [])) := by decide
/-- R61: the fixed part of V12, and a word whose magic is swapped (E5). -/
theorem test_decode_gzipFixed :
    decodeAs .wire10 [0x1f#8, 0x8b#8, 0x08#8, 0x01#8, 0x78#8, 0x56#8, 0x34#8, 0x12#8, 0x04#8, 0x03#8, 0x99#8] =
      .ok (.gzipFixed 8#8 1#8 0x12345678#32 4#8 3#8, [0x99#8]) ∧
    decodeAs .wire10 [0x8b#8, 0x1f#8, 8#8, 0#8, 0#8, 0#8, 0#8, 0#8, 0#8, 255#8] = .error (.badMagic 0x8b#8 0x1f#8) := by decide
/-- R63, R72: the rows of the FLG byte. -/
theorem test_decode_flag_rows : [0x01#8, 0x02#8, 0x04#8, 0x08#8, 0x10#8, 0xA0#8].map (fun b => decodeAs .flgsel [b]) =
    [Instr.ftext, .fhcrc, .fextra, .fname, .fcomment, .flgUnnamed 0b101#3].map (fun i => .ok (i, [])) := by decide
theorem test_decode_several_rows : decodeAs .flgsel [0x03#8] = .error .severalRows ∧
    decodeFlgSel 0xE3#8 = [.ftext, .fhcrc, .flgUnnamed 7#3] := by decide
/-- R64, R65: V6's section length and first subfield; V17's empty payload; a payload that is cut. -/
theorem test_decode_sections : decodeAs .xsec [0x0b#8, 0x00#8] = .ok (.fextraSection 11#16, []) ∧
    decodeAs .subf [0x41#8, 0x70#8, 3#8, 0#8, 1#8, 2#8, 3#8, 9#8] = .ok (.subfield 0x41#8 0x70#8 [1#8, 2#8, 3#8], [9#8]) ∧
    decodeAs .subf [0x41#8, 0x42#8, 0#8, 0#8] = .ok (.subfield 0x41#8 0x42#8 [], []) ∧
    decodeAs .subf [0x41#8, 0x42#8, 1#8, 1#8] = .error .cutShort := by decide
/-- R66, R67: a string and what follows it; K8's wire bytes. -/
theorem test_decode_string_and_checksum : decodeAs .zstr [0x61#8, 0x00#8, 0x62#8] = .ok (.zstring [0x61#8], [0x62#8]) ∧
    decodeAs .hcrc [0x90#8, 0xc9#8] = .ok (.headerCrc 0xC990#16, []) := by decide
/-- Words that are none: nothing at all, an operand cut short, a mark that is neither 0 nor 1. -/
theorem test_decode_refuses : decodeAs .cmd [] = .error .noWord ∧ decodeAs .cmd [0x10#8] = .error .cutShort ∧
    decodeAs .cmd [0x24#8, 2#8] = .error (.badMark 2#8) := by decide

/-- The host's table words: HDR_INIT, a fixed part, `xlen` 11. -/
theorem test_table_words : decodeTableWord 8 0x01 = some .hdrInit ∧
    decodeTableWord 80 0xFF000000000000088B1F = some (.gzipFixed 8#8 0#8 0#32 0#8 0xFF#8) ∧
    decodeTableWord 16 11 = some (.fextraSection 11#16) := by decide
/-- The word that is placed is the one that runs. -/
theorem test_placed_words_run : stepped (State.reset.withFetchWord 8 0x18) = after .rdCm State.reset ∧
    (stepped (State.reset.withFetchWord 16 11)).p.rem = 11#16 ∧
    (stepped (State.reset.withFetchWord 80 0xFF000000000000088B1F)).h = Header.fresh := by decide

/-! ### Header and Field operations (vectors H) -/

theorem test_H1_hdrInit : (after .hdrInit (holding headerV6)).h = ⟨8#8, 0#8, 0#32, 0#8, 255#8, none, none, none⟩ := by decide
theorem test_H3_wrCm : (after (.wrCm 255#8) State.reset).h = { Header.fresh with cm := 255#8 } := by decide
theorem test_H4_wrMtime : (after (.wrMtime 0xFFFFFFFF#32) State.reset).h = { Header.fresh with mtime := 0xFFFFFFFF#32 } := by
  decide
theorem test_H5_wrXfl_wrOs : (after (.wrOs 3#8) (after (.wrXfl 2#8) State.reset)).h =
    { Header.fresh with xfl := 2#8, os := 3#8 } := by decide
theorem test_H6_wrFlg_keeps_presence : (after (.wrFlg 0xFF#8) State.reset).h.flg = 0xE3#8 := by decide
theorem test_H7_wrFlg_keeps_name : (after (.wrFlg 0#8) (after (.setName [0x61#8]) State.reset)).h =
    { Header.fresh with flg := 0x08#8, name := some [0x61#8] } := by decide
theorem test_H10_empty_name_is_present : (after (.setName []) State.reset).h =
    { Header.fresh with flg := 0x08#8, name := some [] } := by decide
theorem test_H11_clrName : (after .clrName (after (.setName [0x61#8]) State.reset)).h = Header.fresh := by decide
theorem test_H12_comment : (after .rdComment (after (.setComment [0x68#8, 0x69#8]) State.reset)).out.rsp =
    some (.ok (.optBytes (some [0x68#8, 0x69#8]))) := by decide
theorem test_H14_empty_extra_is_present : (after (.setExtra []) State.reset).h =
    { Header.fresh with flg := 0x04#8, extra := some [] } := by decide
theorem test_H16_setExtra_faults : record (after (.setExtra [([0x41#8, 0x70#8], [1#8]), ([0x42#8], [9#8])]) State.reset) =
    (4#8, 0x00000001#32, 0) := by decide
theorem test_H18_clrExtra : (after .rdExtra (after .clrExtra (holding headerV6))).out.rsp = some (.ok (.optFields none)) := by
  decide
theorem test_H19_fieldNew : (after (.fieldNew [0x1f#8, 0x8b#8] [0x65#8]) State.reset).out.rsp =
    some (.ok (.field ⟨0x1f#8, 0x8b#8, [0x65#8]⟩)) := by decide
theorem test_H21_fieldNew_faults : record (after (.fieldNew [] [1#8]) State.reset) = (4#8, 0#32, 0) := by decide
theorem test_H22_clrComment : (after .clrComment (holding headerV6)).h = { headerV6 with flg := 0x0F#8, comment := none } := by
  decide
theorem test_H23_reads : [after .rdCm State.reset, after .rdFlg State.reset, after .rdMtime State.reset, after .rdXfl State.reset,
    after .rdOs State.reset].map (fun s => s.out.rsp) =
    [Value.u8 8#8, .u8 0#8, .u32 0#32, .u8 0#8, .u8 255#8].map (fun v => some (.ok v)) := by decide
theorem test_H24_zero_byte_accepted : (after (.setName [0x61#8, 0#8, 0x62#8]) State.reset).h.valid = false ∧
    (after .rdName (after (.setName [0x61#8, 0#8, 0x62#8]) State.reset)).out.rsp =
      some (.ok (.optBytes (some [0x61#8, 0#8, 0x62#8]))) := by decide
/-- The values given after the table of section 2.1. -/
theorem test_field_procedures : (after (.fieldLen ⟨0x42#8, 0x43#8, []⟩) State.reset).ret = .nat 4 ∧
    (after (.fieldEnc ⟨0x41#8, 0x70#8, [1#8, 2#8, 3#8]⟩) State.reset).ret =
      .bytes [0x41#8, 0x70#8, 3#8, 0#8, 1#8, 2#8, 3#8] := by decide

/-! ### Byte Reader (vectors B) -/

theorem test_B1_read : (after (.brRead 2) (after .brOpen (bound [0x1f#8, 0x8b#8, 8#8]))).r = ⟨true, [0x1f#8, 0x8b#8], 2⟩ := by
  decide
theorem test_B2_short_read : (after (.brRead 8) (after (.brRead 2) (bound [0x1f#8, 0x8b#8, 8#8]))).r =
    ⟨true, [0x1f#8, 0x8b#8], 3⟩ ∧
    record (after (.brRead 8) (after (.brRead 2) (bound [0x1f#8, 0x8b#8, 8#8]))) = (2#8, 0x00010008#32, 3) := by decide
theorem test_B5_snapshot : (after .brSnapshot (after (.brRead 2) (bound [1#8, 2#8, 3#8]))).ret = .bytes [1#8, 2#8] := by decide
theorem test_parse_procedures : (after .parseExtra (bound [4#8, 0#8, 0x41#8, 0x42#8, 0#8, 0#8, 7#8])).ret =
    .fields [⟨0x41#8, 0x42#8, []⟩] ∧
    (after (.parseZstr .name) (bound [0x61#8, 0#8, 0x62#8])).ret = .bytes [0x61#8] := by decide

/-! ### DECODE and ENCODE (vectors V, E, N) -/

theorem test_V6_decode : (after .decode (bound (bytesV6 ++ [0xaa#8]))).h = headerV6 ∧
    (after .decode (bound (bytesV6 ++ [0xaa#8]))).len = 34 ∧ avail (after .decode (bound (bytesV6 ++ [0xaa#8]))) = [0xaa#8] := by
  decide +kernel
/-- V6 with its last byte changed (E22), and a malformed second subfield (E15). -/
theorem test_E22_E15_decode : record (after .decode (bound (bytesV6.take 33 ++ [0xf7#8]))) = (3#8, 0xF7E6F6E6#32, 34) ∧
    record (after .decode (bound [0x1f#8, 0x8b#8, 8#8, 4#8, 0#8, 0#8, 0#8, 0#8, 0#8, 255#8, 6#8, 0#8, 0x41#8, 0x42#8, 1#8, 0#8, 9#8,
      7#8])) = (5#8, 0x00000001#32, 17) := by decide +kernel
theorem test_N5_encode : (after .encode (holding headerV6)).out.snk = sinkBytes bytesV6 ∧ (after .encode (holding headerV6)).len = 34 := by
  decide +kernel
/-- N9's kind: a section that does not fit. -/
theorem test_N10_overflow : encodeOverflows
    { Header.fresh with flg := 4#8, extra := some [⟨1#8, 2#8, List.replicate 65536 0#8⟩] } = true := by
  simp only [encodeOverflows, List.any_cons, List.length_replicate]
  decide

/-! ### Checksum unit (vectors K), reserved codes (Q), reset (T) -/

theorem test_K5_crc : (after (.crc32 [0x1f#8, 0x8b#8]) State.reset).ret = .u32 0xF6E946C9#32 ∧
    (after (.crc16Fn [0x1f#8, 0x8b#8]) State.reset).ret = .u16 0x46C9#16 := by decide +kernel
theorem test_K3_crc16 : (after (.crc16 [0#8]) State.reset).out.rsp = some (.ok (.u16 0xEF8D#16)) := by decide +kernel
theorem test_Q4_reserved : record (after (.reserved 0xFF#8) State.reset) = (8#8, 0x000000FF#32, 0) := by decide
theorem test_Q5_record_overwritten : record (after .rdFlg (after (.reserved 0xFF#8) State.reset)) = (0#8, 0#32, 0) := by decide
theorem test_T3_unbound_decode : record (after .decode State.reset) = (2#8, 0x00000002#32, 0) := by decide

/-! ### The wire format and the steps (program P6) -/

/-- P6, step 10: the fixed part is complete. -/
theorem test_P6_fixed : (after (.gzipFixed 8#8 0x1f#8 0x5F3E2D1C#32 2#8 3#8) (parsing .fixed 8 [] [] 0#8)).p.ph = .xlen := by decide
/-- P6, step 12: the section length. -/
theorem test_P6_xlen : (after (.fextraSection 11#16) (parsing .xlen 2 [] [] 0x1f#8)).p.ph = .sfTag ∧
    (after (.fextraSection 11#16) (parsing .xlen 2 [] [] 0x1f#8)).p.rem = 11#16 := by decide
/-- P6, step 23: an empty subfield ends the section. -/
theorem test_P6_subfield : (after (.subfield 0x42#8 0x43#8 [])
    (State.reset.setP { (parsing .sfLen 2 [] [] 0x1f#8).p with rem := 4#16 })).p.ph = .name := by decide
/-- P6, steps 29 and 34. -/
theorem test_P6_string_and_checksum : (after (.zstring [0x61#8]) (parsing .name 0 [] [0x61#8] 0x1f#8)).p.ph = .comment ∧
    (after (.headerCrc 0xF6E6#16) (State.reset.setP { (parsing .hcrc 2 [] [] 2#8).p with snap := 0xF6E6#16 })).h.flg = 2#8 := by
  decide
/-- R146: a flag test selects its section, or nothing. -/
theorem test_flag_tests : (after .fextra (parsing .fixed 8 [] [] 0x04#8)).p.ph = .xlen ∧
    (after .fname (parsing .fixed 8 [] [] 0x04#8)).p.ph = .fixed ∧ (after .fcomment (parsing .name 0 [] [] 0x10#8)).p.ph = .comment ∧
    (after .fhcrc (parsing .fixed 8 [] [] 0x02#8)).p.ph = .hcrc := by decide +kernel
/-- P6, step 2, and the source's end after one byte of the magic (E2). -/
theorem test_P6_magic_step :
    (stepped { parsing .magic 1 [0x1f#8] [] 0#8 with r := ⟨true, [0x1f#8], 1⟩, out := { State.reset.out with src := [0x8b#8] } }).p.ph =
      .fixed ∧
    record (stepped { parsing .magic 1 [0x1f#8] [] 0#8 with r := ⟨true, [0x1f#8], 1⟩ }) = (2#8, 0x00010002#32, 1) := by decide
/-- T4: reset in the middle of a DECODE; the source keeps what was not pulled. -/
theorem test_T4_reset : (stepped { parsing .fixed 3 [8#8, 0#8, 0#8] [] 0#8 with
      r := ⟨true, [0x1f#8, 0x8b#8, 8#8, 0#8, 0#8], 5⟩
      out := { State.reset.out with src := [7#8], script := [.reset 0] } }) =
    { State.reset with out := { State.reset.out with src := [7#8] } } := by decide
/-- R172: the serializer's last byte of the default Header delivers. -/
theorem test_serializer_last_byte : (stepped { State.reset with
      ser := ⟨.sFixed, 9, [0x1f#8, 0x8b#8, 8#8, 0#8, 0#8, 0#8, 0#8, 0#8, 0#8], 0#16⟩ }).out.snk = sinkBytes bytesV1 := by decide

/-- R55, the SNK row: the mark stands on the final byte. -/
theorem test_sink_marks_the_last : sinkBytes [7#8, 8#8] = [⟨7#8, false⟩, ⟨8#8, true⟩] := by decide

/-! ### Witnesses: for every statement with hypotheses, a state and operands that meet them together -/

/-- A field of the word. -/
abbrev fieldA : Field := ⟨0x41#8, 0x42#8, [9#8]⟩

theorem witness_ResetAbandonsTheCommand : ∃ (s : State) (k : Nat) (rest : List HostAction),
    s.out.script = .reset k :: rest ∧ busy s = true ∧ k = 0 :=
  ⟨(parsing .fixed 3 [] [] 0#8).setOut { State.reset.out with script := [.reset 0] }, 0, [], by decide⟩
theorem witness_ResetAbandonsTheCommand_idle : ∃ (s : State) (k : Nat) (rest : List HostAction),
    s.out.script = .reset k :: rest ∧ busy s = false ∧ k = 5 :=
  ⟨State.reset.setOut { State.reset.out with script := [.reset 5] }, 5, [], by decide⟩

theorem witness_IdleBlock_bindSrc : ∃ (s : State) (rest : List HostAction) (b : Bytes), busy s = false ∧
    s.out.script = .bindSrc b :: rest := ⟨withScript [.bindSrc [1#8]] State.reset, [], [1#8], by decide⟩
theorem witness_IdleBlock_readReg_first : ∃ (s : State) (rest : List HostAction) (i : Nat) (v : Value), busy s = false ∧
    s.out.script = .readReg i :: rest ∧ [Value.u8 s.h.cm, .u8 s.h.flg, .u32 s.h.mtime, .u8 s.h.xfl, .u8 s.h.os,
      .optFields s.h.extra, .optBytes s.h.name, .optBytes s.h.comment, .bits3 s.status, .u8 s.err, .u32 s.errInfo,
      .nat s.len][i]? = some v ∧ i = 0 := ⟨withScript [.readReg 0] State.reset, [], 0, .u8 8#8, by decide⟩
theorem witness_IdleBlock_readReg_last : ∃ (s : State) (rest : List HostAction) (i : Nat) (v : Value), busy s = false ∧
    s.out.script = .readReg i :: rest ∧ [Value.u8 s.h.cm, .u8 s.h.flg, .u32 s.h.mtime, .u8 s.h.xfl, .u8 s.h.os,
      .optFields s.h.extra, .optBytes s.h.name, .optBytes s.h.comment, .bits3 s.status, .u8 s.err, .u32 s.errInfo,
      .nat s.len][i]? = some v ∧ i = 11 := ⟨withScript [.readReg 11] State.reset, [], 11, .nat 0, by decide⟩
theorem witness_IdleBlock_readReg_none : ∃ (s : State) (rest : List HostAction) (i : Nat), busy s = false ∧
    s.out.script = .readReg i :: rest ∧ 12 ≤ i := ⟨withScript [.readReg 12] State.reset, [], 12, by decide⟩
theorem witness_IdleBlock_waits : ∃ s : State, busy s = false ∧ s.out.script = [] := ⟨State.reset, by decide⟩
theorem witness_StepRunsTheDecodedCommand : ∃ (s : State) (bs tail : Bytes) (rest : List HostAction) (i : Instr),
    busy s = false ∧ s.out.script = .cmd bs :: rest ∧ decodeAs .cmd bs = .ok (i, tail) :=
  ⟨withScript [.cmd [0x10#8, 7#8, 9#8]] State.reset, [0x10#8, 7#8, 9#8], [9#8], [], .wrCm 7#8, by decide⟩

theorem witness_ReadsReturnTheRegister : ∃ (s : State) (i : Instr) (code : Byte) (v : Value),
    (i, code, v) ∈ [(Instr.rdCm, 0x18#8, Value.u8 s.h.cm), (.rdFlg, 0x19#8, .u8 s.h.flg), (.rdMtime, 0x1A#8, .u32 s.h.mtime),
      (.rdXfl, 0x1B#8, .u8 s.h.xfl), (.rdOs, 0x1C#8, .u8 s.h.os), (.rdExtra, 0x22#8, .optFields s.h.extra),
      (.rdName, 0x26#8, .optBytes s.h.name), (.rdComment, 0x2A#8, .optBytes s.h.comment)] :=
  ⟨State.reset, .rdComment, 0x2A#8, .optBytes none, by decide⟩
theorem witness_SetExtraStoresTheFields : ∃ (fs : List Field) (s : State),
    ∀ c, s.params.extraCap = some c → (fs.map (fun f => 4 + f.data.length)).sum ≤ c :=
  ⟨[fieldA], withParams { tight with extraCap := some 5 } State.reset, fun c h => by cases h; decide⟩
theorem witness_SetExtraFaultsAtTheFirstBadIds : ∃ ids : Bytes, ids.length ≠ 2 := ⟨[0x42#8], by decide⟩
theorem witness_SetStringsStoreTheText : ∃ (text : Bytes) (s : State),
    (∀ c, s.params.nameCap = some c → text.length ≤ c) ∧ (∀ c, s.params.commentCap = some c → text.length ≤ c) :=
  ⟨[0#8], withParams tight State.reset, fun c h => by cases h; decide, fun c h => by cases h; decide⟩
theorem witness_SettersFaultAboveCapacity : ∃ (fs : List Field) (text : Bytes) (c : Nat) (s : State),
    (s.params.extraCap = some c ∧ c < (fs.map (fun f => 4 + f.data.length)).sum) ∧
    (s.params.nameCap = some c ∧ c < text.length) ∧ (s.params.commentCap = some c ∧ c < text.length) :=
  ⟨[fieldA], [1#8, 2#8], 1, withParams tight State.reset, by decide⟩
theorem witness_FieldNewChecksTheIds : ∃ ids : Bytes, ids.length ≠ 2 := ⟨[1#8, 2#8, 3#8], by decide⟩
theorem witness_FieldProcedures_in : ∃ f : Field, f.data.length = 65535 :=
  ⟨⟨1#8, 2#8, List.replicate 65535 0#8⟩, List.length_replicate⟩
theorem witness_FieldProcedures_out : ∃ f : Field, f.data.length = 65536 :=
  ⟨⟨1#8, 2#8, List.replicate 65536 0#8⟩, List.length_replicate⟩

theorem witness_ReservedCodes : ∃ code : Byte, code ∉ assignedCodes := ⟨0x00#8, by decide⟩
theorem witness_DecodeReadsEveryEncodedInstruction : ∃ (i : Instr) (fmt : Format) (bs : Bytes), i.wellFormed = true ∧
    encodeInstr i = some (fmt, bs) := ⟨.subfield 1#8 2#8 [3#8], .subf, [1#8, 2#8, 1#8, 0#8, 3#8], by decide⟩
theorem witness_EncodeRebuildsEveryDecodedWord : ∃ (fmt : Format) (bs rest : Bytes) (i : Instr),
    decodeAs fmt bs = .ok (i, rest) := ⟨.zstr, [0x61#8, 0#8, 7#8], [7#8], .zstring [0x61#8], by decide⟩

theorem witness_ReadReturnsTheNextBytes : ∃ (n : Nat) (s : State), n ≤ (avail s).length ∧ n = 2 :=
  ⟨2, bound [1#8, 2#8], by decide⟩
theorem witness_ReadReturnsTheNextBytes_unbound : ∃ (n : Nat) (s : State), n ≤ (avail s).length ∧ s.r.bound = false :=
  ⟨0, State.reset, by decide⟩
theorem witness_ShortReadIsFatal : ∃ (n : Nat) (s : State), (avail s).length < n ∧ n ≤ 65535 ∧ n = 65535 :=
  ⟨65535, bound [1#8], by decide⟩
theorem witness_ShortReadIsFatal_unbound : ∃ (n : Nat) (s : State), (avail s).length < n ∧ n ≤ 65535 ∧ s.r.bound = false :=
  ⟨1, State.reset, by decide⟩
theorem witness_ParseExtraReadsTheFields : ∃ (fs : List Field) (rest : Bytes) (s : State), extraLen fs ≤ 65535 ∧
    overCap s.params.extraCap (extraLen fs) = false ∧
    avail s = le16 (BitVec.ofNat 16 (extraLen fs)) ++ extraBody fs ++ rest :=
  ⟨[fieldA], [7#8], bound [5#8, 0#8, 0x41#8, 0x42#8, 1#8, 0#8, 9#8, 7#8], by decide⟩
theorem witness_ParseZstrReadsUpToTheZero : ∃ (sec : StrSection) (text rest : Bytes) (s : State), 0#8 ∉ text ∧
    overCap (strCap sec s.params) text.length = false ∧ avail s = text ++ 0#8 :: rest :=
  ⟨.comment, [1#8], [7#8], withParams tight (bound [1#8, 0#8, 7#8]), by decide⟩

theorem witness_DecodeEndsAndConsumesLen : ∃ s : State, s.params.grain = .operation ∧ s.r.bound = false ∧
    ((avail s).getD 3 0#8).getLsbD 1 = false := ⟨State.reset, by decide⟩
theorem witness_DecodeRejectsATruncatedStart : ∃ s : State, s.params.grain = .operation ∧ (avail s).length < 2 :=
  ⟨bound [0x1f#8], by decide⟩
theorem witness_DecodeRejectsATruncatedStart_fixed : ∃ (s : State) (rest : Bytes), s.params.grain = .operation ∧
    avail s = 0x1f#8 :: 0x8b#8 :: rest ∧ rest.length < 8 :=
  ⟨bound [0x1f#8, 0x8b#8, 8#8, 0#8, 0#8, 0#8, 0#8, 0#8, 0#8], [8#8, 0#8, 0#8, 0#8, 0#8, 0#8, 0#8], by decide⟩
theorem witness_DecodeRejectsAWrongMagic : ∃ (s : State) (a b : Byte) (rest : Bytes), s.params.grain = .operation ∧
    avail s = a :: b :: rest ∧ ¬(a = 0x1f#8 ∧ b = 0x8b#8) := ⟨bound [0x1f#8, 0x8c#8], 0x1f#8, 0x8c#8, [], by decide⟩
/-- E13: `xlen` 3, and E14: a payload that does not fit. -/
theorem witness_DecodeRejectsAMalformedExtra : ∃ (s : State) (flg l0 l1 : Byte) (more : Bytes), s.params.grain = .operation ∧
    flg.getLsbD 2 = true ∧ overCap s.params.extraCap (l0.toNat + 256 * l1.toNat) = false ∧
    avail s = [0x1f#8, 0x8b#8, 8#8, flg, 0#8, 0#8, 0#8, 0#8, 0#8, 255#8, l0, l1] ++ more ∧
    1 ≤ l0.toNat + 256 * l1.toNat ∧ l0.toNat + 256 * l1.toNat ≤ 3 :=
  ⟨bound [0x1f#8, 0x8b#8, 8#8, 4#8, 0#8, 0#8, 0#8, 0#8, 0#8, 255#8, 3#8, 0#8, 1#8, 2#8, 3#8], 4#8, 3#8, 0#8, [1#8, 2#8, 3#8],
    by decide⟩
theorem witness_DecodeRejectsAMalformedExtra_payload : ∃ (s : State) (flg l0 l1 i0 i1 q0 q1 : Byte) (more rest : Bytes),
    s.params.grain = .operation ∧ flg.getLsbD 2 = true ∧ overCap s.params.extraCap (l0.toNat + 256 * l1.toNat) = false ∧
    avail s = [0x1f#8, 0x8b#8, 8#8, flg, 0#8, 0#8, 0#8, 0#8, 0#8, 255#8, l0, l1] ++ more ∧
    more = [i0, i1, q0, q1] ++ rest ∧ 4 ≤ l0.toNat + 256 * l1.toNat ∧
    l0.toNat + 256 * l1.toNat < 4 + (q0.toNat + 256 * q1.toNat) :=
  ⟨bound [0x1f#8, 0x8b#8, 8#8, 4#8, 0#8, 0#8, 0#8, 0#8, 0#8, 255#8, 5#8, 0#8, 0x41#8, 0x42#8, 2#8, 0#8, 9#8, 9#8],
    4#8, 5#8, 0#8, 0x41#8, 0x42#8, 2#8, 0#8, [0x41#8, 0x42#8, 2#8, 0#8, 9#8, 9#8], [9#8, 9#8], by decide⟩
theorem witness_DecodeRejectsAnUnterminatedString : ∃ (s : State) (flg : Byte) (text : Bytes), s.params.grain = .operation ∧
    0#8 ∉ text ∧ avail s = [0x1f#8, 0x8b#8, 8#8, flg, 0#8, 0#8, 0#8, 0#8, 0#8, 255#8] ++ text ∧
    flg &&& 0x0C#8 = 0x08#8 ∧ s.params.nameCap = none :=
  ⟨bound [0x1f#8, 0x8b#8, 8#8, 8#8, 0#8, 0#8, 0#8, 0#8, 0#8, 255#8, 0x61#8], 8#8, [0x61#8], by decide⟩
theorem witness_DecodeRejectsAnUnterminatedString_comment : ∃ (s : State) (flg : Byte) (text : Bytes),
    s.params.grain = .operation ∧ 0#8 ∉ text ∧ avail s = [0x1f#8, 0x8b#8, 8#8, flg, 0#8, 0#8, 0#8, 0#8, 0#8, 255#8] ++ text ∧
    flg &&& 0x1C#8 = 0x10#8 ∧ s.params.commentCap = none :=
  ⟨bound [0x1f#8, 0x8b#8, 8#8, 0x10#8, 0#8, 0#8, 0#8, 0#8, 0#8, 255#8], 0x10#8, [], by decide⟩
theorem witness_DecodeFaultsAboveCapacity_extra : ∃ (s : State) (flg l0 l1 : Byte) (rest more : Bytes) (c : Nat),
    s.params.grain = .operation ∧ avail s = [0x1f#8, 0x8b#8, 8#8, flg, 0#8, 0#8, 0#8, 0#8, 0#8, 255#8] ++ more ∧
    flg.getLsbD 2 = true ∧ s.params.extraCap = some c ∧ more = l0 :: l1 :: rest ∧ c < l0.toNat + 256 * l1.toNat :=
  ⟨withParams tight (bound [0x1f#8, 0x8b#8, 8#8, 4#8, 0#8, 0#8, 0#8, 0#8, 0#8, 255#8, 2#8, 0#8]), 4#8, 2#8, 0#8, [],
    [2#8, 0#8], 1, by decide⟩
theorem witness_DecodeFaultsAboveCapacity_strings : ∃ (s : State) (flg : Byte) (text rest more : Bytes) (c : Nat),
    s.params.grain = .operation ∧ avail s = [0x1f#8, 0x8b#8, 8#8, flg, 0#8, 0#8, 0#8, 0#8, 0#8, 255#8] ++ more ∧
    flg &&& 0x0C#8 = 0x08#8 ∧ s.params.nameCap = some c ∧ more = text ++ rest ∧ 0#8 ∉ text ∧ text.length = c + 1 :=
  ⟨withParams tight (bound [0x1f#8, 0x8b#8, 8#8, 8#8, 0#8, 0#8, 0#8, 0#8, 0#8, 255#8, 1#8, 2#8, 0#8]), 8#8, [1#8, 2#8], [0#8],
    [1#8, 2#8, 0#8], 1, by decide⟩
theorem witness_DecodeFaultsAboveCapacity_comment : ∃ (s : State) (flg : Byte) (text rest more : Bytes) (c : Nat),
    s.params.grain = .operation ∧ avail s = [0x1f#8, 0x8b#8, 8#8, flg, 0#8, 0#8, 0#8, 0#8, 0#8, 255#8] ++ more ∧
    flg &&& 0x1C#8 = 0x10#8 ∧ s.params.commentCap = some c ∧ more = text ++ rest ∧ 0#8 ∉ text ∧ text.length = c + 1 :=
  ⟨withParams tight (bound [0x1f#8, 0x8b#8, 8#8, 0x10#8, 0#8, 0#8, 0#8, 0#8, 0#8, 255#8, 1#8, 2#8]), 0x10#8, [1#8, 2#8], [],
    [1#8, 2#8], 1, by decide⟩
/-- E12 and E11. -/
theorem witness_DecodeChecksTheChecksum : ∃ (s : State) (h : Header) (b0 b1 : Byte) (rest : Bytes),
    s.params.grain = .operation ∧ h.valid = true ∧ h.withinCaps s.params = true ∧ h.flg.getLsbD 1 = true ∧
    avail s = plainBytes h ++ b0 :: b1 :: rest ∧ (b1 ++ b0 : Half) ≠ crc16Of (plainBytes h) :=
  ⟨bound [0x1f#8, 0x8b#8, 8#8, 2#8, 0#8, 0#8, 0#8, 0#8, 0#8, 255#8, 0x26#8, 0x25#8], { Header.fresh with flg := 2#8 },
    0x26#8, 0x25#8, [], by decide +kernel⟩
theorem witness_DecodeChecksTheChecksum_short : ∃ (s : State) (h : Header) (more : Bytes),
    s.params.grain = .operation ∧ h.valid = true ∧ h.withinCaps s.params = true ∧ h.flg.getLsbD 1 = true ∧
    avail s = plainBytes h ++ more ∧ more.length < 2 :=
  ⟨bound [0x1f#8, 0x8b#8, 8#8, 2#8, 0#8, 0#8, 0#8, 0#8, 0#8, 255#8, 0x26#8], { Header.fresh with flg := 2#8 }, [0x26#8],
    by decide⟩
theorem witness_DecodedHeaderIsValidAndExact : ∃ s t : State, s.params.grain = .operation ∧ exec .decode s = .next t ∧
    t.ranOk .unit := ⟨bound bytesV1, decodeWhole (bound bytesV1), rfl, rfl, rfl, rfl, rfl, rfl⟩
theorem witness_DecodeDependsOnTheSourceAlone : ∃ s s' t t' : State, s.params.grain = .operation ∧ s'.params = s.params ∧
    avail s' = avail s ∧ exec .decode s = .next t ∧ exec .decode s' = .next t' ∧ s' ≠ s ∧ t.out.rsp = some (.ok .unit) :=
  ⟨bound bytesV1, (bound bytesV1).setH headerV6, decodeWhole (bound bytesV1), decodeWhole ((bound bytesV1).setH headerV6),
    rfl, rfl, rfl, rfl, rfl, by decide, rfl⟩

theorem witness_EncodeEmitsTheHeader : ∃ s : State, s.params.grain = .operation ∧
    (∀ fs, s.h.extra = some fs → (∀ f ∈ fs, f.data.length ≤ 65535) ∧
      (fs.map (fun f => 4 + f.data.length)).sum ≤ 65535) ∧ s.h = headerV6 :=
  ⟨holding headerV6, rfl, fun fs h => by cases h; decide, rfl⟩
theorem witness_EncodeFaultsOnOverflow : ∃ (s : State) (fs : List Field), s.h.extra = some fs ∧
    ∃ f ∈ fs, 65535 < f.data.length :=
  ⟨holding { Header.fresh with extra := some [⟨1#8, 2#8, List.replicate 65536 0#8⟩] }, [⟨1#8, 2#8, List.replicate 65536 0#8⟩],
    rfl, _, List.mem_singleton.mpr rfl, by rw [List.length_replicate]; decide⟩
theorem witness_EncodeFaultsOnOverflow_sum : ∃ (s : State) (fs : List Field), s.h.extra = some fs ∧
    65535 < (fs.map (fun f => 4 + f.data.length)).sum ∧ ∀ f ∈ fs, f.data.length ≤ 65535 :=
  ⟨holding { Header.fresh with extra := some [⟨1#8, 2#8, List.replicate 65532 0#8⟩] }, [⟨1#8, 2#8, List.replicate 65532 0#8⟩],
    rfl, by simp only [List.map_cons, List.map_nil, List.sum_cons, List.sum_nil, List.length_replicate]; decide,
    fun f hf => by rw [List.mem_singleton.mp hf]; simp only [List.length_replicate]; decide⟩
theorem witness_EncodedLengthIsTheFormula : ∃ (s t : State) (out : Bytes), s.params.grain = .operation ∧
    s.h.flagsAgree = true ∧ exec .encode s = .next t ∧ t.ranOk (.bytes out) :=
  ⟨State.reset, encodeWhole State.reset, bytesV1, rfl, by decide, rfl, rfl, rfl, rfl, rfl⟩
theorem witness_ChecksumTogglesAndRestores : ∃ (s t0 : State) (e0 : Bytes), s.params.grain = .operation ∧
    s.h.flg.getLsbD 1 = false ∧ exec .encode s = .next t0 ∧ t0.ranOk (.bytes e0) :=
  ⟨State.reset, encodeWhole State.reset, bytesV1, rfl, by decide, rfl, rfl, rfl, rfl, rfl⟩
theorem witness_EncodeReturnsTheDecodedBytes : ∃ s t : State, s.params.grain = .operation ∧ exec .decode s = .next t ∧
    t.ranOk .unit := ⟨bound bytesV1, decodeWhole (bound bytesV1), rfl, rfl, rfl, rfl, rfl, rfl⟩
theorem witness_DecodeRecoversTheEncodedHeader : ∃ (s d : State) (rest : Bytes), s.params.grain = .operation ∧
    s.h.valid = true ∧ d.params.grain = .operation ∧ s.h.withinCaps d.params = true ∧ avail d = headerBytes s.h ++ rest :=
  ⟨holding headerV6, bound (bytesV6 ++ [0xaa#8]), [0xaa#8], by decide +kernel⟩

/-- With no section, and with one of each kind first. -/
theorem witness_FixedPartIsLatched : ∃ (s : State) (flg : Byte), (s.p.ph = .magic ∨ s.p.ph = .fixed) ∧
    flg &&& 0x1E#8 = 0#8 := ⟨parsing .magic 1 [] [] 0#8, 0xE1#8, by decide⟩
theorem witness_FixedPartIsLatched_sections : ∃ (s : State) (flg : Byte), (s.p.ph = .magic ∨ s.p.ph = .fixed) ∧
    flg &&& 0x1E#8 ≠ 0#8 := ⟨parsing .fixed 8 [] [] 0#8, 0x02#8, by decide⟩
theorem witness_FlagTestsSelectTheirSections : ∃ (s : State) (i : Instr) (bit : Nat) (target : Phase) (before : List Phase),
    (i, bit, target, before) ∈
      [(Instr.fextra, 2, Phase.xlen, [Phase.fixed]), (.fname, 3, .name, [.fixed, .xlen, .sfTag, .sfLen, .sfData]),
       (.fcomment, 4, .comment, [.fixed, .xlen, .sfTag, .sfLen, .sfData, .name]),
       (.fhcrc, 1, .hcrc, [.fixed, .xlen, .sfTag, .sfLen, .sfData, .name, .comment])] ∧ s.p.ph ∈ before ∧
    s.p.w.flg.getLsbD bit = true := ⟨parsing .fixed 8 [] [] 2#8, .fhcrc, 1, .hcrc, _,
      .tail _ (.tail _ (.tail _ (.head _))), .head _, by decide⟩
theorem witness_FlagTestsSelectTheirSections_clear : ∃ (s : State) (before : List Phase),
    before = [Phase.fixed] ∧ s.p.ph ∈ before ∧ s.p.w.flg.getLsbD 2 = false :=
  ⟨parsing .fixed 8 [] [] 0#8, [.fixed], by decide⟩
theorem witness_SectionLengthIsLatched_capacity : ∃ (xlen : Half) (s : State), s.p.ph = .xlen ∧
    overCap s.params.extraCap xlen.toNat = true := ⟨2#16, withParams tight (parsing .xlen 2 [] [] 4#8), by decide⟩
/-- The three ranges of `xlen` at their ends. -/
theorem witness_SectionLengthIsLatched : ∃ s : State, s.p.ph = .xlen ∧
    (∀ xlen ∈ [0#16, 1#16, 3#16, 4#16], overCap s.params.extraCap xlen.toNat = false) ∧ nextPhase 1 s.p.w.flg ≠ none :=
  ⟨parsing .xlen 2 [] [] 0x0C#8, rfl, fun _ _ => rfl, by decide⟩
theorem witness_SectionLengthIsLatched_last : ∃ s : State, s.p.ph = .xlen ∧ overCap s.params.extraCap 0 = false ∧
    nextPhase 1 s.p.w.flg = none := ⟨parsing .xlen 2 [] [] 0x04#8, by decide⟩
/-- What is left after the subfield is 0 to 4, at the ends of the ranges; and a payload one byte too long. -/
theorem witness_SubfieldIsAppended : ∃ (data : Bytes) (fs : List Field), data.length ≤ 65535 ∧
    ∀ rem ∈ [4#16, 5#16, 6#16, 8#16, 9#16], ∃ s : State, s.p.ph = .sfData ∧ s.p.w.extra = some fs ∧ s.p.rem = rem ∧
      nextPhase 1 s.p.w.flg ≠ none :=
  ⟨[9#8], [], by decide, fun rem _ => ⟨State.reset.setP { Parser.atReset with
    ph := .sfData, rem := rem, w := { Header.fresh with flg := 0x0C#8, extra := some [] } }, rfl, rfl, rfl,
    show nextPhase 1 0x0C#8 ≠ none by decide⟩⟩
theorem witness_SubfieldIsAppended_last : ∃ (s : State) (data : Bytes) (fs : List Field), s.p.ph = .sfData ∧
    data.length ≤ 65535 ∧ s.p.w.extra = some fs ∧ 4 + data.length = s.p.rem.toNat ∧ nextPhase 1 s.p.w.flg = none :=
  ⟨State.reset.setP { Parser.atReset with
    ph := .sfData, rem := 5#16, w := { Header.fresh with flg := 0x04#8, extra := some [] } }, [9#8], [], by decide⟩
theorem witness_StringGoesToItsStore_name : ∃ (s : State) (text : Bytes), s.p.ph = .name ∧
    overCap s.params.nameCap text.length = false ∧ nextPhase 2 s.p.w.flg ≠ none :=
  ⟨withParams tight (parsing .name 0 [] [] 0x18#8), [1#8], by decide⟩
theorem witness_StringGoesToItsStore_name_last : ∃ (s : State) (text : Bytes), s.p.ph = .name ∧
    overCap s.params.nameCap text.length = false ∧ nextPhase 2 s.p.w.flg = none :=
  ⟨parsing .name 0 [] [] 0x08#8, [1#8], by decide⟩
theorem witness_StringGoesToItsStore_comment : ∃ (s : State) (text : Bytes), s.p.ph = .comment ∧
    overCap s.params.commentCap text.length = false ∧ s.p.w.flg.getLsbD 1 = true :=
  ⟨parsing .comment 0 [] [] 0x12#8, [1#8], by decide⟩
theorem witness_StringGoesToItsStore_comment_last : ∃ (s : State) (text : Bytes), s.p.ph = .comment ∧
    overCap s.params.commentCap text.length = false ∧ s.p.w.flg.getLsbD 1 = false :=
  ⟨parsing .comment 0 [] [] 0x10#8, [1#8], by decide⟩
theorem witness_StoredChecksumDecides : ∃ (s : State) (a b : Half), s.p.ph = .hcrc ∧ a = s.p.snap ∧ b ≠ s.p.snap :=
  ⟨parsing .hcrc 2 [] [] 2#8, 0#16, 1#16, by decide⟩
theorem witness_ElementsWaitForTheirPhase : ∃ (i : Instr) (own : List Phase) (s : State),
    (∃ v, (i, own) = (Instr.headerCrc v, [Phase.hcrc])) ∧ s.p.ph ≠ .idle ∧ s.p.ph ∉ own :=
  ⟨.headerCrc 0#16, [.hcrc], parsing .comment 0 [] [] 2#8, ⟨0#16, rfl⟩, by decide⟩
theorem witness_ElementsWaitForTheirPhase_idle : ∃ (i : Instr) (own : List Phase) (s : State),
    (i, own) ∈ ([(.fextra, [.fixed]), (.fname, [.fixed, .xlen, .sfTag, .sfLen, .sfData]),
      (.fcomment, [.fixed, .xlen, .sfTag, .sfLen, .sfData, .name]),
      (.fhcrc, [.fixed, .xlen, .sfTag, .sfLen, .sfData, .name, .comment])] : List (Instr × List Phase)) ∧ s.p.ph = .idle :=
  ⟨.fextra, [.fixed], State.reset, .head _, rfl⟩

/-- A source that still holds `b`, for the parser `p`. -/
def awaiting (p : Parser) (b : Byte) : State := (bound [b]).setP p

theorem witness_LastByte_fixed : ∃ (s : State) (b : Byte), s.out.script = [] ∧ avail s = [b] ∧ s.p.ph = .fixed ∧
    s.p.cnt = 7 ∧ s.p.tmp = [8#8, 0#8, 0#8, 0#8, 0#8, 0#8, 0#8] :=
  ⟨awaiting (parsing .fixed 7 [8#8, 0#8, 0#8, 0#8, 0#8, 0#8, 0#8] [] 0#8).p 255#8, 255#8, by decide⟩
theorem witness_LastByte_two_byte_reads : ∀ ph ∈ [Phase.xlen, .hcrc], ∃ (s : State) (b l0 : Byte), s.out.script = [] ∧
    avail s = [b] ∧ s.p.ph = ph ∧ s.p.cnt = 1 ∧ s.p.tmp = [l0] :=
  fun ph _ => ⟨awaiting (parsing ph 1 [5#8] [] 4#8).p 0#8, 0#8, 5#8, rfl, rfl, rfl, rfl, rfl⟩
theorem witness_LastByte_empty_subfield : ∃ (s : State) (b : Byte), s.out.script = [] ∧ avail s = [b] ∧ s.p.ph = .sfLen ∧
    s.p.cnt = 1 ∧ s.p.tmp = [0#8] ∧ b = 0#8 := ⟨awaiting (parsing .sfLen 1 [0#8] [] 4#8).p 0#8, 0#8, by decide⟩
theorem witness_LastByte_payload : ∃ (s : State) (b : Byte), s.out.script = [] ∧ avail s = [b] ∧ s.p.ph = .sfData ∧
    s.p.acc.length = s.p.cnt ∧ s.p.cnt + 1 = s.p.slen.toNat ∧ 4 + s.p.slen.toNat ≤ s.p.rem.toNat :=
  ⟨awaiting { (parsing .sfData 0 [] [] 4#8).p with slen := 1#16, rem := 5#16 } 9#8, 9#8, by decide⟩
theorem witness_LastByte_strings : ∀ ph ∈ [Phase.name, .comment], ∃ (s : State) (b : Byte), s.out.script = [] ∧
    avail s = [b] ∧ s.p.ph = ph ∧ b = 0#8 ∧ overCap s.params.nameCap s.p.acc.length = false ∧
    overCap s.params.commentCap s.p.acc.length = false :=
  fun ph _ => ⟨withParams tight (awaiting (parsing ph 0 [] [1#8] 8#8).p 0#8), 0#8, rfl, rfl, rfl, rfl, rfl, rfl⟩
theorem witness_ParserStepPullsOneByte : ∃ (s : State) (b : Byte), s.p.ph ≠ .idle ∧ s.out.script = [] ∧ avail s = [b] :=
  ⟨awaiting (parsing .magic 0 [] [] 0#8).p 0x1f#8, 0x1f#8, by decide⟩
theorem witness_ParserStepPullsOneByte_end : ∃ s : State, s.p.ph ≠ .idle ∧ s.out.script = [] ∧ avail s = [] ∧ s.p.cnt ≤ 65535 :=
  ⟨parsing .magic 1 [0x1f#8] [] 0#8, by decide⟩
theorem witness_PhaseNeverMovesBack : ∃ s t : State, s.p.ph ≠ .idle ∧ s.out.script = [] ∧ step s = .next t :=
  ⟨parsing .magic 1 [0x1f#8] [] 0#8, _, by decide, rfl, rfl⟩
theorem witness_ParserMachineRefinesDecode : ∃ s : State, s.params.grain = .byteSerial ∧ busy s = false ∧
    s.out.script = [.cmd [0x02#8]] := ⟨withParams serial (withScript [.cmd [0x02#8]] (bound bytesV1)), by decide⟩
theorem witness_SerializerMachineRefinesEncode : ∃ s : State, s.params.grain = .byteSerial ∧ busy s = false ∧
    s.out.script = [.cmd [0x03#8]] := ⟨withParams serial (withScript [.cmd [0x03#8]] (holding headerV6)), by decide⟩

/-- A command in progress whose state meets the three invariants, and whose next step answers a next state. -/
def midway : State :=
  { awaiting (parsing .fixed 0 [] [] 0#8).p 8#8 with status := 1#3, r := ⟨true, [0x1f#8, 0x8b#8], 2⟩ }

theorem witness_EveryStepKeepsTheFlagInvariant : ∃ s t : State, s.flagInv = true ∧ step s = .next t ∧ s.p.ph = .fixed :=
  ⟨midway, _, by decide, rfl, rfl⟩
theorem witness_EveryStepKeepsTheMachinesOpen : ∃ s t : State, s.machineInv = true ∧ (s.p.ph = .idle ∨ s.ser.ph = .idle) ∧
    step s = .next t ∧ s.p.ph = .fixed := ⟨midway, _, by decide, .inr rfl, rfl, rfl⟩
theorem witness_EveryStepKeepsTheRecord : ∃ s t : State, s.statusInv = true ∧ step s = .next t ∧ busy s = true :=
  ⟨midway, _, by decide, rfl, by decide⟩
theorem witness_EveryCommandEndsInOneOutcome : ∃ (bs rest : Bytes) (i : Instr) (s : State), s.params.grain = .operation ∧
    decodeAs .cmd bs = .ok (i, rest) := ⟨[0x02#8], [], .decode, State.reset, by decide⟩

end Sys2Proof.Tests
end

section
/-! PROOFS of the statements about the scope of a command (00_scope.md R8): how DECODE ends and what it consumes, and that every
command ends in one of two outcomes. -/

namespace Sys2Proof.Machine

/-! ### What a DECODE leaves -/

/-- R41: pulling from an unbound source takes nothing. -/
theorem srcAfter_of_unbound {n : Nat} {s : State} (h : s.r.bound = false) : srcAfter n s = s.out.src := by
  simp [srcAfter, h]

/-- R142, R143: from `s`, the steps of a DECODE have come to `u`: `R.POS` bytes of the source are gone and no others, and of the
rest of the block only `C` can have moved, when the FLG byte read has FHCRC. -/
structure DecodeReached (s u : State) : Prop where
  pos_le : u.r.pos ≤ (avail s).length
  avail_eq : avail u = (avail s).drop u.r.pos
  src_of_unbound : s.r.bound = false → u.out.src = s.out.src
  kept : s.decodeKept u
  p_eq : u.p = s.p
  h_eq : u.h = s.h
  c_eq : fhcrcSet ((avail s).getD 3 0#8) = false → u.c = s.c

/-- R142, R143: what steps 1 to 6 of DECODE leave, whether they return or raise. -/
theorem decodeReached_final (s : State) : DecodeReached s (decodeRun s).final := by
  obtain ⟨c, s1, ⟨k, buf, hk, ha, rfl⟩, hfin, hc⟩ := decodeRun_final s
  have hpos : (brOpen s).r.pos + k = k := Nat.zero_add k
  rw [hfin]
  exact
    { pos_le := hpos.le.trans hk
      avail_eq := ha.trans (congrArg (fun n => (avail s).drop n) hpos.symm)
      src_of_unbound := srcAfter_of_unbound (s := brOpen s)
      kept := ⟨rfl, rfl, rfl, rfl, rfl, rfl, rfl⟩
      p_eq := rfl
      h_eq := rfl
      c_eq := hc }

/-- Settles O26: R137 or R138 after steps 1 to 6, by the outcome of those steps. -/
theorem decodeEndsAndConsumesLen : Obligations.DecodeEndsAndConsumesLen := by
  intro s hg
  have hu := decodeReached_final s
  cases hr : decodeRun s with
  | ret w u =>
    rw [hr] at hu
    have hp : u.p = { s.p with ph := u.p.ph } := by
      have hsame : u.p = s.p := hu.p_eq
      rw [hsame]
    exact ⟨_, execDecode_ret hg hr, hu.pos_le, hu.avail_eq, rfl, hu.src_of_unbound, hu.kept, hp, hu.c_eq,
      .inl (ranOk_endOk _ _)⟩
  | raise f u =>
    rw [hr] at hu
    have hp : (takeFault .parser f u).p = { s.p with ph := .idle } := by simp [← hu.p_eq]
    exact ⟨_, execDecode_raise hg hr, hu.pos_le, hu.avail_eq, rfl, hu.src_of_unbound, hu.kept, hp, hu.c_eq,
      .inr ⟨f, _, ranInto_takeFault _ _ _, faultCode_ne_zero _, hu.h_eq, rfl⟩⟩

/-! ### The outcome of every command -/

/-- R8, R199, R200: from `s` a command has ended in `t`: ok, or in one fault with `H` as it was. -/
def endsInOneOutcome (s t : State) : Prop :=
  t.params = s.params ∧ t.out.script = s.out.script ∧
    ((∃ v, t.ranOk v) ∨ ∃ f code, t.ranInto f code ∧ code ≠ 0#8 ∧ t.h = s.h)

/-- R200: the ok end of a command that has left the parameters and the script. -/
theorem endsInOneOutcome_endOk {s u : State} (v : Value) (hp : u.params = s.params)
    (hs : u.out.script = s.out.script) : endsInOneOutcome s (endOk v u) :=
  ⟨hp, hs, .inl ⟨v, ranOk_endOk v u⟩⟩

/-- R199: the fault entry of a command that has left the parameters, the script and `H`. -/
theorem endsInOneOutcome_takeFault {s u : State} (w : Agent) (f : FaultRec) (hp : u.params = s.params)
    (hs : u.out.script = s.out.script) (hh : u.h = s.h) : endsInOneOutcome s (takeFault w f u) :=
  ⟨hp, hs, .inr ⟨f, _, ranInto_takeFault w f u, faultCode_ne_zero f.kind, hh⟩⟩

/-- From `s` the answer `o` is the ok end of a command that wrote at most `H` and `C`, or a fault of R199 (e). -/
def answersAtOnce (s : State) (o : Host.Outcome State Fault Refusal) : Prop :=
  (∃ v h c, o = .next (endOk v ((s.setH h).setC c))) ∨ ∃ f, o = .next (takeFault .other f s)

/-- R101: SET_EXTRA stores the Fields, or faults on a bad pair or on the capacity. -/
theorem execSetExtra_answersAtOnce (ps : List (Bytes × Bytes)) (s : State) : answersAtOnce s (execSetExtra ps s) := by
  unfold execSetExtra
  split
  · exact .inr ⟨_, rfl⟩
  · split
    · exact .inr ⟨_, rfl⟩
    · exact .inl ⟨_, _, s.c, rfl⟩

/-- R104: SET_NAME stores the text, or faults on the capacity. -/
theorem execSetName_answersAtOnce (text : Bytes) (s : State) : answersAtOnce s (execSetName text s) := by
  unfold execSetName
  split
  · exact .inr ⟨_, rfl⟩
  · exact .inl ⟨_, _, s.c, rfl⟩

/-- R107: SET_COMMENT stores the text, or faults on the capacity. -/
theorem execSetComment_answersAtOnce (text : Bytes) (s : State) : answersAtOnce s (execSetComment text s) := by
  unfold execSetComment
  split
  · exact .inr ⟨_, rfl⟩
  · exact .inl ⟨_, _, s.c, rfl⟩

/-- R110: FIELD_NEW answers the Field, or faults on the ids. -/
theorem execFieldNew_answersAtOnce (ids data : Bytes) (s : State) : answersAtOnce s (execFieldNew ids data s) := by
  unfold execFieldNew
  split
  · exact .inl ⟨_, s.h, s.c, rfl⟩
  · exact .inr ⟨_, rfl⟩

/-- R76, R199 (e): everything a command other than the two streaming ones can do. -/
theorem exec_answersAtOnce {i : Instr} (hi : isCommand i = true) (hd : i ≠ .decode) (he : i ≠ .encode) (s : State) :
    answersAtOnce s (exec i s) := by
  cases i with
  | decode => exact absurd rfl hd
  | encode => exact absurd rfl he
  | hdrInit => exact .inl ⟨.unit, Header.fresh, s.c, rfl⟩
  | wrCm v => exact .inl ⟨.unit, { s.h with cm := v }, s.c, rfl⟩
  | wrFlg v => exact .inl ⟨.unit, { s.h with flg := flgMasked v s.h.flg }, s.c, rfl⟩
  | wrMtime v => exact .inl ⟨.unit, { s.h with mtime := v }, s.c, rfl⟩
  | wrXfl v => exact .inl ⟨.unit, { s.h with xfl := v }, s.c, rfl⟩
  | wrOs v => exact .inl ⟨.unit, { s.h with os := v }, s.c, rfl⟩
  | rdCm | rdFlg | rdMtime | rdXfl | rdOs | rdExtra | rdName | rdComment => exact .inl ⟨_, s.h, s.c, rfl⟩
  | clrExtra | clrName | clrComment => exact .inl ⟨.unit, _, s.c, rfl⟩
  | setExtra ps => exact execSetExtra_answersAtOnce ps s
  | setName text => exact execSetName_answersAtOnce text s
  | setComment text => exact execSetComment_answersAtOnce text s
  | fieldNew ids data => exact execFieldNew_answersAtOnce ids data s
  | crc16 bs => exact .inl ⟨.u16 (crc16Of bs), s.h, crcFold crcInit bs, rfl⟩
  | reserved code => exact .inr ⟨_, rfl⟩
  | _ => exact absurd hi Bool.false_ne_true

/-- Such a command ends in one outcome. -/
theorem answersAtOnce.ends {s : State} {o : Host.Outcome State Fault Refusal} (h : answersAtOnce s o) :
    ∃ t, o = .next t ∧ endsInOneOutcome s t := by
  rcases h with ⟨v, h, c, rfl⟩ | ⟨f, rfl⟩
  · exact ⟨_, rfl, endsInOneOutcome_endOk v rfl rfl⟩
  · exact ⟨_, rfl, endsInOneOutcome_takeFault .other f rfl rfl rfl⟩

/-- R138, R143: DECODE ends in one outcome. -/
theorem exec_decode_ends {s : State} (hg : s.params.grain = .operation) :
    ∃ t, exec .decode s = .next t ∧ endsInOneOutcome s t := by
  obtain ⟨t, ht, -, -, -, -, ⟨-, hparams, -, -, -, -, hscript⟩, -, -, hout⟩ := decodeEndsAndConsumesLen s hg
  refine ⟨t, ht, hparams, hscript, ?_⟩
  rcases hout with hok | ⟨f, code, hinto, hcode, hh, -⟩
  · exact .inl ⟨.unit, hok⟩
  · exact .inr ⟨f, code, hinto, hcode, hh⟩

/-- R160: ENCODE at the operation level is the whole operation. -/
theorem exec_encode_operation {s : State} (hg : s.params.grain = .operation) :
    exec .encode s = .next (encodeWhole s) := by
  change execEncode s = _
  simp only [execEncode, hg]

/-- R160, R167: ENCODE ends in one outcome. -/
theorem exec_encode_ends {s : State} (hg : s.params.grain = .operation) :
    ∃ t, exec .encode s = .next t ∧ endsInOneOutcome s t := by
  refine ⟨_, exec_encode_operation hg, ?_⟩
  rcases encodeWhole_cases s with ⟨-, e⟩ | ⟨-, e⟩ <;> rw [e]
  · exact endsInOneOutcome_takeFault _ _ rfl rfl rfl
  · exact endsInOneOutcome_endOk _ rfl rfl

/-- Settles O60: what is read from CMD is a command: DECODE, ENCODE, or one that answers at once. -/
theorem everyCommandEndsInOneOutcome : Obligations.EveryCommandEndsInOneOutcome := by
  intro bs rest i s hg hdec
  have hi : isCommand i = true := decodeCmd_isCommand hdec
  rcases eq_or_ne i .decode with rfl | hd
  · exact exec_decode_ends hg
  rcases eq_or_ne i .encode with rfl | he
  · exact exec_encode_ends hg
  · exact (exec_answersAtOnce hi hd he s).ends

end Sys2Proof.Machine
end

section
/-! PROOFS of the invariants of 10_state.md: flags and presence (R20), the machines' registers (R25 to R27), the status registers
(R29, R30, R206). What a command, an action of the parser and a step of the serializer can do is said once; each invariant is
then a short case analysis of those, put together by one rule for the step. -/

namespace Sys2Proof.Machine

/-! ### The invariants, clause by clause -/

theorem busy_eq_false_iff {s : State} : busy s = false ↔ s.p.ph = .idle ∧ s.ser.ph = .idle := by simp [busy]

theorem busy_eq_true_iff {s : State} : busy s = true ↔ s.p.ph ≠ .idle ∨ s.ser.ph ≠ .idle := by simp [busy]

theorem flagInv_iff {s : State} : s.flagInv = true ↔ s.h.flagsAgree = true ∧ s.p.workingAgrees = true := by
  simp [State.flagInv]

theorem machineInv_iff {s : State} :
    s.machineInv = true ↔ s.p.readOpen = true ∧ s.positionCounts = true ∧ s.serializerOpen = true := by
  simp [State.machineInv, and_assoc]

theorem statusInv_iff {s : State} : s.statusInv = true ↔
    (s.p.ph = .idle ∨ s.ser.ph = .idle) ∧ s.status.getLsbD 0 = busy s ∧ s.recordMirrors = true := by
  simp [State.statusInv, State.busyAgrees, and_assoc]

/-- R20: flag by flag. -/
theorem flagsAgree_iff {h : Header} : h.flagsAgree = true ↔
    fextraSet h.flg = h.extra.isSome ∧ fnameSet h.flg = h.name.isSome ∧ fcommentSet h.flg = h.comment.isSome := by
  simp [Header.flagsAgree, and_assoc]

theorem workingAgrees_of_idle {p : Parser} (h : p.ph = .idle) : p.workingAgrees = true := by
  simp [Parser.workingAgrees, h]

theorem readOpen_of_idle {p : Parser} (h : p.ph = .idle) : p.readOpen = true := by simp [Parser.readOpen, h]

theorem positionCounts_iff {s : State} : s.positionCounts = true ↔ s.p.ph = .idle ∨ s.r.pos = s.r.buf.length := by
  cases h : s.p.ph <;> simp [State.positionCounts, h]

theorem serializerOpen_iff {s : State} : s.serializerOpen = true ↔ s.ser.ph = .idle ∨
    (encodeOverflows s.h = false ∧ serPresent s.h s.ser.ph = true ∧ s.ser.idx < (sectionBytes s.ser s.h).length) := by
  cases h : s.ser.ph <;> simp [State.serializerOpen, h, and_assoc]

/-- R25 to R27: an idle block has no machine to speak of. -/
theorem machineInv_of_idle {s : State} (h : busy s = false) : s.machineInv = true := by
  obtain ⟨hp, hser⟩ := busy_eq_false_iff.mp h
  exact machineInv_iff.mpr ⟨readOpen_of_idle hp, positionCounts_iff.mpr (.inl hp), serializerOpen_iff.mpr (.inl hser)⟩

/-- R29, R30: the record is read off the status registers and the outcome alone. -/
theorem recordMirrors_of_recordKept {s t : State} (h : s.recordKept t) : t.recordMirrors = s.recordMirrors := by
  obtain ⟨hst, herr, hinfo, hrsp⟩ := h
  simp only [State.recordMirrors, hst, herr, hinfo, hrsp]

/-- R29: BUSY is no part of the record. -/
theorem recordMirrors_setBusy (s : State) : (setBusy s).recordMirrors = s.recordMirrors := by
  have hdone : (setBusy s).status.getLsbD 1 = s.status.getLsbD 1 := by simp [setBusy, statusBusy]
  have herr : (setBusy s).status.getLsbD 2 = s.status.getLsbD 2 := by simp [setBusy, statusBusy]
  simp only [State.recordMirrors, hdone, herr]
  rfl

/-- R29, R30, R200: the record of a command that has ended `ok` and left both machines idle. -/
theorem statusInv_endOk {s : State} (v : Value) (h : busy s = false) : (endOk v s).statusInv = true := by
  have hidle : busy (endOk v s) = false := h
  refine statusInv_iff.mpr ⟨.inl (busy_eq_false_iff.mp h).1, ?_, ?_⟩
  · rw [hidle]
    simp [statusOk]
  · simp [State.recordMirrors, statusOk]

/-- R29, R30, R199 (a): the record of a command that has ended in a fault and left both machines idle. -/
theorem statusInv_takeFault {s : State} (w : Agent) (f : FaultRec) (h : busy (takeFault w f s) = false) :
    (takeFault w f s).statusInv = true := by
  refine statusInv_iff.mpr ⟨.inl (busy_eq_false_iff.mp h).1, ?_, ?_⟩
  · rw [h]
    simp [statusFault]
  · simp [State.recordMirrors, statusFault]

/-- R29, R200: a change that leaves the record and BUSY and starts no second machine. -/
theorem statusInv_of_recordKept {s t : State} (hk : s.recordKept t) (hb : busy t = busy s)
    (hone : t.p.ph = .idle ∨ t.ser.ph = .idle) (hi : s.statusInv = true) : t.statusInv = true := by
  obtain ⟨-, hbit, hrec⟩ := statusInv_iff.mp hi
  exact statusInv_iff.mpr ⟨hone, by rw [hk.1, hb, hbit], (recordMirrors_of_recordKept hk).trans hrec⟩

/-- R29, R200: a machine starts: BUSY is set, the record of the last command stays. -/
theorem statusInv_setBusy {s t : State} (hk : s.recordKept t) (hb : busy t = true)
    (hone : t.p.ph = .idle ∨ t.ser.ph = .idle) (hi : s.statusInv = true) : (setBusy t).statusInv = true := by
  obtain ⟨-, -, hrec⟩ := statusInv_iff.mp hi
  have hbusy : busy (setBusy t) = true := hb
  refine statusInv_iff.mpr ⟨hone, ?_, ?_⟩
  · rw [hbusy]
    simp [setBusy, statusBusy]
  · rw [recordMirrors_setBusy, recordMirrors_of_recordKept hk, hrec]

/-! ### Reset -/

/-- Settles O1, by evaluation of the table of R34. -/
theorem resetLeavesTheFreshHeader : Obligations.ResetLeavesTheFreshHeader := by
  unfold Obligations.ResetLeavesTheFreshHeader
  decide

/-- Settles O59, by evaluation: the base of O56 to O58. -/
theorem resetMeetsTheInvariants : Obligations.ResetMeetsTheInvariants := by
  unfold Obligations.ResetMeetsTheInvariants
  decide

/-- R215: after a reset, whatever the state, the three invariants hold as at `State.reset`. -/
theorem applyReset_invariants (s : State) :
    (applyReset s).flagInv = true ∧ (applyReset s).machineInv = true ∧ (applyReset s).statusInv = true :=
  resetMeetsTheInvariants

/-! ### What an action of the parser can do -/

/-- R68, R146: what `P.W` holds at test `k` of NEXT: the sections tested before agree with their bits, the others are null. -/
def Header.readUpTo (w : Header) : Nat → Bool
  | 0 => w.extra.isNone && w.name.isNone && w.comment.isNone
  | 1 => (fextraSet w.flg == w.extra.isSome) && w.name.isNone && w.comment.isNone
  | 2 => (fextraSet w.flg == w.extra.isSome) && (fnameSet w.flg == w.name.isSome) && w.comment.isNone
  | _ => w.flagsAgree

/-- R20: what `P.W` must hold for GOTO to enter a section, or `DONE`. -/
def Header.agreesOnEntry (w : Header) : Option Phase → Bool
  | none => w.flagsAgree
  | some ph => ({ Parser.atReset with ph := ph, w := w }).workingAgrees

/-- R26: what the registers must hold for GOTO to enter a section, or `DONE`; the read in progress is empty then. -/
def Parser.opensOnEntry (p : Parser) : Option Phase → Bool
  | none => true
  | some ph => ({ p with ph := ph, cnt := 0, tmp := [], acc := [] }).readOpen

/-- R20: of the parser, the phase and `P.W` decide. -/
theorem workingAgrees_eq (p : Parser) : p.workingAgrees = p.w.agreesOnEntry (some p.ph) := rfl

/-- R146: the test for the trailer. -/
theorem agreesOnEntry_three {w : Header} (h : w.readUpTo 3 = true) : w.agreesOnEntry (nextPhase 3 w.flg) = true := by
  rw [nextPhase_three]
  split <;> exact h

/-- R146: the test for the comment, and those after it. -/
theorem agreesOnEntry_two {w : Header} (h : w.readUpTo 2 = true) : w.agreesOnEntry (nextPhase 2 w.flg) = true := by
  simp only [Header.readUpTo, Bool.and_eq_true, beq_iff_eq, Option.isNone_iff_eq_none] at h
  obtain ⟨⟨hx, hn⟩, hc⟩ := h
  rw [nextPhase_two]
  split
  · simp_all [Header.agreesOnEntry, Parser.workingAgrees]
  · exact agreesOnEntry_three (by simp_all [Header.readUpTo, Header.flagsAgree])

/-- R146: the test for the filename, and those after it. -/
theorem agreesOnEntry_one {w : Header} (h : w.readUpTo 1 = true) : w.agreesOnEntry (nextPhase 1 w.flg) = true := by
  simp only [Header.readUpTo, Bool.and_eq_true, beq_iff_eq, Option.isNone_iff_eq_none] at h
  obtain ⟨⟨hx, hn⟩, hc⟩ := h
  rw [nextPhase_one]
  split
  · simp_all [Header.agreesOnEntry, Parser.workingAgrees]
  · exact agreesOnEntry_two (by simp_all [Header.readUpTo])

/-- R146: the test for FEXTRA, and those after it. -/
theorem agreesOnEntry_zero {w : Header} (h : w.readUpTo 0 = true) : w.agreesOnEntry (nextPhase 0 w.flg) = true := by
  simp only [Header.readUpTo, Bool.and_eq_true, Option.isNone_iff_eq_none] at h
  obtain ⟨⟨hx, hn⟩, hc⟩ := h
  rw [nextPhase_zero]
  split
  · simp_all [Header.agreesOnEntry, Parser.workingAgrees]
  · exact agreesOnEntry_one (by simp_all [Header.readUpTo])

/-- R146: NEXT answers one of the four sections of its table. -/
theorem nextPhase_mem {k : Nat} {flg : Byte} {ph : Phase} (h : nextPhase k flg = some ph) :
    ph = .xlen ∨ ph = .name ∨ ph = .comment ∨ ph = .hcrc := by
  obtain ⟨e, he, rfl⟩ := Option.map_eq_some_iff.mp h
  have hmem : e ∈ sectionTable := List.mem_of_mem_drop (List.mem_of_find?_eq_some he)
  simp only [sectionTable, List.mem_cons, List.not_mem_nil, or_false] at hmem
  rcases hmem with rfl | rfl | rfl | rfl <;> simp

theorem nextPhase_ne_idle (k : Nat) (flg : Byte) : nextPhase k flg ≠ some .idle := by
  intro h
  rcases nextPhase_mem h with e | e | e | e <;> cases e

/-- R26, R146: a section that NEXT selects asks nothing of the registers on entry. -/
theorem opensOnEntry_next (k : Nat) (flg : Byte) (p : Parser) : p.opensOnEntry (nextPhase k flg) = true := by
  cases h : nextPhase k flg with
  | none => rfl
  | some ph => rcases nextPhase_mem h with rfl | rfl | rfl | rfl <;> rfl

/-- R145: everything an action of the parser can have done from `o`, with registers `p` of its own: the read goes on, a fault is
taken, or GOTO enters a section or `DONE`. With it, what `p` keeps of the invariants of `o`. -/
inductive ActionEnds (o : State) : State → Prop
  | reads (p : Parser) (hph : p.ph ≠ .idle) (hw : o.p.workingAgrees = true → p.workingAgrees = true)
      (hr : o.p.readOpen = true → p.readOpen = true) : ActionEnds o (o.setP p)
  | faults (f : FaultRec) (p : Parser) : ActionEnds o (takeFault .parser f (o.setP p))
  | enters (target : Option Phase) (p : Parser) (ht : target ≠ some .idle)
      (hw : o.p.workingAgrees = true → p.w.agreesOnEntry target = true)
      (hr : o.p.readOpen = true → p.opensOnEntry target = true) : ActionEnds o (goto target (o.setP p))

/-- R139, R145: SUBLOOP, when the FEXTRA section so far agrees with its bit and the later sections are null. -/
theorem subLoop_ends {o : State} (p : Parser) (hw : o.p.workingAgrees = true →
    fextraSet p.w.flg = true ∧ p.w.extra.isSome = true ∧ p.w.name = none ∧ p.w.comment = none) :
    ActionEnds o (subLoop (o.setP p)) := by
  by_cases h0 : p.rem = 0#16
  · have e : subLoop (o.setP p) = goto (nextPhase 1 p.w.flg) (o.setP p) := if_pos h0
    rw [e]
    refine .enters _ p (nextPhase_ne_idle _ _) (fun h => agreesOnEntry_one ?_) (fun _ => opensOnEntry_next _ _ _)
    obtain ⟨hflg, hx, hn, hc⟩ := hw h
    simp [Header.readUpTo, hflg, hx, hn, hc]
  by_cases h4 : p.rem.toNat < 4
  · have e : subLoop (o.setP p) = takeFault .parser (malformed p.rem 0#16) (o.setP p) := (if_neg h0).trans (if_pos h4)
    rw [e]
    exact .faults _ p
  · have e : subLoop (o.setP p) = goto (some .sfTag) (o.setP p) := (if_neg h0).trans (if_neg h4)
    rw [e]
    refine .enters _ p (by decide) (fun h => ?_) (fun _ => ?_)
    · obtain ⟨hflg, hx, hn, hc⟩ := hw h
      simp [Header.agreesOnEntry, Parser.workingAgrees, hflg, hx, hn, hc]
    · simp [Parser.opensOnEntry, Parser.readOpen, not_lt.mp h4]

/-- R20: what the invariant says of `P.W` inside the FEXTRA section. -/
theorem workingAgrees_subfield {p : Parser} (hph : p.ph = .sfTag ∨ p.ph = .sfLen ∨ p.ph = .sfData)
    (h : p.workingAgrees = true) :
    fextraSet p.w.flg = true ∧ p.w.extra.isSome = true ∧ p.w.name = none ∧ p.w.comment = none := by
  rcases hph with e | e | e <;> simpa [Parser.workingAgrees, e, and_assoc] using h

/-- R145: ENDSUB, from a phase of the FEXTRA section. -/
theorem endSub_ends {o : State} (p : Parser) (hph : o.p.ph = .sfTag ∨ o.p.ph = .sfLen ∨ o.p.ph = .sfData)
    (hpw : p.w = o.p.w) : ActionEnds o (endSub (o.setP p)) := by
  refine subLoop_ends _ fun h => ?_
  obtain ⟨hflg, -, hn, hc⟩ := workingAgrees_subfield hph h
  simp [hpw, hflg, hn, hc]

/-- R145 FIXED, the last byte. -/
theorem acceptFixed_ends {o : State} (p : Parser) (cm flg : Byte) (m : Word32) (xfl os : Byte) :
    ActionEnds o (acceptFixed cm flg m xfl os (o.setP p)) :=
  .enters _ _ (nextPhase_ne_idle _ _) (fun _ => agreesOnEntry_zero (w := fixedHeader cm flg m xfl os) rfl)
    (fun _ => opensOnEntry_next _ _ _)

/-- R145 XLEN, the last byte. -/
theorem acceptXlen_ends {o : State} (p : Parser) (hph : o.p.ph = .xlen) (hpw : p.w = o.p.w) (xlen : Half) :
    ActionEnds o (acceptXlen xlen (o.setP p)) := by
  unfold acceptXlen
  split
  · exact .faults _ _
  · refine subLoop_ends _ fun h => ?_
    simpa [Parser.workingAgrees, hph, hpw, and_assoc] using h

/-- R145 SF_LEN, the last byte. -/
theorem acceptSubLen_ends {o : State} (p : Parser) (hph : o.p.ph = .sfLen) (hpw : p.w = o.p.w) (slen : Half) :
    ActionEnds o (acceptSubLen slen (o.setP p)) := by
  by_cases hfit : 4 + slen.toNat ≤ p.rem.toNat
  swap
  · rw [acceptSubLen_unfit hfit]
    exact .faults _ _
  have hsub : subFits slen ((o.setP p).setP { p with slen := slen }) = true := decide_eq_true hfit
  by_cases h0 : slen = 0#16
  · have e : acceptSubLen slen (o.setP p) = endSub (o.setP { p with slen := slen, acc := [] }) :=
      (if_pos hsub).trans (if_pos h0)
    rw [e]
    exact endSub_ends _ (.inr (.inl hph)) hpw
  · have e : acceptSubLen slen (o.setP p) = goto (some .sfData) (o.setP { p with slen := slen }) :=
      (if_pos hsub).trans (if_neg h0)
    have hpos : 0 < slen.toNat := Nat.pos_of_ne_zero fun hz => h0 (BitVec.eq_of_toNat_eq hz)
    rw [e]
    refine .enters _ _ (by decide) (fun h => ?_) (fun _ => ?_)
    · simpa [Header.agreesOnEntry, Parser.workingAgrees, hph, hpw] using h
    · simp [Parser.opensOnEntry, Parser.readOpen, hfit, hpos]

/-- R145 NAME, the zero byte. -/
theorem acceptName_ends {o : State} (hph : o.p.ph = .name) (text : Bytes) : ActionEnds o (acceptName text o) := by
  refine .enters _ _ (nextPhase_ne_idle _ _)
    (fun h => agreesOnEntry_two (w := { o.p.w with name := some text }) ?_) (fun _ => opensOnEntry_next _ _ _)
  simp only [Parser.workingAgrees, hph, Bool.and_eq_true, beq_iff_eq] at h
  obtain ⟨⟨hn, hx⟩, hc⟩ := h
  simp [Header.readUpTo, hn, hx, hc]

/-- R145 COMMENT, the zero byte. -/
theorem acceptComment_ends {o : State} (hph : o.p.ph = .comment) (text : Bytes) :
    ActionEnds o (acceptComment text o) := by
  refine .enters _ _ (nextPhase_ne_idle _ _)
    (fun h => agreesOnEntry_three (w := { o.p.w with comment := some text }) ?_) (fun _ => opensOnEntry_next _ _ _)
  simp only [Parser.workingAgrees, hph, Bool.and_eq_true, beq_iff_eq] at h
  obtain ⟨⟨hc, hx⟩, hn⟩ := h
  simp [Header.readUpTo, Header.flagsAgree, hn, hx, hc]

/-- R145 HCRC, the last byte. -/
theorem acceptHcrc_ends {o : State} (p : Parser) (hph : o.p.ph = .hcrc) (hpw : p.w = o.p.w) (stored : Half) :
    ActionEnds o (acceptHcrc stored (o.setP p)) := by
  unfold acceptHcrc
  split
  · refine .enters none p (by decide) (fun h => ?_) (fun _ => rfl)
    simpa [Header.agreesOnEntry, Parser.workingAgrees, hph, hpw] using h
  · exact .faults _ _

/-- R141, R145: the phase that reads a string section. -/
def strPhase : StrSection → Phase
  | .name => .name
  | .comment => .comment

/-- R141, R145: one byte of a string section; its phase asks nothing of the read in progress. -/
theorem stringByte_ends {o : State} (sec : StrSection) (hph : o.p.ph = strPhase sec) (b : Byte) :
    ActionEnds o (stringByte sec b o) := by
  unfold stringByte
  split
  · cases sec
    · exact acceptName_ends hph _
    · exact acceptComment_ends hph _
  split
  · exact .faults _ o.p
  · refine .reads _ ?_ id ?_ <;> cases sec <;> simp [Parser.readOpen, hph, strPhase]

/-- R144, R145: a byte of a read of two or eight bytes that is not the last one wanted. -/
theorem gather_ends {o : State} (b : Byte) (hidle : o.p.ph ≠ .idle) (hdata : o.p.ph ≠ .sfData)
    (hmore : o.p.cnt + 1 ≠ wanted o.p) : ActionEnds o (gather b o) := by
  refine .reads _ hidle id fun h => ?_
  cases hph : o.p.ph with
  | idle => exact absurd hph hidle
  | sfData => exact absurd hph hdata
  | name | comment => simp [Parser.readOpen, hph]
  | _ =>
    simp only [wanted, hph] at hmore
    simp [Parser.readOpen, hph] at h ⊢
    omega

/-- R145: everything a phase can do with a byte. -/
theorem phaseByte_ends {o : State} (hidle : o.p.ph ≠ .idle) (b : Byte) : ActionEnds o (phaseByte b o) := by
  have more {n : Nat} (hc : ¬ (gather b o).p.cnt = n) (hdata : o.p.ph ≠ .sfData) (hn : n = wanted o.p) :
      ActionEnds o (gather b o) := gather_ends b hidle hdata (hn ▸ hc)
  unfold phaseByte
  cases hph : o.p.ph with
  | idle => exact absurd hph hidle
  | magic =>
    dsimp only
    split
    · split
      · exact .enters _ _ (by decide) (fun _ => rfl) (fun _ => rfl)
      · exact .faults _ _
    · next hc => exact more hc (by simp [hph]) (by simp [wanted, hph])
  | fixed =>
    dsimp only
    split
    · exact acceptFixed_ends _ _ _ _ _ _
    · next hc => exact more hc (by simp [hph]) (by simp [wanted, hph])
  | xlen =>
    dsimp only
    split
    · exact acceptXlen_ends (gather b o).p hph rfl _
    · next hc => exact more hc (by simp [hph]) (by simp [wanted, hph])
  | sfTag =>
    dsimp only
    split
    · refine .enters _ _ (by decide) (fun h => ?_) (fun h => ?_)
      · simpa [Header.agreesOnEntry, Parser.workingAgrees, gather, hph] using h
      · simp_all [Parser.opensOnEntry, Parser.readOpen, gather]
    · next hc => exact more hc (by simp [hph]) (by simp [wanted, hph])
  | sfLen =>
    dsimp only
    split
    · exact acceptSubLen_ends (gather b o).p hph rfl _
    · next hc => exact more hc (by simp [hph]) (by simp [wanted, hph])
  | sfData =>
    dsimp only
    split
    · exact endSub_ends _ (.inr (.inr hph)) rfl
    · refine .reads _ hidle id fun h => ?_
      simp_all [Parser.readOpen]
      omega
  | name => exact stringByte_ends .name hph b
  | comment => exact stringByte_ends .comment hph b
  | hcrc =>
    dsimp only
    split
    · exact acceptHcrc_ends (gather b o).p hph rfl _
    · next hc => exact more hc (by simp [hph]) (by simp [wanted, hph])

/-- R144, R145: everything a step of the parser can do: at the end of the source a fault, else a byte is taken and the phase's
action follows. -/
theorem parserStep_ends {s : State} (hidle : s.p.ph ≠ .idle) :
    ∃ o, (o = s ∨ ∃ b, o = takeByte b s) ∧ ActionEnds o (parserStep s) := by
  unfold parserStep
  split
  · exact ⟨s, .inl rfl, .faults _ s.p⟩
  · exact ⟨_, .inr ⟨_, rfl⟩, phaseByte_ends (o := takeByte _ s) hidle _⟩

/-- R20: an action keeps both Headers: GOTO(DONE) hands over a `P.W` that agrees. -/
theorem ActionEnds.flagInv {o t : State} (h : ActionEnds o t) (hi : o.flagInv = true) : t.flagInv = true := by
  obtain ⟨hh, hw⟩ := flagInv_iff.mp hi
  rw [flagInv_iff]
  cases h with
  | reads p _ hkeep _ => exact ⟨hh, hkeep hw⟩
  | faults f p => exact ⟨hh, workingAgrees_of_idle rfl⟩
  | enters target p _ henter _ =>
    cases target with
    | none => exact ⟨henter hw, workingAgrees_of_idle rfl⟩
    | some ph =>
      refine ⟨(congrArg Header.flagsAgree (goto_some_kept ph _).1).trans hh, ?_⟩
      rw [workingAgrees_eq, goto_p_w, goto_p_ph]
      exact henter hw

/-- R25, R26: an action leaves R.POS at the length of R.BUF and opens the next read, if it opens one. -/
theorem ActionEnds.machineInv {o t : State} (h : ActionEnds o t) (hidle : o.p.ph ≠ .idle) (hser : o.ser.ph = .idle)
    (hi : o.machineInv = true) : t.machineInv = true := by
  obtain ⟨hr, hpos, -⟩ := machineInv_iff.mp hi
  have hlen : o.r.pos = o.r.buf.length := (positionCounts_iff.mp hpos).resolve_left hidle
  rw [machineInv_iff]
  cases h with
  | reads p _ _ hkeep => exact ⟨hkeep hr, positionCounts_iff.mpr (.inr hlen), serializerOpen_iff.mpr (.inl hser)⟩
  | faults f p => exact machineInv_iff.mp (machineInv_of_idle (busy_eq_false_iff.mpr ⟨rfl, hser⟩))
  | enters target p _ _ henter =>
    refine ⟨?_, positionCounts_iff.mpr (.inr (by simpa using hlen)), serializerOpen_iff.mpr (.inl (by simpa using hser))⟩
    cases target with
    | none => rfl
    | some ph =>
      rw [goto_p, Parser.readOpen]
      exact henter hr

/-- R29, R30, R206: an action leaves the record alone while the parser runs on, and writes it when DECODE ends. -/
theorem ActionEnds.statusInv {o t : State} (h : ActionEnds o t) (hidle : o.p.ph ≠ .idle) (hi : o.statusInv = true) :
    t.statusInv = true := by
  have hser : o.ser.ph = .idle := (statusInv_iff.mp hi).1.resolve_left hidle
  have hbusy : busy o = true := busy_eq_true_iff.mpr (.inl hidle)
  cases h with
  | reads p hph _ _ =>
    refine statusInv_of_recordKept (s := o) ⟨rfl, rfl, rfl, rfl⟩ ?_ (.inr hser) hi
    rw [hbusy]
    exact busy_eq_true_iff.mpr (.inl hph)
  | faults f p => exact statusInv_takeFault _ _ (busy_eq_false_iff.mpr ⟨rfl, hser⟩)
  | enters target p ht _ _ =>
    cases target with
    | none => exact statusInv_endOk _ (busy_eq_false_iff.mpr ⟨rfl, hser⟩)
    | some ph =>
      refine statusInv_of_recordKept (s := o) (goto_some_kept ph (o.setP p)).2.2 ?_ (.inr (by simpa using hser)) hi
      rw [hbusy]
      exact busy_eq_true_iff.mpr (.inl (by simpa using ht))

/-! ### What a step of the serializer can do -/

/-- R172: everything entering a section, or the end, can do. -/
theorem gotoSer_cases (target : Option SerPhase) (s : State) :
    (target = none ∧ gotoSer target s = deliver s.ser.out (s.setSer { s.ser with ph := .idle, idx := 0 })) ∨
    (∃ ph c snap, target = some ph ∧
      gotoSer target s = (s.setC c).setSer { s.ser with ph := ph, idx := 0, snap := snap }) := by
  cases target with
  | none => exact .inl ⟨rfl, rfl⟩
  | some ph =>
    refine .inr ?_
    cases ph with
    | sHcrc => exact ⟨_, crcFold crcInit s.ser.out, crc16Of s.ser.out, rfl, rfl⟩
    | _ => exact ⟨_, s.c, s.ser.snap, rfl, rfl⟩

/-- R172: everything a step of the serializer can do: it stays in a section that has more to emit, enters the next one, or
delivers and is idle. -/
theorem serializerStep_cases (s : State) :
    (∃ x : Serializer, x.ph = s.ser.ph ∧ x.idx < (sectionBytes x s.h).length ∧ serializerStep s = s.setSer x) ∨
    (∃ ph c out snap, nextSer s.h s.ser.ph = some ph ∧
      serializerStep s = (s.setC c).setSer { ph := ph, idx := 0, out := out, snap := snap }) ∨
    (∃ bs x, x.ph = .idle ∧ serializerStep s = deliver bs (s.setSer x)) := by
  have leave (out : Bytes) (i : Nat) :
      (∃ ph c out' snap, nextSer s.h s.ser.ph = some ph ∧
        gotoSer (nextSer s.h s.ser.ph) (s.setSer { s.ser with out := out, idx := i }) =
          (s.setC c).setSer { ph := ph, idx := 0, out := out', snap := snap }) ∨
      (∃ bs x, x.ph = .idle ∧
        gotoSer (nextSer s.h s.ser.ph) (s.setSer { s.ser with out := out, idx := i }) = deliver bs (s.setSer x)) := by
    rcases gotoSer_cases (nextSer s.h s.ser.ph) (s.setSer { s.ser with out := out, idx := i }) with
      ⟨-, e⟩ | ⟨ph, c, snap, hn, e⟩
    · exact .inr ⟨_, _, rfl, e⟩
    · exact .inl ⟨ph, c, _, snap, hn, e⟩
  unfold serializerStep
  split
  · exact .inr (leave s.ser.out s.ser.idx)
  · next b more hdrop =>
    dsimp only
    split
    · exact .inr (leave _ _)
    · next hmore =>
      refine .inl ⟨{ s.ser with out := s.ser.out ++ [b], idx := s.ser.idx + 1 }, rfl, ?_, rfl⟩
      have hlen : (sectionBytes s.ser s.h).length - s.ser.idx = more.length + 1 := by
        rw [← List.length_drop, hdrop, List.length_cons]
      have hpos : 0 < more.length := List.length_pos_iff.mpr (by simpa using hmore)
      change s.ser.idx + 1 < (sectionBytes s.ser s.h).length
      omega

/-- R172: a section after another one has its first byte to emit when its Header has it. -/
theorem sectionBytes_pos {x : Serializer} {h : Header} (hp : serPresent h x.ph = true) :
    0 < (sectionBytes x h).length := by
  cases hph : x.ph with
  | idle => simp [serPresent, hph] at hp
  | sFixed => simp [sectionBytes, hph, fixedOf]
  | sXlen =>
    obtain ⟨fs, e⟩ := Option.isSome_iff_exists.mp (by simpa [serPresent, hph] using hp)
    simp [sectionBytes, hph, xlenOf, e]
  | sSubfield => simpa [serPresent, sectionBytes, hph, List.length_pos_iff] using hp
  | sName =>
    obtain ⟨text, e⟩ := Option.isSome_iff_exists.mp (by simpa [serPresent, hph] using hp)
    simp [sectionBytes, hph, stringOf, e]
  | sComment =>
    obtain ⟨text, e⟩ := Option.isSome_iff_exists.mp (by simpa [serPresent, hph] using hp)
    simp [sectionBytes, hph, stringOf, e]
  | sHcrc => simp [sectionBytes, hph]

theorem nextSer_present {h : Header} {ph ph' : SerPhase} (e : nextSer h ph = some ph') : serPresent h ph' = true :=
  List.find?_some e

/-- R20: the serializer writes neither Header. -/
theorem serializerStep_flagInv (s : State) : (serializerStep s).flagInv = s.flagInv := by
  rcases serializerStep_cases s with ⟨x, -, -, e⟩ | ⟨ph, c, out, snap, -, e⟩ | ⟨bs, x, -, e⟩ <;> rw [e] <;> rfl

/-- R206: the serializer leaves the parser alone. -/
theorem serializerStep_p (s : State) : (serializerStep s).p = s.p := by
  rcases serializerStep_cases s with ⟨x, -, -, e⟩ | ⟨ph, c, out, snap, -, e⟩ | ⟨bs, x, -, e⟩ <;> rw [e] <;> rfl

/-- R172: the serializer comes to stand before a byte of a section its Header has, or is idle. -/
theorem serializerStep_machineInv {s : State} (hp : s.p.ph = .idle) (hser : s.ser.ph ≠ .idle)
    (hi : s.machineInv = true) : (serializerStep s).machineInv = true := by
  obtain ⟨-, -, hopen⟩ := machineInv_iff.mp hi
  obtain ⟨hfits, hpres, -⟩ := (serializerOpen_iff.mp hopen).resolve_left hser
  have parserIdle {t : State} (ht : t.p.ph = .idle) (ho : t.serializerOpen = true) : t.machineInv = true :=
    machineInv_iff.mpr ⟨readOpen_of_idle ht, positionCounts_iff.mpr (.inl ht), ho⟩
  rcases serializerStep_cases s with ⟨x, hx, hidx, e⟩ | ⟨ph, c, out, snap, hn, e⟩ | ⟨bs, x, hx, e⟩ <;> rw [e]
  · exact parserIdle hp (serializerOpen_iff.mpr (.inr ⟨hfits, by simpa [hx] using hpres, hidx⟩))
  · have hpres' := nextSer_present hn
    exact parserIdle hp (serializerOpen_iff.mpr (.inr ⟨hfits, hpres', sectionBytes_pos hpres'⟩))
  · exact machineInv_of_idle (busy_eq_false_iff.mpr ⟨hp, hx⟩)

/-- R29, R30, R172: the serializer writes the record when it delivers, and not before. -/
theorem serializerStep_statusInv {s : State} (hp : s.p.ph = .idle) (hser : s.ser.ph ≠ .idle)
    (hi : s.statusInv = true) : (serializerStep s).statusInv = true := by
  have hbusy : busy s = true := busy_eq_true_iff.mpr (.inr hser)
  have runsOn {t : State} (hk : s.recordKept t) (hpt : t.p.ph = .idle) (ht : t.ser.ph ≠ .idle) : t.statusInv = true :=
    statusInv_of_recordKept hk ((busy_eq_true_iff.mpr (.inr ht)).trans hbusy.symm) (.inl hpt) hi
  rcases serializerStep_cases s with ⟨x, hx, -, e⟩ | ⟨ph, c, out, snap, hn, e⟩ | ⟨bs, x, hx, e⟩ <;> rw [e]
  · exact runsOn ⟨rfl, rfl, rfl, rfl⟩ hp (by simpa [hx] using hser)
  · refine runsOn ⟨rfl, rfl, rfl, rfl⟩ hp ?_
    rintro (rfl : ph = .idle)
    exact Bool.false_ne_true (nextSer_present hn)
  · exact statusInv_endOk _ (busy_eq_false_iff.mpr ⟨hp, hx⟩)

/-! ### What a command can do -/

/-- R20, R113: a command other than the two streaming ones changes a store and its bit together, or neither. -/
theorem exec_flagsAgree {i : Instr} (hi : isCommand i = true) (hd : i ≠ .decode) (he : i ≠ .encode) {s t : State}
    (h : exec i s = .next t) (ha : s.h.flagsAgree = true) : t.h.flagsAgree = true := by
  obtain ⟨hx, hn, hc⟩ := flagsAgree_iff.mp ha
  cases i with
  | decode => exact absurd rfl hd
  | encode => exact absurd rfl he
  | hdrInit =>
    cases h
    exact (by decide : Header.fresh.flagsAgree = true)
  | wrCm _ | wrMtime _ | wrXfl _ | wrOs _ | rdCm | rdFlg | rdMtime | rdXfl | rdOs | rdExtra | rdName
  | rdComment | crc16 _ | reserved _ =>
    cases h
    exact ha
  | wrFlg v =>
    obtain ⟨x, n, c⟩ := flgMasked_presence v s.h.flg
    cases h
    exact flagsAgree_iff.mpr ⟨x.trans hx, n.trans hn, c.trans hc⟩
  | setExtra ps =>
    obtain ⟨x, n, c, -⟩ := flgWithExtra_presence s.h.flg
    simp only [exec, execSetExtra] at h
    split at h
    · cases h
      exact ha
    · split at h <;> cases h
      · exact ha
      · exact flagsAgree_iff.mpr ⟨x, n.trans hn, c.trans hc⟩
  | clrExtra =>
    obtain ⟨x, n, c, -⟩ := flgWithoutExtra_presence s.h.flg
    cases h
    exact flagsAgree_iff.mpr ⟨x, n.trans hn, c.trans hc⟩
  | setName text =>
    obtain ⟨x, n, c, -⟩ := flgWithName_presence s.h.flg
    simp only [exec, execSetName] at h
    split at h <;> cases h
    · exact ha
    · exact flagsAgree_iff.mpr ⟨x.trans hx, n, c.trans hc⟩
  | clrName =>
    obtain ⟨x, n, c, -⟩ := flgWithoutName_presence s.h.flg
    cases h
    exact flagsAgree_iff.mpr ⟨x.trans hx, n, c.trans hc⟩
  | setComment text =>
    obtain ⟨x, n, c, -⟩ := flgWithComment_presence s.h.flg
    simp only [exec, execSetComment] at h
    split at h <;> cases h
    · exact ha
    · exact flagsAgree_iff.mpr ⟨x.trans hx, n.trans hn, c⟩
  | clrComment =>
    obtain ⟨x, n, c, -⟩ := flgWithoutComment_presence s.h.flg
    cases h
    exact flagsAgree_iff.mpr ⟨x.trans hx, n.trans hn, c⟩
  | fieldNew ids data =>
    simp only [exec, execFieldNew] at h
    split at h <;> cases h <;> exact ha
  | _ => exact absurd hi Bool.false_ne_true

/-- R8, R144, R172: everything a command can have done from `s`: it has ended, `ok` or in a fault, or it has started one of the
two machines. With it, what it keeps of the flag invariant. -/
inductive CommandEnds (s : State) : State → Prop
  | ok (v : Value) (u : State) (hp : u.p = s.p) (hser : u.ser.ph = s.ser.ph)
      (hh : s.h.flagsAgree = true → u.h.flagsAgree = true) : CommandEnds s (endOk v u)
  | fault (w : Agent) (f : FaultRec) (u : State) (hp : u.p = s.p) (hser : u.ser.ph = s.ser.ph) (hh : u.h = s.h) :
      CommandEnds s (takeFault w f u)
  | startsParser : CommandEnds s (startDecode s)
  | startsSerializer (hfits : encodeOverflows s.h = false) :
      CommandEnds s (setBusy (s.setSer { ph := .sFixed, idx := 0, out := [], snap := s.ser.snap }))

/-- R130, R144: DECODE at either level. -/
theorem exec_decode_commandEnds {s t : State} (h : exec .decode s = .next t) : CommandEnds s t := by
  cases hg : s.params.grain with
  | byteSerial =>
    simp only [exec, execDecode, hg, Host.Outcome.next.injEq] at h
    subst h
    exact .startsParser
  | operation =>
    have hu := decodeReached_final s
    obtain ⟨hser, -⟩ := hu.kept
    cases hr : decodeRun s with
    | ret w u =>
      rw [hr] at hu hser
      obtain ⟨hvalid, -⟩ := decodeRun_ret hr
      cases (execDecode_ret hg hr).symm.trans h
      exact .ok _ _ hu.p_eq (congrArg Serializer.ph hser) fun _ => flagsAgree_iff.mpr (valid_flags hvalid)
    | raise f u =>
      rw [hr] at hu hser
      cases (execDecode_raise hg hr).symm.trans h
      exact .fault _ _ _ hu.p_eq (congrArg Serializer.ph hser) hu.h_eq

/-- R160, R172: ENCODE at either level. -/
theorem exec_encode_commandEnds {s t : State} (h : exec .encode s = .next t) : CommandEnds s t := by
  cases hg : s.params.grain with
  | byteSerial =>
    simp only [exec, execEncode, hg, Host.Outcome.next.injEq] at h
    subst h
    unfold startEncode
    dsimp only
    split
    · exact .fault _ _ _ rfl rfl rfl
    · exact .startsSerializer (Bool.eq_false_iff.mpr ‹_›)
  | operation =>
    cases (exec_encode_operation hg).symm.trans h
    rcases encodeWhole_cases s with ⟨-, e⟩ | ⟨-, e⟩ <;> rw [e]
    · exact .fault _ _ _ rfl rfl rfl
    · exact .ok _ _ rfl rfl id

/-- R76: every command. -/
theorem exec_commandEnds {i : Instr} (hi : isCommand i = true) {s t : State} (h : exec i s = .next t) :
    CommandEnds s t := by
  rcases eq_or_ne i .decode with rfl | hd
  · exact exec_decode_commandEnds h
  rcases eq_or_ne i .encode with rfl | he
  · exact exec_encode_commandEnds h
  have hflags := exec_flagsAgree hi hd he h
  rcases exec_answersAtOnce hi hd he s with ⟨v, h', c, e⟩ | ⟨f, e⟩ <;> cases e.symm.trans h
  · exact .ok _ _ rfl rfl hflags
  · exact .fault _ _ _ rfl rfl rfl

/-- R199 (c) to (e): a fault starts no machine. -/
theorem busy_takeFault {s : State} (w : Agent) (f : FaultRec) (h : busy s = false) : busy (takeFault w f s) = false := by
  obtain ⟨hp, hser⟩ := busy_eq_false_iff.mp h
  rw [busy_eq_false_iff]
  cases w <;> simp [hp, hser]

/-- A command that has changed neither phase leaves the block idle. -/
theorem busy_eq_false_of_phases {s u : State} (h : busy s = false) (hp : u.p = s.p) (hser : u.ser.ph = s.ser.ph) :
    busy u = false := by
  obtain ⟨hip, his⟩ := busy_eq_false_iff.mp h
  exact busy_eq_false_iff.mpr ⟨hp ▸ hip, hser.trans his⟩

/-- R20, R113: a command of an idle block keeps both Headers. -/
theorem CommandEnds.flagInv {s t : State} (h : CommandEnds s t) (hb : busy s = false) (hi : s.flagInv = true) :
    t.flagInv = true := by
  obtain ⟨hh, hw⟩ := flagInv_iff.mp hi
  rw [flagInv_iff]
  cases h with
  | ok v u hp _ hflags => exact ⟨hflags hh, hp ▸ hw⟩
  | fault w f u hp hser hkeep =>
    obtain ⟨hip, -⟩ := busy_eq_false_iff.mp (busy_takeFault w f (busy_eq_false_of_phases hb hp hser))
    exact ⟨hkeep ▸ hh, workingAgrees_of_idle hip⟩
  | startsParser => exact ⟨hh, rfl⟩
  | startsSerializer _ => exact ⟨hh, hw⟩

/-- R25, R144, R172, R206: a command of an idle block starts one machine at most, at the start of its first section. -/
theorem CommandEnds.machineInv {s t : State} (h : CommandEnds s t) (hb : busy s = false) :
    (t.p.ph = .idle ∨ t.ser.ph = .idle) ∧ t.machineInv = true := by
  obtain ⟨hip, his⟩ := busy_eq_false_iff.mp hb
  have ended {t : State} (ht : busy t = false) : (t.p.ph = .idle ∨ t.ser.ph = .idle) ∧ t.machineInv = true :=
    ⟨.inl (busy_eq_false_iff.mp ht).1, machineInv_of_idle ht⟩
  cases h with
  | ok v u hp hser _ => exact ended (busy_eq_false_of_phases (u := endOk v u) hb hp hser)
  | fault w f u hp hser _ => exact ended (busy_takeFault w f (busy_eq_false_of_phases hb hp hser))
  | startsParser => exact ⟨.inr his, machineInv_iff.mpr ⟨rfl, rfl, serializerOpen_iff.mpr (.inl his)⟩⟩
  | startsSerializer hfits =>
    refine ⟨.inl hip, machineInv_iff.mpr ⟨readOpen_of_idle hip, positionCounts_iff.mpr (.inl hip), ?_⟩⟩
    exact serializerOpen_iff.mpr (.inr ⟨hfits, rfl, sectionBytes_pos (h := s.h) rfl⟩)

/-- R29, R30, R200: a command of an idle block writes the record of its outcome, or sets BUSY. -/
theorem CommandEnds.statusInv {s t : State} (h : CommandEnds s t) (hb : busy s = false) (hi : s.statusInv = true) :
    t.statusInv = true := by
  obtain ⟨hip, his⟩ := busy_eq_false_iff.mp hb
  cases h with
  | ok v u hp hser _ => exact statusInv_endOk v (busy_eq_false_of_phases hb hp hser)
  | fault w f u hp hser _ => exact statusInv_takeFault w f (busy_takeFault w f (busy_eq_false_of_phases hb hp hser))
  | startsParser =>
    exact statusInv_setBusy (s := s)
      (t := (brOpen s).setP { s.p with ph := .magic, cnt := 0, tmp := [], acc := [] })
      ⟨rfl, rfl, rfl, rfl⟩ (busy_eq_true_iff.mpr (.inl (by simp))) (.inr his) hi
  | startsSerializer _ =>
    exact statusInv_setBusy (s := s) ⟨rfl, rfl, rfl, rfl⟩ (busy_eq_true_iff.mpr (.inr (by simp))) (.inl hip) hi

/-! ### Every step -/

section StepRule

variable {I : State → Prop}
  (hscript : ∀ rest s, I s → I (withScript rest s))
  (htake : ∀ b s, s.p.ph ≠ .idle → I s → I (takeByte b s))
  (hact : ∀ o t, o.p.ph ≠ .idle → ActionEnds o t → I o → I t)
  (hemit : ∀ s, s.p.ph = .idle → s.ser.ph ≠ .idle → I s → I (serializerStep s))
  (hreset : ∀ s, I (applyReset s))

include htake hact hemit in
/-- R145, R172: what the actions of the parser and the steps of the serializer keep, the machine that is active keeps. -/
theorem advance_keeps {s : State} (hb : busy s = true) (hs : I s) : I (advance s) := by
  unfold advance
  split
  · next hp =>
    obtain ⟨o, rfl | ⟨b, rfl⟩, ho⟩ := parserStep_ends hp
    · exact hact o _ hp ho hs
    · exact hact (takeByte b s) _ hp ho (htake b s hp hs)
  · next hp =>
    have hidle : s.p.ph = .idle := not_not.mp hp
    exact hemit s hidle ((busy_eq_true_iff.mp hb).resolve_left hp) hs

include hscript htake hact hemit hreset in
/-- R50, R55, R215: an invariant of every step, from what the host's actions, the commands and the two machines keep. -/
theorem step_keeps
    (hbind : ∀ b s, busy s = false → I s → I (bindSource b s))
    (hreg : ∀ v s, I s → I (s.setOut { s.out with reg := some v }))
    (hcmd : ∀ s t, busy s = false → CommandEnds s t → I s → I t)
    {s t : State} (hs : I s) (h : step s = .next t) : I t := by
  rcases step_next_cases h with ⟨hb, rfl⟩ | ⟨hb, hidle⟩
  · rcases runningStep_cases s with ⟨rest, -, e⟩ | ⟨k, rest, -, e⟩ | e <;> rw [e]
    · exact hreset _
    · exact advance_keeps htake hact hemit (s := withScript _ s) hb (hscript _ s hs)
    · exact advance_keeps htake hact hemit hb hs
  · rcases hidle with ⟨-, rfl⟩ | ⟨k, rest, -, rfl⟩ | ⟨b, rest, -, rfl⟩ | ⟨i, v, rest, -, -, rfl⟩ |
      ⟨bs, i, rest, -, hf, he⟩
    · exact hs
    · exact hreset _
    · exact hbind b _ hb (hscript rest s hs)
    · exact hreg v _ (hscript rest s hs)
    · exact hcmd (withScript rest s) t hb (exec_commandEnds (fetchCommand_isCommand hf) he) (hscript rest s hs)

end StepRule

/-- R206: an action of the parser leaves the serializer alone. -/
theorem ActionEnds.ser_eq {o t : State} (h : ActionEnds o t) : t.ser = o.ser := by
  cases h with
  | reads p _ _ _ => rfl
  | faults f p => rfl
  | enters target p _ _ _ => exact goto_ser target (o.setP p)

/-- R145: the byte taken is counted and buffered. -/
theorem takeByte_machineInv {s : State} (b : Byte) (hp : s.p.ph ≠ .idle) (hi : s.machineInv = true) :
    (takeByte b s).machineInv = true := by
  obtain ⟨hr, hpos, hopen⟩ := machineInv_iff.mp hi
  have hlen : s.r.pos = s.r.buf.length := (positionCounts_iff.mp hpos).resolve_left hp
  exact machineInv_iff.mpr ⟨hr, positionCounts_iff.mpr (.inr (by simp [takeByte, hlen])), hopen⟩

/-- Settles O56: by the step rule; GOTO(DONE) is where the Header under construction becomes `H`. -/
theorem everyStepKeepsTheFlagInvariant : Obligations.EveryStepKeepsTheFlagInvariant := fun _ _ hs h =>
  step_keeps (I := fun s => s.flagInv = true)
    (hscript := fun _ _ hi => hi)
    (htake := fun _ _ _ hi => hi)
    (hact := fun _ _ _ ha hi => ha.flagInv hi)
    (hemit := fun s _ _ hi => (serializerStep_flagInv s).trans hi)
    (hreset := fun s => (applyReset_invariants s).1)
    (hbind := fun _ _ _ hi => hi)
    (hreg := fun _ _ hi => hi)
    (hcmd := fun _ _ hb hc hi => hc.flagInv hb hi) hs h

/-- Settles O57: by the step rule, with the premise that one machine at most is active as part of the invariant. -/
theorem everyStepKeepsTheMachinesOpen : Obligations.EveryStepKeepsTheMachinesOpen := fun _ _ hs hone h =>
  (step_keeps (I := fun s => (s.p.ph = .idle ∨ s.ser.ph = .idle) ∧ s.machineInv = true)
    (hscript := fun _ _ hi => hi)
    (htake := fun b _ hp ⟨hone, hi⟩ => ⟨hone, takeByte_machineInv b hp hi⟩)
    (hact := fun _ _ hp ha ⟨hone, hi⟩ =>
      have hser := hone.resolve_left hp
      ⟨.inr (ha.ser_eq ▸ hser), ha.machineInv hp hser hi⟩)
    (hemit := fun s hp hser ⟨_, hi⟩ => ⟨.inl (serializerStep_p s ▸ hp), serializerStep_machineInv hp hser hi⟩)
    (hreset := fun s => ⟨.inl rfl, (applyReset_invariants s).2.1⟩)
    (hbind := fun _ _ hb ⟨hone, _⟩ => ⟨hone, machineInv_of_idle hb⟩)
    (hreg := fun _ _ hi => hi)
    (hcmd := fun _ _ hb hc _ => hc.machineInv hb) ⟨hone, hs⟩ h).2

/-- Settles O58: by the step rule; BUSY falls where a command ends, and there the record is written. -/
theorem everyStepKeepsTheRecord : Obligations.EveryStepKeepsTheRecord := fun _ _ hs h =>
  step_keeps (I := fun s => s.statusInv = true)
    (hscript := fun _ _ hi => hi)
    (htake := fun _ _ _ hi => hi)
    (hact := fun _ _ hp ha hi => ha.statusInv hp hi)
    (hemit := fun _ hp hser hi => serializerStep_statusInv hp hser hi)
    (hreset := fun s => (applyReset_invariants s).2.2)
    (hbind := fun _ _ _ hi => hi)
    (hreg := fun _ _ hi => hi)
    (hcmd := fun _ _ hb hc hi => hc.statusInv hb hi) hs h

end Sys2Proof.Machine
end

section
/-! PROOFS of the encodings (30_encoding.md R60 to R78): decoding and encoding are inverse, format by format, and what single
words decode to. -/

namespace Sys2Proof

open Machine

/-! ### Encode, then decode -/

/-- What `into` does with an operand that was read. -/
theorem Decoded.into_of_ok {α β : Type} {d : Decoded α} {a : α} {rest : Bytes} (h : d = .ok (a, rest)) (mk : α → β) :
    d.into mk = .ok (mk a, rest) := by rw [h, Decoded.into_ok_mk]

@[simp] theorem decodeU32_le32 (v : Word32) (rest : Bytes) : decodeU32 (le32 v ++ rest) = .ok (v, rest) :=
  congrArg (fun x => Except.ok (x, rest)) (u32_le32 v)

/-- R77, R78: a command is read back, whatever follows it. -/
theorem decodeCmd_encodeInstr {i : Instr} {word : Bytes} (hw : i.wellFormed = true)
    (h : encodeInstr i = some (.cmd, word)) (rest : Bytes) : decodeCmd (word ++ rest) = .ok (i, rest) := by
  cases i with
  | hdrInit | decode | encode | rdCm | rdFlg | rdMtime | rdXfl | rdOs | clrExtra | rdExtra | clrName | rdName
  | clrComment | rdComment | wrCm _ | wrFlg _ | wrXfl _ | wrOs _ =>
    cases h
    rfl
  | wrMtime v =>
    cases h
    exact Decoded.into_of_ok (decodeU32_le32 v rest) _
  | setName s | setComment s | crc16 s =>
    cases h
    exact Decoded.into_of_ok (decodeSeq_encodeSeq s rest) _
  | fieldNew ids data =>
    cases h
    have hpair := decodePair_encode (ids, data) rest
    rw [← List.append_assoc] at hpair
    exact Decoded.into_of_ok hpair _
  | setExtra ps =>
    cases h
    have hfuel : ps.length < (encodePairs ps ++ rest).length := by
      have := encodePairs_length ps
      simp only [List.length_append]
      omega
    exact Decoded.into_of_ok (decodePairs_encodePairs ps rest _ hfuel) _
  | reserved code =>
    cases h
    exact decodeCmd_reserved rest (by simpa [Instr.wellFormed] using hw)
  | _ => cases h

/-- R63, R72: the row of the unnamed bits has no named bit set. -/
theorem decodeFlgRow_unnamed (bits : BitVec 3) (rest : Bytes) :
    decodeFlgRow ((bits ++ 0#5) :: rest) = .ok (.flgUnnamed bits, rest) := by
  have hbits : ∀ b : BitVec 3, b ++ 0#5 ≠ 0x01#8 ∧ b ++ 0#5 ≠ 0x02#8 ∧ b ++ 0#5 ≠ 0x04#8 ∧ b ++ 0#5 ≠ 0x08#8 ∧
      b ++ 0#5 ≠ 0x10#8 ∧ (b ++ 0#5).extractLsb' 0 5 = 0#5 ∧ (b ++ 0#5).extractLsb' 5 3 = b := by decide
  obtain ⟨h0, h1, h2, h3, h4, hlow, hhigh⟩ := hbits bits
  simp only [decodeFlgRow, h0, h1, h2, h3, h4, hlow, if_false, if_true]
  exact congrArg (fun b => Except.ok (Instr.flgUnnamed b, rest)) hhigh

/-- R65: a subfield whose payload fits its 16-bit length is read back. -/
theorem decodeSubf_encode (i0 i1 : Byte) {data : Bytes} (hlen : data.length ≤ 65535) (rest : Bytes) :
    decodeSubf ([i0, i1] ++ le16 (lenHalf data.length) ++ data ++ rest) = .ok (.subfield i0 i1 data, rest) := by
  have hslen : (u16 (le16 (lenHalf data.length))).toNat = data.length := by rw [u16_le16, lenHalf_toNat hlen]
  simp only [le16] at hslen
  simp [decodeSubf, le16, hslen]

/-- Settles O18: by the format; a command by its code, a wire element by its own decoder. -/
theorem decodeReadsEveryEncodedInstruction : Obligations.DecodeReadsEveryEncodedInstruction := by
  intro i fmt word rest hw h
  cases fmt with
  | cmd => exact decodeCmd_encodeInstr hw h rest
  | wire10 =>
    cases i with
    | gzipFixed cm flg m xfl os =>
      cases h
      exact congrArg (fun x => Except.ok (Instr.gzipFixed cm flg x xfl os, rest)) (u32_le32 m)
    | _ => cases h
  | flgsel =>
    cases i with
    | ftext | fhcrc | fextra | fname | fcomment =>
      cases h
      rfl
    | flgUnnamed bits =>
      cases h
      exact decodeFlgRow_unnamed bits rest
    | _ => cases h
  | xsec =>
    cases i with
    | fextraSection xlen =>
      cases h
      exact congrArg (fun x => Except.ok (Instr.fextraSection x, rest)) (u16_le16 xlen)
    | _ => cases h
  | subf =>
    cases i with
    | subfield i0 i1 data =>
      cases h
      exact decodeSubf_encode i0 i1 (of_decide_eq_true hw) rest
    | _ => cases h
  | zstr =>
    cases i with
    | zstring text =>
      cases h
      exact Decoded.into_of_ok (decodeZstr_zstrBytes text rest (by simpa [Instr.wellFormed] using hw)) _
    | _ => cases h
  | hcrc =>
    cases i with
    | headerCrc v =>
      cases h
      exact congrArg (fun x => Except.ok (Instr.headerCrc x, rest)) (u16_le16 v)
    | _ => cases h

/-! ### Decode, then encode -/

/-- What the bytes `bs` begin with, when a decoder reads `i` from them and leaves `rest`: the encoding of `i`. -/
def BeginsWith (fmt : Format) (bs : Bytes) (i : Instr) (rest : Bytes) : Prop :=
  i.wellFormed = true ∧ ∃ word, encodeInstr i = some (fmt, word) ∧ bs = word ++ rest

/-- A decoder that answers `j` has read `j`'s word, and nothing of what follows it. -/
theorem BeginsWith.of_ok {fmt : Format} {i j : Instr} {word rest more : Bytes}
    (h : (.ok (j, more) : Decoded Instr) = .ok (i, rest)) (hw : j.wellFormed = true)
    (he : encodeInstr j = some (fmt, word)) : BeginsWith fmt (word ++ more) i rest := by
  cases h
  exact ⟨hw, word, he, rfl⟩

/-- R77: a command whose operand decoder accepts only the bytes `enc` gives. -/
theorem BeginsWith.of_operand {α : Type} {d : Decoded α} {mk : α → Instr} {i : Instr} {code : Byte} {bs rest : Bytes}
    {enc : α → Bytes} (h : d.into mk = .ok (i, rest)) (hd : ∀ {a}, d = .ok (a, rest) → bs = enc a ++ rest)
    (hw : ∀ a, (mk a).wellFormed = true) (he : ∀ a, encodeInstr (mk a) = some (.cmd, code :: enc a)) :
    BeginsWith .cmd (code :: bs) i rest := by
  obtain ⟨a, ha, rfl⟩ := Decoded.into_ok h
  exact ⟨hw a, _, he a, congrArg (code :: ·) (hd ha)⟩

theorem decodeU8_ok {bs rest : Bytes} {v : Byte} (h : decodeU8 bs = .ok (v, rest)) : bs = [v] ++ rest := by
  cases bs <;> cases h
  rfl

theorem decodeU32_ok {bs rest : Bytes} {v : Word32} (h : decodeU32 bs = .ok (v, rest)) : bs = le32 v ++ rest := by
  unfold decodeU32 at h
  split at h <;> cases h
  rw [le32_u32]
  rfl

theorem decodePair_ok_append {bs rest : Bytes} {p : Bytes × Bytes} (h : decodePair bs = .ok (p, rest)) :
    bs = (encodeSeq p.1 ++ encodeSeq p.2) ++ rest := by rw [decodePair_ok h, List.append_assoc]

/-- R77, R78: bytes that are read as a command begin with its code and its operand. -/
theorem decodeCmd_beginsWith {bs rest : Bytes} {i : Instr} (h : decodeCmd bs = .ok (i, rest)) :
    BeginsWith .cmd bs i rest := by
  rcases bs with _ | ⟨code, bs⟩
  · cases h
  by_cases hc : code ∈ assignedCodes
  swap
  · rw [decodeCmd_reserved bs hc] at h
    exact .of_ok h (by simpa [Instr.wellFormed] using hc) rfl
  simp only [assignedCodes, List.mem_cons, List.not_mem_nil, or_false] at hc
  rcases hc with rfl | rfl | rfl | rfl | rfl | rfl | rfl | rfl | rfl | rfl | rfl | rfl | rfl | rfl | rfl | rfl | rfl | rfl |
    rfl | rfl | rfl | rfl | rfl | rfl
  -- by the operand: none, a u8, a sequence; then WR_MTIME, SET_EXTRA and FIELD_NEW are left
  all_goals try exact .of_ok h rfl rfl
  all_goals try exact .of_operand (enc := fun v => [v]) h decodeU8_ok (fun _ => rfl) (fun _ => rfl)
  all_goals try exact .of_operand h decodeSeq_ok (fun _ => rfl) (fun _ => rfl)
  · exact .of_operand h decodeU32_ok (fun _ => rfl) (fun _ => rfl)
  · exact .of_operand h decodePairs_ok (fun _ => rfl) (fun _ => rfl)
  · exact .of_operand h decodePair_ok_append (fun _ => rfl) (fun _ => rfl)

/-- R61, R62: bytes that are read as a fixed part. -/
theorem decodeWire10_beginsWith {bs rest : Bytes} {i : Instr} (h : decodeWire10 bs = .ok (i, rest)) :
    BeginsWith .wire10 bs i rest := by
  unfold decodeWire10 at h
  split at h
  · cases h
  · next id1 id2 more =>
    split at h
    · next hmagic =>
      split at h
      · next cm flg t0 t1 t2 t3 xfl os more =>
        have hword := BeginsWith.of_ok h rfl rfl
        simp only [fixedBytes, le32_u32, ← hmagic] at hword
        exact hword
      · cases h
    · cases h
  · cases h

/-- R63, R72: bytes that are read as one row of the FLG byte. -/
theorem decodeFlgRow_beginsWith {bs rest : Bytes} {i : Instr} (h : decodeFlgRow bs = .ok (i, rest)) :
    BeginsWith .flgsel bs i rest := by
  rcases bs with _ | ⟨flg, bs⟩
  · cases h
  simp only [decodeFlgRow] at h
  split_ifs at h with h0 h1 h2 h3 h4 hlow
  · exact h0 ▸ .of_ok h rfl rfl
  · exact h1 ▸ .of_ok h rfl rfl
  · exact h2 ▸ .of_ok h rfl rfl
  · exact h3 ▸ .of_ok h rfl rfl
  · exact h4 ▸ .of_ok h rfl rfl
  · have hflg : flg.extractLsb' 5 3 ++ 0#5 = flg := by
      rw [← hlow]
      exact BitVec.extractLsb'_append_extractLsb' (w := 3) (len := 5) (x := flg)
    have hword := BeginsWith.of_ok h rfl rfl
    rwa [hflg] at hword

/-- R64: bytes that are read as the length of a section. -/
theorem decodeXsec_beginsWith {bs rest : Bytes} {i : Instr} (h : decodeXsec bs = .ok (i, rest)) :
    BeginsWith .xsec bs i rest := by
  unfold decodeXsec at h
  split at h
  · cases h
  · have hword := BeginsWith.of_ok h rfl rfl
    rwa [le16_u16] at hword
  · cases h

/-- R67: bytes that are read as a stored checksum. -/
theorem decodeHcrc_beginsWith {bs rest : Bytes} {i : Instr} (h : decodeHcrc bs = .ok (i, rest)) :
    BeginsWith .hcrc bs i rest := by
  unfold decodeHcrc at h
  split at h
  · cases h
  · have hword := BeginsWith.of_ok h rfl rfl
    rwa [le16_u16] at hword
  · cases h

/-- R65: bytes that are read as a subfield. -/
theorem decodeSubf_beginsWith {bs rest : Bytes} {i : Instr} (h : decodeSubf bs = .ok (i, rest)) :
    BeginsWith .subf bs i rest := by
  unfold decodeSubf at h
  split at h
  · cases h
  · next i0 i1 l0 l1 more =>
    dsimp only at h
    split at h
    · cases h
    · next hlen =>
      have htake : (more.take (u16 [l0, l1]).toNat).length = (u16 [l0, l1]).toNat :=
        List.length_take_of_le (not_lt.mp hlen)
      have hmax := (u16 [l0, l1]).isLt
      have hword := BeginsWith.of_ok h (decide_eq_true (by omega)) rfl
      rw [htake, lenHalf_of_toNat, le16_u16, List.append_assoc, List.take_append_drop] at hword
      exact hword
  · cases h

/-- Settles O19: by the format. -/
theorem encodeRebuildsEveryDecodedWord : Obligations.EncodeRebuildsEveryDecodedWord := by
  intro fmt bs rest i h
  cases fmt with
  | cmd => exact decodeCmd_beginsWith h
  | wire10 => exact decodeWire10_beginsWith h
  | flgsel => exact decodeFlgRow_beginsWith h
  | xsec => exact decodeXsec_beginsWith h
  | subf => exact decodeSubf_beginsWith h
  | zstr =>
    obtain ⟨text, ht, rfl⟩ := Decoded.into_ok h
    obtain ⟨hbs, hzero⟩ := decodeZstr_ok ht
    exact ⟨by simpa [Instr.wellFormed] using hzero, _, rfl, hbs⟩
  | hcrc => exact decodeHcrc_beginsWith h

/-! ### Single words -/

/-- Settles O17, by evaluation of the decoders on the written words. -/
theorem writtenWordsDecode : Obligations.WrittenWordsDecode := by
  unfold Obligations.WrittenWordsDecode
  decide

/-- Settles O16: the fault entry of a command that is neither DECODE nor ENCODE touches nothing but the record. -/
theorem reservedCodesAreIllegalCommands : Obligations.ReservedCodesAreIllegalCommands := fun _ rest s hc =>
  ⟨decodeCmd_reserved rest hc, _, rfl, ranInto_takeFault _ _ s, onlyAnswered_takeFault _ s⟩

/-- R12: a bit of a byte, as a digit of its value. -/
theorem getLsbD_eq_true_iff_toNat (flg : Byte) (k : Nat) : flg.getLsbD k = true ↔ flg.toNat / 2 ^ k % 2 = 1 := by
  rw [BitVec.getLsbD, Nat.testBit_eq_decide_div_mod_eq, decide_eq_true_iff]

/-- R72: bits 7:5 of a FLG byte, from its value. -/
theorem unnamedBits_eq_ofNat (flg : Byte) : flg.extractLsb' 5 3 = BitVec.ofNat 3 (flg.toNat / 32) := by
  rw [BitVec.extractLsb', Nat.shiftRight_eq_div_pow]

/-- Settles O20: a row is read from the byte exactly when the test of its bit lets it in. -/
theorem flgByteSelectsItsRows : Obligations.FlgByteSelectsItsRows := by
  intro flg i
  simp only [decodeFlgSel, List.mem_append, List.mem_ite_nil_right, List.mem_singleton, getLsbD_eq_true_iff_toNat,
    unnamedBits_eq_ofNat, pow_zero, Nat.div_one, pow_one, Nat.reducePow, or_assoc, and_comm]

end Sys2Proof
end

section
/-! PROOFS about how the host reaches a command (20_memory.md R55, 30_encoding.md R76, R80) and how long an encoded header is (R70). -/

namespace Sys2Proof.Machine

/-- R80: an idle block whose host binds a source. -/
theorem step_bindSrc {s : State} {b : Bytes} {rest : List HostAction} (hb : busy s = false)
    (hs : s.out.script = .bindSrc b :: rest) : step s = .next (bindSource b (withScript rest s)) := by simp [step, hb, hs]

/-- R55: an idle block whose host reads a register. -/
theorem step_readReg {s : State} {i : Nat} {rest : List HostAction} (hb : busy s = false)
    (hs : s.out.script = .readReg i :: rest) : step s = readPort i (withScript rest s) := by simp [step, hb, hs]

/-- R50, R76: an idle block whose host sends a command. -/
theorem step_cmd {s : State} {bs : Bytes} {i : Instr} {rest : List HostAction} (hb : busy s = false)
    (hs : s.out.script = .cmd bs :: rest) (hf : fetchCommand bs = some i) : step s = exec i (withScript rest s) := by
  simp [step, hb, hs, hf]

/-- R32: the registers in the order of their indices. -/
def registers (s : State) : List Value :=
  [.u8 s.h.cm, .u8 s.h.flg, .u32 s.h.mtime, .u8 s.h.xfl, .u8 s.h.os, .optFields s.h.extra, .optBytes s.h.name,
    .optBytes s.h.comment, .bits3 s.status, .u8 s.err, .u32 s.errInfo, .nat s.len]

theorem regRead_eq_getElem? (s : State) (i : Nat) : regRead s i = (registers s)[i]? := by
  rcases Nat.lt_or_ge i 12 with hi | hi
  · interval_cases i <;> rfl
  · obtain ⟨n, rfl⟩ := Nat.exists_eq_add_of_le' hi
    exact (List.getElem?_eq_none hi).symm

/-- Settles O3: by the action at the head of the script. -/
theorem idleBlockTakesHostActions : Obligations.IdleBlockTakesHostActions := by
  intro s rest hb
  refine ⟨fun b hs => ?_, fun i hs => ⟨fun v hv => ?_, fun hi => ?_⟩, fun hs => ?_⟩
  · exact ⟨_, step_bindSrc hb hs, avail_bindSource b _, rfl, rfl⟩
  · have hread : regRead (withScript rest s) i = some v := (regRead_eq_getElem? _ i).trans hv
    rw [step_readReg hb hs, readPort, hread]
    rfl
  · have hread : regRead (withScript rest s) i = none := (regRead_eq_getElem? _ i).trans (List.getElem?_eq_none hi)
    rw [step_readReg hb hs, readPort, hread]
  · simp [step, hb, hs]

/-- Settles O4: what a transaction fetches is what its bytes decode to. -/
theorem stepRunsTheDecodedCommand : Obligations.StepRunsTheDecodedCommand := by
  intro s bs tail rest i hb hs hdec
  have hfetch : fetchCommand bs = some i := by
    change decodeCmd bs = .ok (i, tail) at hdec
    rw [fetchCommand, hdec]
  exact step_cmd hb hs hfetch

/-- Settles O37: an ENCODE that ended `ok` delivered the whole output, whose length is the formula's. -/
theorem encodedLengthIsTheFormula : Obligations.EncodedLengthIsTheFormula := by
  intro s t out hg hflags hexec ⟨_, _, _, hrsp⟩
  cases (exec_encode_operation hg).symm.trans hexec
  rcases encodeWhole_cases s with ⟨-, e⟩ | ⟨-, e⟩ <;> rw [e] at hrsp <;> cases hrsp
  exact headerBytes_length_wire hflags

end Sys2Proof.Machine
end

section
/-! PROOFS about the elements of the wire format (30_encoding.md R61 to R67, R72) as instructions of the parser: what each latches
and where the parser goes (42_decode.md R145, R146). -/

namespace Sys2Proof.Machine

/-- An element in a phase that awaits it. -/
theorem whenAwaited_of_awaited {awaited : Bool} {s : State} (hidle : s.p.ph ≠ .idle) (h : awaited = true)
    (act : State → State) : whenAwaited awaited act s = .next (act s) := by
  rw [whenAwaited, if_neg hidle, if_pos h]

/-! ### GOTO after a latch -/

/-- R145: what `t` is when `w` has been latched into `P.W` in `s` and GOTO taken: everything it holds of `s`, and where it went. -/
structure LatchedAndWent (s : State) (w : Header) (target : Option Phase) (t : State) : Prop where
  w_eq : t.p.w = w
  p_eq : t.p = { s.p with ph := t.p.ph, cnt := 0, tmp := [], acc := [], w := t.p.w, snap := t.p.snap }
  c_snap : t.p.ph ≠ .hcrc → t.c = s.c ∧ t.p.snap = s.p.snap
  kept : s.actionKept t
  selected : target ≠ none → some t.p.ph = target ∧ t.h = s.h ∧ t.len = s.len ∧ s.recordKept t
  done : target = none → t.h = t.p.w ∧ t.p.ph = .idle ∧ t.len = s.r.pos ∧ t.ranOk .unit

theorem goto_latchedAndWent (s : State) (w : Header) (target : Option Phase) :
    LatchedAndWent s w target (goto target (s.setP { s.p with w := w })) where
  w_eq := goto_p_w _ _
  p_eq := by
    rw [goto_p_ph, goto_p_w]
    exact goto_p _ _
  c_snap h := goto_c_snap (goto_p_ph target _ ▸ h) _
  kept := actionKept_trans (actionKept_setP s _) (actionKept_goto _ _)
  selected h := by
    obtain ⟨ph, rfl⟩ := Option.ne_none_iff_exists'.mp h
    obtain ⟨hh, hlen, hrecord⟩ := goto_some_kept ph (s.setP { s.p with w := w })
    exact ⟨congrArg some (goto_p_ph _ _), hh, hlen, hrecord⟩
  done h := by
    subst h
    exact ⟨rfl, rfl, rfl, ranOk_endOk _ _⟩

/-! ### The fixed part -/

/-- R12, R146: no section is selected exactly when the four section bits are 0. -/
theorem sectionBits_eq_zero_iff (flg : Byte) : flg &&& 0x1E#8 = 0#8 ↔
    fextraSet flg = false ∧ fnameSet flg = false ∧ fcommentSet flg = false ∧ fhcrcSet flg = false := by
  revert flg
  decide

/-- R146: after the fixed part, with no section selected. -/
theorem nextPhase_zero_of_bits_zero {flg : Byte} (h : flg &&& 0x1E#8 = 0#8) : nextPhase 0 flg = none := by
  obtain ⟨hx, hn, hc, hh⟩ := (sectionBits_eq_zero_iff flg).mp h
  simp [nextPhase_zero, nextPhase_one, nextPhase_two, nextPhase_three, hx, hn, hc, hh]

/-- R146: after the fixed part, the first section selected, in the order of the header. -/
theorem nextPhase_zero_of_bits_ne_zero {flg : Byte} (h : flg &&& 0x1E#8 ≠ 0#8) :
    nextPhase 0 flg = some (if fextraSet flg then .xlen else if fnameSet flg then .name
      else if fcommentSet flg then .comment else .hcrc) := by
  rw [Ne, sectionBits_eq_zero_iff] at h
  rw [nextPhase_zero, nextPhase_one, nextPhase_two, nextPhase_three]
  split_ifs <;> simp_all

/-- Settles O43: the five fields are latched and NEXT(0, FLG) taken. -/
theorem fixedPartIsLatched : Obligations.FixedPartIsLatched := by
  intro cm flg xfl os m s hph
  have hidle : s.p.ph ≠ .idle := by rcases hph with e | e <;> rw [e] <;> decide
  have hw := goto_latchedAndWent s (fixedHeader cm flg m xfl os) (nextPhase 0 flg)
  obtain ⟨hr, hser, hparams, hret, hhost⟩ := hw.kept
  refine ⟨_, whenAwaited_of_awaited hidle (by simpa using hph) _, hw.w_eq, hw.p_eq, hw.c_snap, hr, hser, hparams, hret,
    hhost, fun h0 => hw.done (nextPhase_zero_of_bits_zero h0), fun h0 => ?_⟩
  have hnext := nextPhase_zero_of_bits_ne_zero h0
  obtain ⟨hgo, hh, hlen, hrecord⟩ := hw.selected (hnext ▸ Option.some_ne_none _)
  exact ⟨hh, hlen, hrecord, Option.some.inj (hgo.trans hnext)⟩

/-! ### The tests of the FLG byte -/

/-- R146: a test in a phase after the fixed part and before its section. -/
theorem whenAwaited_selectSection {isSet : Byte → Bool} {target : Phase} {s : State} (hfixed : 1 ≤ phaseRank s.p.ph)
    (hbefore : phaseRank s.p.ph < phaseRank target) :
    whenAwaited (testable target s) (selectSection isSet target) s =
      .next (if isSet s.p.w.flg then goto (some target) s else s) := by
  refine whenAwaited_of_awaited ?_ (by simp [testable, hfixed, hbefore]) _
  intro hidle
  rw [hidle] at hfixed
  exact absurd hfixed (by decide)

/-- R145, R146: a bit that is set only moves the phase; into HCRC the checksum of the bytes read so far is latched. -/
theorem goto_some_moves (target : Phase) (s : State) :
    (goto (some target) s).p =
      { s.p with ph := target, cnt := 0, tmp := [], acc := [], snap := (goto (some target) s).p.snap } ∧
    (target = .hcrc → (goto (some target) s).p.snap = crc16Of s.r.buf) ∧
    (target ≠ .hcrc → (goto (some target) s).p.snap = s.p.snap ∧ (goto (some target) s).c = s.c) ∧
    goto (some target) s = { s with p := (goto (some target) s).p, c := (goto (some target) s).c } := by
  refine ⟨goto_p (some target) s, ?_, fun h => (goto_c_snap (t := some target) h s).symm, ?_⟩
  · rintro rfl
    rfl
  · cases target <;> rfl

/-- Settles O44: each row is a test between the fixed part and its section. -/
theorem flagTestsSelectTheirSections : Obligations.FlagTestsSelectTheirSections := by
  intro s
  refine ⟨rfl, fun _ => rfl, fun i bit target before hrow hph => ?_⟩
  have hexec : exec i s = .next (if s.p.w.flg.getLsbD bit then goto (some target) s else s) := by
    have hranks : ∀ ph ∈ before, 1 ≤ phaseRank ph ∧ phaseRank ph < phaseRank target := by
      simp only [List.mem_cons, List.not_mem_nil, or_false, Prod.mk.injEq] at hrow
      rcases hrow with ⟨-, -, rfl, rfl⟩ | ⟨-, -, rfl, rfl⟩ | ⟨-, -, rfl, rfl⟩ | ⟨-, -, rfl, rfl⟩ <;> decide
    obtain ⟨hfixed, hbefore⟩ := hranks _ hph
    simp only [List.mem_cons, List.not_mem_nil, or_false, Prod.mk.injEq] at hrow
    rcases hrow with ⟨rfl, rfl, rfl, -⟩ | ⟨rfl, rfl, rfl, -⟩ | ⟨rfl, rfl, rfl, -⟩ | ⟨rfl, rfl, rfl, -⟩ <;>
      exact whenAwaited_selectSection hfixed hbefore
  refine ⟨_, hexec, fun hclear => if_neg (by simp [hclear]), fun hset => ?_⟩
  rw [if_pos hset]
  exact goto_some_moves target s

/-! ### The FEXTRA section -/

/-- R139, R192: a section above a finite capacity. -/
theorem acceptXlen_over {xlen : Half} {s : State} (h : overCap s.params.extraCap xlen.toNat = true) :
    acceptXlen xlen s = takeFault .parser (capFault 1#16) (s.setP { s.p with rem := xlen }) := if_pos h

/-- R139, R145: a section within the capacity. -/
theorem acceptXlen_within {xlen : Half} {s : State} (h : overCap s.params.extraCap xlen.toNat = false) :
    acceptXlen xlen s = subLoop (s.setP { s.p with rem := xlen, w := { s.p.w with extra := some [] } }) :=
  if_neg (Bool.eq_false_iff.mp h)

/-- Settles O46: CapacityExceeded, or SUBLOOP on the latched length. -/
theorem sectionLengthIsLatched : Obligations.SectionLengthIsLatched := by
  intro xlen s hph
  have hkept := actionKept_acceptXlen xlen s
  refine ⟨acceptXlen xlen s, whenAwaited_of_awaited (by simp [hph]) (by simp [hph]) _, ?_⟩
  cases hcap : overCap s.params.extraCap xlen.toNat with
  | true =>
    rw [acceptXlen_over hcap] at hkept ⊢
    obtain ⟨hr, hser, hparams, hret, hhost⟩ := hkept
    exact ⟨rfl, rfl, rfl, fun _ => ⟨rfl, rfl⟩, hr, hser, hparams, hret, hhost,
      fun _ => ⟨ranInto_takeFault _ _ _, rfl, rfl, rfl⟩, nofun⟩
  | false =>
    rw [acceptXlen_within hcap] at hkept ⊢
    obtain ⟨hr, hser, hparams, hret, hhost⟩ := hkept
    obtain ⟨hw, hrem, hslen, htag, hcrc, hnext, hdone, hbad, hsub⟩ :=
      subLoop_spec (s.setP { s.p with rem := xlen, w := { s.p.w with extra := some [] } })
    exact ⟨hrem, hslen, htag, hcrc, hr, hser, hparams, hret, hhost, nofun,
      fun _ => ⟨hw, hnext, fun h0 hn => hw ▸ hdone h0 hn, hbad, hsub⟩⟩

/-- R139, R190: a subfield that does not fit in what remains. -/
theorem acceptSubfield_unfit {i0 i1 : Byte} {data : Bytes} {s : State} (hlen : data.length ≤ 65535)
    (h : s.p.rem.toNat < 4 + data.length) :
    acceptSubfield i0 i1 data s = takeFault .parser (malformed s.p.rem (lenHalf data.length))
      (s.setP { s.p with tag := (i0, i1), slen := lenHalf data.length }) := by
  refine if_neg ?_
  simp only [subFits, lenHalf_toNat hlen, decide_eq_true_eq, not_le]
  exact h

/-- The parser's registers when a subfield has been appended and taken off the remainder (R139, R145 ENDSUB). -/
def Parser.withSubfield (p : Parser) (fs : List Field) (f : Field) : Parser :=
  { p with
    tag := (f.ids0, f.ids1), slen := lenHalf f.data.length, acc := f.data
    w := { p.w with extra := some (fs ++ [f]) }
    rem := BitVec.ofNat 16 (p.rem.toNat - (4 + f.data.length)) }

/-- R139, R145: a subfield that fits. -/
theorem acceptSubfield_fit {i0 i1 : Byte} {data : Bytes} {fs : List Field} {s : State} (hlen : data.length ≤ 65535)
    (hx : s.p.w.extra = some fs) (h : 4 + data.length ≤ s.p.rem.toNat) :
    acceptSubfield i0 i1 data s = subLoop (s.setP (s.p.withSubfield fs ⟨i0, i1, data⟩)) := by
  have hfits : subFits (lenHalf data.length) (s.setP { s.p with tag := (i0, i1), slen := lenHalf data.length }) = true := by
    simp only [subFits, lenHalf_toNat hlen, decide_eq_true_eq]
    exact h
  refine (if_pos hfits).trans ?_
  simp [endSub, State.setP, Parser.withSubfield, hx, lenHalf_toNat hlen]

theorem actionKept_acceptSubfield (i0 i1 : Byte) (data : Bytes) (s : State) :
    s.actionKept (acceptSubfield i0 i1 data s) := by
  unfold acceptSubfield
  dsimp only
  split
  · exact actionKept_trans (actionKept_trans (actionKept_setP s _) (actionKept_setP _ _)) (actionKept_endSub _)
  · exact actionKept_trans (actionKept_setP s _) (actionKept_fault _ _)

/-- Settles O47: MalformedExtra, or SUBLOOP on what remains after the subfield. -/
theorem subfieldIsAppended : Obligations.SubfieldIsAppended := by
  intro i0 i1 data fs s hph hlen hx
  have hidle : s.p.ph ≠ .idle := by rcases hph with e | e | e <;> rw [e] <;> decide
  obtain ⟨hr, hser, hparams, hret, hhost⟩ := actionKept_acceptSubfield i0 i1 data s
  refine ⟨acceptSubfield i0 i1 data s, whenAwaited_of_awaited hidle (by simpa [or_assoc] using hph) _, hr, hser, hparams,
    hret, hhost, ?_⟩
  rcases Nat.lt_or_ge s.p.rem.toNat (4 + data.length) with hfit | hfit
  · rw [acceptSubfield_unfit hlen hfit]
    exact ⟨rfl, rfl, fun _ => ⟨rfl, rfl⟩, fun _ => ⟨ranInto_takeFault _ _ _, rfl, rfl, rfl, rfl⟩, by omega⟩
  · rw [acceptSubfield_fit hlen hx hfit]
    obtain ⟨hw, hrem, hslen, htag, hcrc, hnext, hdone, hbad, hsub⟩ :=
      subLoop_spec (s.setP (s.p.withSubfield fs ⟨i0, i1, data⟩))
    have hleft : (s.p.withSubfield fs ⟨i0, i1, data⟩).rem.toNat = s.p.rem.toNat - (4 + data.length) := rem_sub_toNat _ _
    refine ⟨htag, hslen, hcrc, by omega, fun _ => ⟨hw, ?_, ?_, ?_, ?_, ?_⟩⟩ <;> rw [hrem]
    · simp only [State.setP_p, hleft]
      omega
    · intro h4
      obtain ⟨hh, hto, hkept⟩ := hsub h4
      exact ⟨hto, hh, hkept⟩
    · exact hbad
    · intro h0 hn
      obtain ⟨hh, hto, hkept⟩ := hnext h0 hn
      exact ⟨hto, hh, hkept⟩
    · intro h0 hn
      exact hw ▸ hdone h0 hn

/-! ### Strings -/

/-- Settles O48: the text is latched into the store of its phase, and NEXT taken from there. -/
theorem stringGoesToItsStore : Obligations.StringGoesToItsStore := by
  refine fun text s => ⟨fun hph hcap => ?_, fun hph hcap => ?_⟩
  · have hw := goto_latchedAndWent s { s.p.w with name := some text } (nextPhase 2 s.p.w.flg)
    have hexec : exec (.zstring text) s = .next (acceptName text s) := by
      refine (whenAwaited_of_awaited (by simp [hph]) (by simp [hph]) _).trans ?_
      simp [acceptString, hph, hcap]
    obtain ⟨hr, hser, hparams, hret, hhost⟩ := hw.kept
    exact ⟨_, hexec, hw.w_eq, hr, hhost, hser, hparams, hret, hw.p_eq, hw.c_snap, hw.selected, hw.done⟩
  · have hw := goto_latchedAndWent s { s.p.w with comment := some text } (nextPhase 3 s.p.w.flg)
    have hexec : exec (.zstring text) s = .next (acceptComment text s) := by
      refine (whenAwaited_of_awaited (by simp [hph]) (by simp [hph]) _).trans ?_
      simp [acceptString, hph, hcap]
    obtain ⟨hr, hser, hparams, hret, hhost⟩ := hw.kept
    refine ⟨_, hexec, hw.w_eq, hr, hhost, hser, hparams, hret, hw.p_eq, hw.c_snap, fun hset => ?_, fun hclear => ?_⟩
    · have hnext : nextPhase 3 s.p.w.flg = some .hcrc := (nextPhase_three _).trans (if_pos hset)
      obtain ⟨hgo, hh, hlen, hrecord⟩ := hw.selected (hnext ▸ Option.some_ne_none _)
      refine ⟨Option.some.inj (hgo.trans hnext), ?_, hh, hlen, hrecord⟩
      rw [acceptComment, hnext]
      rfl
    · exact hw.done ((nextPhase_three _).trans (if_neg (Bool.eq_false_iff.mp hclear)))

/-! ### The stored checksum -/

/-- Settles O49: the comparison of R136 decides between GOTO(DONE) and ChecksumMismatch. -/
theorem storedChecksumDecides : Obligations.StoredChecksumDecides := by
  intro stored s hph
  obtain ⟨hr, hser, hparams, hret, hhost⟩ := actionKept_acceptHcrc stored s
  refine ⟨acceptHcrc stored s, whenAwaited_of_awaited (by simp [hph]) (by simp [hph]) _, hr, hhost, hser, hparams, ?_⟩
  by_cases heq : stored = s.p.snap
  · have e : acceptHcrc stored s = goto none s := if_pos heq
    rw [e, goto_done]
    exact ⟨rfl, rfl, rfl, rfl, rfl, rfl, rfl, rfl, rfl, fun _ => ⟨rfl, ranOk_endOk _ _⟩, fun hne => absurd heq hne⟩
  · have e : acceptHcrc stored s = takeFault .parser ⟨.checksumMismatch, s.p.snap, stored⟩ s := if_neg heq
    rw [e]
    exact ⟨rfl, rfl, rfl, rfl, rfl, rfl, rfl, rfl, rfl, fun h => absurd h heq, fun _ => ⟨rfl, ranInto_takeFault _ _ _⟩⟩

end Sys2Proof.Machine
end

section
/-! PROOFS about the Header register file and Fields (40_header_and_field.md R90 to R112): what each read, write, setter and clear
does to `H`, and what it leaves alone. -/

namespace Sys2Proof.Machine

/-! ### One bit of the FLG byte -/

/-- Bit `k` set, the others kept. -/
theorem getLsbD_or_twoPow (flg : Byte) (k : Nat) {i : Nat} (hi : i < 8) :
    (flg ||| BitVec.twoPow 8 k).getLsbD i = if i = k then true else flg.getLsbD i := by
  rw [BitVec.getLsbD_or, BitVec.getLsbD_twoPow]
  by_cases h : i = k
  · simp [← h, hi]
  · simp [h, Ne.symm h]

/-- Bit `k` cleared, the others kept. -/
theorem getLsbD_and_not_twoPow (flg : Byte) (k : Nat) {i : Nat} (hi : i < 8) :
    (flg &&& ~~~BitVec.twoPow 8 k).getLsbD i = if i = k then false else flg.getLsbD i := by
  rw [BitVec.getLsbD_and, BitVec.getLsbD_not, BitVec.getLsbD_twoPow]
  by_cases h : i = k
  · simp [← h, hi]
  · simp [h, Ne.symm h, hi]

/-- R101: SET_EXTRA sets bit 2. -/
theorem flgWithExtra_bits (flg : Byte) (i : Nat) (hi : i < 8) :
    (flgWithExtra flg).getLsbD i = if i = 2 then true else flg.getLsbD i := getLsbD_or_twoPow flg 2 hi

/-- R104: SET_NAME sets bit 3. -/
theorem flgWithName_bits (flg : Byte) (i : Nat) (hi : i < 8) :
    (flgWithName flg).getLsbD i = if i = 3 then true else flg.getLsbD i := getLsbD_or_twoPow flg 3 hi

/-- R107: SET_COMMENT sets bit 4. -/
theorem flgWithComment_bits (flg : Byte) (i : Nat) (hi : i < 8) :
    (flgWithComment flg).getLsbD i = if i = 4 then true else flg.getLsbD i := getLsbD_or_twoPow flg 4 hi

/-- R102: CLR_EXTRA clears bit 2. -/
theorem flgWithoutExtra_bits (flg : Byte) (i : Nat) (hi : i < 8) :
    (flgWithoutExtra flg).getLsbD i = if i = 2 then false else flg.getLsbD i := getLsbD_and_not_twoPow flg 2 hi

/-- R105: CLR_NAME clears bit 3. -/
theorem flgWithoutName_bits (flg : Byte) (i : Nat) (hi : i < 8) :
    (flgWithoutName flg).getLsbD i = if i = 3 then false else flg.getLsbD i := getLsbD_and_not_twoPow flg 3 hi

/-- R108: CLR_COMMENT clears bit 4. -/
theorem flgWithoutComment_bits (flg : Byte) (i : Nat) (hi : i < 8) :
    (flgWithoutComment flg).getLsbD i = if i = 4 then false else flg.getLsbD i := getLsbD_and_not_twoPow flg 4 hi

/-! ### How a command on `H` ends -/

/-- R200: what a command that has written `H` and ended `ok` leaves: everything but `H` and the record. -/
theorem endOk_setH_frame (h : Header) (s : State) : (endOk .unit (s.setH h)).ranOk .unit ∧
    (endOk .unit (s.setH h)).c = s.c ∧ s.unitsKept (endOk .unit (s.setH h)) :=
  ⟨ranOk_endOk _ _, rfl, unitsKept_setH _ h s⟩

/-- A command that ends `ok` and has only read. -/
theorem answersOk {o : Host.Outcome State Fault Refusal} {v : Value} {s : State} (h : o = .next (endOk v s)) :
    ∃ t, o = .next t ∧ t.ranOk v ∧ s.onlyAnswered t := ⟨_, h, ranOk_endOk v s, onlyAnswered_endOk v s⟩

/-- R199 (e): a command other than DECODE and ENCODE that ends in the fault `f`. -/
theorem answersFault {o : Host.Outcome State Fault Refusal} {f : FaultRec} {s : State}
    (h : o = .next (takeFault .other f s)) : ∃ t, o = .next t ∧ t.ranInto f (faultCode f.kind) ∧ s.onlyAnswered t :=
  ⟨_, h, ranInto_takeFault .other f s, onlyAnswered_takeFault f s⟩

/-! ### The three setters and FIELD_NEW -/

/-- R101: Fields within the capacity. -/
theorem exec_setExtra_within {fs : List Field} {s : State} (h : overCap s.params.extraCap (extraLen fs) = false) :
    exec (.setExtra (rawPairs fs)) s =
      .next (endOk .unit (s.setH { s.h with extra := some fs, flg := flgWithExtra s.h.flg })) := by
  simp [exec, execSetExtra, fieldsNew_rawPairs, h]

/-- R101, R192: Fields above the capacity. -/
theorem exec_setExtra_over {fs : List Field} {s : State} (h : overCap s.params.extraCap (extraLen fs) = true) :
    exec (.setExtra (rawPairs fs)) s = .next (takeFault .other (capFault 1#16) s) := by
  simp [exec, execSetExtra, fieldsNew_rawPairs, h]

/-- R101, R197: the fault of a pair ends SET_EXTRA, and no capacity is looked at. -/
theorem exec_setExtra_error {ps : List (Bytes × Bytes)} {f : FaultRec} (h : fieldsNew ps = .error f) (s : State) :
    exec (.setExtra ps) s = .next (takeFault .other f s) := by
  simp [exec, execSetExtra, h]

/-- R104: a text within the capacity. -/
theorem exec_setName_within {text : Bytes} {s : State} (h : overCap s.params.nameCap text.length = false) :
    exec (.setName text) s =
      .next (endOk .unit (s.setH { s.h with name := some text, flg := flgWithName s.h.flg })) :=
  if_neg (Bool.eq_false_iff.mp h)

/-- R104, R192: a text above the capacity. -/
theorem exec_setName_over {text : Bytes} {s : State} (h : overCap s.params.nameCap text.length = true) :
    exec (.setName text) s = .next (takeFault .other (capFault 2#16) s) := if_pos h

/-- R107: a text within the capacity. -/
theorem exec_setComment_within {text : Bytes} {s : State} (h : overCap s.params.commentCap text.length = false) :
    exec (.setComment text) s =
      .next (endOk .unit (s.setH { s.h with comment := some text, flg := flgWithComment s.h.flg })) :=
  if_neg (Bool.eq_false_iff.mp h)

/-- R107, R192: a text above the capacity. -/
theorem exec_setComment_over {text : Bytes} {s : State} (h : overCap s.params.commentCap text.length = true) :
    exec (.setComment text) s = .next (takeFault .other (capFault 3#16) s) := if_pos h

/-- R110, R189: FIELD_NEW of `ids` that are not 2 bytes. -/
theorem fieldNew_of_length_ne {ids : Bytes} (h : ids.length ≠ 2) (data : Bytes) :
    fieldNew ids data = .error ⟨.invalidFieldIds, saturatedHalf ids.length, 0#16⟩ := by
  rcases fieldNew_cases ids data with ⟨i0, i1, rfl, -⟩ | ⟨-, e⟩
  · exact absurd rfl h
  · exact e

/-- R110: the command FIELD_NEW ends in the fault of the procedure. -/
theorem exec_fieldNew_error {ids data : Bytes} {f : FaultRec} (h : fieldNew ids data = .error f) (s : State) :
    exec (.fieldNew ids data) s = .next (takeFault .other f s) := by
  simp [exec, execFieldNew, h]

/-- R101: the capacity test of SET_EXTRA, on the sum that the rule writes out. -/
theorem extraLen_eq_sum (fs : List Field) : extraLen fs = (fs.map (fun f => 4 + f.data.length)).sum := rfl

/-- Settles O9: the pairs become the Fields, and their encoded lengths fit. -/
theorem setExtraStoresTheFields : Obligations.SetExtraStoresTheFields := by
  intro fs s hcap
  have hfits : overCap s.params.extraCap (extraLen fs) = false := overCap_eq_false.mpr (extraLen_eq_sum fs ▸ hcap)
  exact ⟨_, exec_setExtra_within hfits, rfl, flgWithExtra_bits s.h.flg, endOk_setH_frame _ s⟩

/-- Settles O10: the Fields before the bad pair do not matter, nor does what follows it. -/
theorem setExtraFaultsAtTheFirstBadIds : Obligations.SetExtraFaultsAtTheFirstBadIds := by
  intro fs ids data tail s hids
  have hloop := fieldsNew_append_error fs (ids, data) tail _ (fieldNew_of_length_ne hids data)
  exact answersFault (exec_setExtra_error hloop s)

/-- Settles O12: each setter tests its own capacity. -/
theorem settersFaultAboveCapacity : Obligations.SettersFaultAboveCapacity := by
  intro fs text c s
  refine ⟨fun hc hlt => ?_, fun hc hlt => ?_, fun hc hlt => ?_⟩
  · exact answersFault (exec_setExtra_over (overCap_eq_true.mpr ⟨c, hc, hlt⟩))
  · exact answersFault (exec_setName_over (overCap_eq_true.mpr ⟨c, hc, hlt⟩))
  · exact answersFault (exec_setComment_over (overCap_eq_true.mpr ⟨c, hc, hlt⟩))

/-- Settles O11: each setter tests the length of the text and nothing else of it. -/
theorem setStringsStoreTheText : Obligations.SetStringsStoreTheText := by
  intro text s
  refine ⟨fun hcap => ?_, fun hcap => ?_⟩
  · exact ⟨_, exec_setName_within (overCap_eq_false.mpr hcap), rfl, flgWithName_bits s.h.flg, endOk_setH_frame _ s⟩
  · exact ⟨_, exec_setComment_within (overCap_eq_false.mpr hcap), rfl, flgWithComment_bits s.h.flg, endOk_setH_frame _ s⟩

/-- Settles O14: by the length of the ids. -/
theorem fieldNewChecksTheIds : Obligations.FieldNewChecksTheIds := by
  intro i0 i1 ids data s
  refine ⟨⟨_, rfl⟩, answersOk rfl, fun hids => ?_⟩
  exact answersFault (exec_fieldNew_error (fieldNew_of_length_ne hids data) s)

/-! ### HDR_INIT, the fixed fields, the reads and the clears -/

/-- Settles O5: the Header written does not depend on the one it replaces. -/
theorem hdrInitWritesTheDefaults : Obligations.HdrInitWritesTheDefaults := by
  refine ⟨rfl, fun s => ?_⟩
  obtain ⟨hok, hc, hunits⟩ := endOk_setH_frame Header.fresh s
  exact ⟨_, rfl, rfl, hok, hc, hunits, rfl⟩

/-- Settles O6: each write replaces one register of `H`. -/
theorem fixedFieldWritesStoreTheOperand : Obligations.FixedFieldWritesStoreTheOperand := by
  intro v m s
  refine ⟨⟨_, rfl⟩, ⟨_, rfl⟩, ⟨_, rfl⟩, ⟨_, rfl⟩, ?_, ?_, ?_, ?_⟩
  · exact ⟨_, rfl, rfl, endOk_setH_frame { s.h with cm := v } s⟩
  · exact ⟨_, rfl, rfl, endOk_setH_frame { s.h with mtime := m } s⟩
  · exact ⟨_, rfl, rfl, endOk_setH_frame { s.h with xfl := v } s⟩
  · exact ⟨_, rfl, rfl, endOk_setH_frame { s.h with os := v } s⟩

/-- Settles O7: by the bits of the masked byte. -/
theorem wrFlgKeepsThePresenceBits : Obligations.WrFlgKeepsThePresenceBits := by
  intro v s
  exact ⟨⟨_, rfl⟩, _, rfl, rfl, flgMasked_bits v s.h.flg, endOk_setH_frame _ s⟩

/-- Settles O8: by the rows of the list, each of which is its code and an ok end with its register. -/
theorem readsReturnTheRegister : Obligations.ReadsReturnTheRegister := by
  intro s i code v hrow
  suffices hrows : encodeInstr i = some (.cmd, [code]) ∧ exec i s = .next (endOk v s) by
    obtain ⟨hcode, hexec⟩ := hrows
    exact ⟨hcode, answersOk hexec⟩
  simp only [List.mem_cons, List.not_mem_nil, or_false, Prod.mk.injEq] at hrow
  rcases hrow with ⟨rfl, rfl, rfl⟩ | ⟨rfl, rfl, rfl⟩ | ⟨rfl, rfl, rfl⟩ | ⟨rfl, rfl, rfl⟩ | ⟨rfl, rfl, rfl⟩ |
    ⟨rfl, rfl, rfl⟩ | ⟨rfl, rfl, rfl⟩ | ⟨rfl, rfl, rfl⟩ <;> exact ⟨rfl, rfl⟩

/-- Settles O13: each clear empties one store and clears its bit. -/
theorem clearsEmptyTheStoreAndItsBit : Obligations.ClearsEmptyTheStoreAndItsBit := by
  refine ⟨rfl, rfl, rfl, fun s => ⟨?_, ?_, ?_⟩⟩
  · exact ⟨_, rfl, rfl, flgWithoutExtra_bits s.h.flg, endOk_setH_frame _ s⟩
  · exact ⟨_, rfl, rfl, flgWithoutName_bits s.h.flg, endOk_setH_frame _ s⟩
  · exact ⟨_, rfl, rfl, flgWithoutComment_bits s.h.flg, endOk_setH_frame _ s⟩

/-! ### FIELD_LEN and FIELD_ENC -/

/-- R6 `LE16`: the two bytes of a half, low byte first, are its value. -/
theorem extract8_toNat_sum (v : Half) : (v.extractLsb' 0 8).toNat + 256 * (v.extractLsb' 8 8).toNat = v.toNat :=
  (u16_toNat _ _).symm.trans (congrArg BitVec.toNat (u16_le16 v))

/-- R112: the length place holds a length that fits it. -/
theorem lengthPlace_toNat {n : Nat} (h : n ≤ 65535) : (lengthPlace n).toNat = n := by
  rw [lengthPlace, if_pos h, lenHalf_toNat h]

/-- Settles O15: the answer is the ids, the two bytes of the length place, and the data. -/
theorem fieldProceduresReturnTheEncodedForm : Obligations.FieldProceduresReturnTheEncodedForm := by
  refine fun f s => ⟨rfl, fieldEncAnswer f, (lengthPlace f.data.length).extractLsb' 0 8,
    (lengthPlace f.data.length).extractLsb' 8 8, rfl, rfl, ?_, fun hfits => ?_⟩
  · simp only [fieldEncAnswer, List.length_append, fieldIds_length, le16_length]
  · rw [extract8_toNat_sum, lengthPlace_toNat hfits]

end Sys2Proof.Machine
end

section
/-! PROOFS about the Byte Reader (41_byte_reader.md R120 to R125) run on its own: what opening, reading and copying the buffer leave
of the source, the buffer and the count. -/

namespace Sys2Proof.Machine

/-- Settles O21: both procedures write the reader's registers and `ret` only. -/
theorem readerOpensEmptyAndExposesItsBuffer : Obligations.ReaderOpensEmptyAndExposesItsBuffer :=
  fun _ => ⟨rfl, rfl⟩

/-! ### A read that the source can serve -/

/-- R121, R124: BR_READ within the source. -/
theorem exec_brRead_within {n : Nat} {s : State} (h : n ≤ (avail s).length) :
    exec (.brRead n) s = .next ((took ((avail s).take n) s).setRet (.bytes ((avail s).take n))) := by
  have hread : brRead n s = .ret ((avail s).take n) (took ((avail s).take n) s) := by
    rcases brRead_cases n s with ⟨-, hret⟩ | ⟨hshort, -⟩
    · exact hret
    · exact absurd hshort h.not_gt
  exact congrArg (fun m => Host.Outcome.next (runProc m .bytes)) hread

/-- R124: the reader's registers after the first `n` bytes have been taken. -/
theorem took_take_r {n : Nat} {s : State} (h : n ≤ (avail s).length) : (took ((avail s).take n) s).r =
    { s.r with buf := s.r.buf ++ (avail s).take n, pos := s.r.pos + n } := by
  rw [took, List.length_take_of_le h]

/-- R121: what the source can still give after its first `n` bytes have been taken. -/
theorem avail_took_take {n : Nat} {s : State} (h : n ≤ (avail s).length) :
    avail (took ((avail s).take n) s) = (avail s).drop n := by
  rw [avail_took, List.length_take_of_le h]

/-- Settles O22: the state after the read is `took` of the first `n` bytes. -/
theorem readReturnsTheNextBytes : Obligations.ReadReturnsTheNextBytes :=
  fun _ _ h => ⟨_, exec_brRead_within h, rfl, avail_took_take h, took_take_r h, rfl, srcAfter_of_unbound⟩

/-! ### A short read -/

/-- R121, R125: BR_READ beyond the source takes DECODE's fault entry (R187, R199). -/
theorem exec_brRead_short {n : Nat} {s : State} (h : (avail s).length < n) : exec (.brRead n) s =
    .next (takeFault .parser ⟨.unexpectedEndOfStream, countHalf n, countHalf (avail s).length⟩ (drained s)) :=
  congrArg (fun m => Host.Outcome.next (runProc m .bytes)) (brRead_short h)

/-- R41: a short read from an unbound source takes nothing. -/
theorem drained_src_of_unbound {s : State} (h : s.r.bound = false) : (drained s).out.src = s.out.src := by
  simp [drained, h]

/-- R125, R199: draining the source and taking DECODE's fault entry leave what no DECODE touches. -/
theorem decodeKept_takeFault_drained (f : FaultRec) (s : State) : s.decodeKept (takeFault .parser f (drained s)) :=
  ⟨rfl, rfl, rfl, rfl, rfl, rfl, rfl⟩

/-- Settles O23: the state after the read is DECODE's fault entry after `drained`, and both counts fit the information
register. -/
theorem shortReadIsFatal : Obligations.ShortReadIsFatal := by
  intro n s hshort hn
  have hexec := exec_brRead_short hshort
  rw [countHalf_small hn, countHalf_small (hshort.le.trans hn)] at hexec
  exact ⟨_, hexec, ranInto_takeFault _ _ _, avail_drained s, rfl, rfl, rfl, drained_src_of_unbound, rfl, rfl,
    decodeKept_takeFault_drained _ s⟩

end Sys2Proof.Machine
end

section
/-! PROOFS about the procedures PARSE_EXTRA and PARSE_ZSTR run on their own (42_decode.md R139, R141), about NEXT (R146), and about
the phases an element of the wire format waits for (R144). -/

namespace Sys2Proof.Machine

/-! ### PARSE_EXTRA and PARSE_ZSTR -/

/-- R139: PARSE_EXTRA run on its own, on the bytes of a section. -/
theorem exec_parseExtra_append {fs : List Field} {rest : Bytes} {s : State} (hlen : extraLen fs ≤ 65535)
    (hcap : overCap s.params.extraCap (extraLen fs) = false) (h : avail s = xsecBytes fs ++ rest) :
    exec .parseExtra s = .next ((took (xsecBytes fs) s).setRet (.fields fs)) :=
  congrArg (fun m => Host.Outcome.next (runProc m .fields)) (parseExtra_append hlen hcap h)

/-- R141: PARSE_ZSTR run on its own, on the bytes of a string. -/
theorem exec_parseZstr_append {sec : StrSection} {text rest : Bytes} {s : State} (hz : 0#8 ∉ text)
    (hcap : overCap (strCap sec s.params) text.length = false) (h : avail s = zstrBytes text ++ rest) :
    exec (.parseZstr sec) s = .next ((took (zstrBytes text) s).setRet (.bytes text)) :=
  congrArg (fun m => Host.Outcome.next (runProc m .bytes)) (parseZstr_append hz hcap h)

/-- Settles O24: the procedure takes the bytes of the section and hands the Fields over. -/
theorem parseExtraReadsTheFields : Obligations.ParseExtraReadsTheFields := by
  intro fs rest s hlen hcap h
  change avail s = xsecBytes fs ++ rest at h
  refine ⟨_, exec_parseExtra_append hlen hcap h, rfl, avail_took_append h, ?_, rfl, rfl, rfl, rfl,
    ⟨rfl, rfl, rfl, rfl⟩, rfl, rfl, rfl, rfl, rfl⟩
  simp [took, xsecBytes, lenHalf]

/-- Settles O25: the procedure takes the text and its zero byte and hands the text over. -/
theorem parseZstrReadsUpToTheZero : Obligations.ParseZstrReadsUpToTheZero := by
  intro sec text rest s hz hcap h
  have hbytes : avail s = zstrBytes text ++ rest := by simpa [zstrBytes] using h
  refine ⟨_, exec_parseZstr_append hz hcap hbytes, rfl, avail_took_append hbytes, ?_, rfl, rfl, rfl, rfl,
    ⟨rfl, rfl, rfl, rfl⟩, rfl, rfl, rfl, rfl, rfl⟩
  simp [took, zstrBytes]

/-! ### NEXT -/

/-- Settles O45: each test of NEXT is that of its bit. -/
theorem flagTestsInOrderAreNext : Obligations.FlagTestsInOrderAreNext :=
  fun flg => ⟨nextPhase_three flg, nextPhase_two flg, nextPhase_one flg, nextPhase_zero flg⟩

/-! ### An element outside its phase -/

/-- R144: the machine takes no step in IDLE. -/
theorem whenAwaited_idle {s : State} (h : s.p.ph = .idle) (awaited : Bool) (act : State → State) :
    whenAwaited awaited act s = .next s := if_pos h

/-- Entry 13: an element that no rule gives an effect in the phase. -/
theorem whenAwaited_outOfPhase {awaited : Bool} {s : State} (hidle : s.p.ph ≠ .idle) (h : awaited = false)
    (act : State → State) : whenAwaited awaited act s = .fault .outOfPhase := by
  rw [whenAwaited, if_neg hidle, if_neg (by simp [h])]

/-- R146: a test of the FLG byte is not made in a phase outside those between the fixed part and its section. -/
theorem testable_eq_false {target : Phase} {before : List Phase} {s : State}
    (hranks : ∀ ph, 1 ≤ phaseRank ph → phaseRank ph < phaseRank target → ph ∈ before) (h : s.p.ph ∉ before) :
    testable target s = false := by
  by_contra htest
  simp only [testable, Bool.not_eq_false, Bool.and_eq_true, decide_eq_true_eq] at htest
  exact h (hranks s.p.ph htest.1 htest.2)

/-- What R144 and entry 13 say of an element: it is run when `own` has the phase, it does nothing in IDLE, and the model stops
in any other phase. -/
theorem waits_of_whenAwaited {i : Instr} {own : List Phase} {s : State} {awaited : Bool} {act : State → State}
    (hexec : exec i s = whenAwaited awaited act s) (hown : s.p.ph ∉ own → awaited = false) :
    (s.p.ph = .idle → exec i s = .next s) ∧ (s.p.ph ≠ .idle → s.p.ph ∉ own → exec i s = .fault .outOfPhase) :=
  ⟨fun h => hexec.trans (whenAwaited_idle h _ _), fun hidle h => hexec.trans (whenAwaited_outOfPhase hidle (hown h) _)⟩

/-- Settles O50: the tests of the FLG byte by the rank of the phase, the other elements by the phases they name. -/
theorem elementsWaitForTheirPhase : Obligations.ElementsWaitForTheirPhase := by
  intro i own s hrow
  rcases hrow with htest | ⟨a, b, c, d, m, e⟩ | ⟨n, e⟩ | ⟨a, b, d, e⟩ | ⟨x, e⟩ | ⟨v, e⟩
  · simp only [List.mem_cons, List.not_mem_nil, or_false, Prod.mk.injEq] at htest
    rcases htest with ⟨rfl, rfl⟩ | ⟨rfl, rfl⟩ | ⟨rfl, rfl⟩ | ⟨rfl, rfl⟩
    · exact waits_of_whenAwaited (awaited := testable .xlen s) rfl (testable_eq_false fun ph => by cases ph <;> decide)
    · exact waits_of_whenAwaited (awaited := testable .name s) rfl (testable_eq_false fun ph => by cases ph <;> decide)
    · exact waits_of_whenAwaited (awaited := testable .comment s) rfl (testable_eq_false fun ph => by cases ph <;> decide)
    · exact waits_of_whenAwaited (awaited := testable .hcrc s) rfl (testable_eq_false fun ph => by cases ph <;> decide)
  · cases e
    exact waits_of_whenAwaited (act := acceptFixed a b m c d) rfl (by simp)
  · cases e
    exact waits_of_whenAwaited (act := acceptXlen n) rfl (by simp)
  · cases e
    exact waits_of_whenAwaited (act := acceptSubfield a b d) rfl (by simp +contextual)
  · cases e
    exact waits_of_whenAwaited (act := acceptString x) rfl (by simp)
  · cases e
    exact waits_of_whenAwaited (act := acceptHcrc v) rfl (by simp)

end Sys2Proof.Machine
end

section
/-! PROOFS about the outcomes of DECODE at the level of the whole operation (42_decode.md R130 to R142): each fault at the read
where it is raised, the Header an ok end leaves, and that the source and the capacities decide everything (R150, R151). -/

namespace Sys2Proof.Machine

/-! ### Where a DECODE faults -/

/-- R138, R199: the state a DECODE leaves when its steps raise `f` after `n` bytes of the source, with `rest` still to read. -/
structure DecodeFaulted (s : State) (f : FaultRec) (n : Nat) (rest : Bytes) (t : State) : Prop where
  exec_eq : exec .decode s = .next t
  ranInto : t.ranInto f (faultCode f.kind)
  h_eq : t.h = s.h
  len_eq : t.len = n
  avail_eq : avail t = rest
  idle : t.p.ph = .idle

/-- R138: a DECODE whose steps raise, from the reader's registers where they raise. -/
theorem decodeFaulted_of_raise {s u : State} {f : FaultRec} {n : Nat} {rest : Bytes} (hg : s.params.grain = .operation)
    (hr : decodeRun s = .raise f u) (hpos : u.r.pos = n) (havail : avail u = rest) :
    DecodeFaulted s f n rest (takeFault .parser f u) where
  exec_eq := execDecode_raise hg hr
  ranInto := ranInto_takeFault _ _ _
  h_eq := by
    have hu := (decodeReached_final s).h_eq
    rwa [hr] at hu
  len_eq := hpos
  avail_eq := havail
  idle := rfl

/-- R131, R132: a fault of the fixed part is DECODE's. -/
theorem decodeRun_of_parseFixed_raise {s u : State} {f : FaultRec} (h : parseFixed (brOpen s) = .raise f u) :
    decodeRun s = .raise f u := by rw [decodeRun, h, Proc.bind_raise]

/-! ### The fixed part -/

/-- R131: fewer than two bytes. -/
theorem parseFixed_noMagic {s : State} (h : (avail s).length < 2) :
    parseFixed s = .raise ⟨.unexpectedEndOfStream, countHalf 2, countHalf (avail s).length⟩ (drained s) := by
  rw [parseFixed, brRead_short h, Proc.bind_raise]

/-- R132: the magic and fewer than eight bytes more. -/
theorem parseFixed_short {s : State} {rest : Bytes} (h : avail s = magic ++ rest) (hrest : rest.length < 8) :
    parseFixed s =
      .raise ⟨.unexpectedEndOfStream, countHalf 8, countHalf rest.length⟩ (drained (took magic s)) := by
  have hmagic : brRead 2 s = .ret magic (took magic s) := brRead_append h
  have hleft : avail (took magic s) = rest := avail_took_append h
  rw [parseFixed, hmagic, Proc.bind_ret, if_pos rfl, brRead_short (hleft ▸ hrest), Proc.bind_raise, hleft]

/-- R131, R186: two bytes that are not the magic. -/
theorem parseFixed_wrongMagic {a b : Byte} {rest : Bytes} {s : State} (h : avail s = [a, b] ++ rest)
    (hne : [a, b] ≠ magic) :
    parseFixed s = .raise ⟨.invalidMagic, byteHalf a, byteHalf b⟩ (took [a, b] s) := by
  have hread : brRead 2 s = .ret [a, b] (took [a, b] s) := brRead_append h
  rw [parseFixed, hread, Proc.bind_ret, if_neg hne]
  rfl

/-- Settles O27: the short read is that of the magic, or that of the eight bytes after it. -/
theorem decodeRejectsATruncatedStart : Obligations.DecodeRejectsATruncatedStart := by
  refine fun s hg => ⟨fun hshort => ?_, fun rest hbytes hrest => ?_⟩
  · have hr := decodeRun_of_parseFixed_raise (parseFixed_noMagic (s := brOpen s) hshort)
    rw [avail_brOpen, countHalf_small (by omega), countHalf_small (n := (avail s).length) (by omega)] at hr
    have ht := decodeFaulted_of_raise hg hr (Nat.zero_add _) (avail_drained _)
    exact ⟨_, ht.exec_eq, ht.ranInto, ht.h_eq, ht.len_eq, ht.avail_eq, ht.idle⟩
  · have hr := decodeRun_of_parseFixed_raise (parseFixed_short (s := brOpen s) hbytes hrest)
    rw [countHalf_small (by omega), countHalf_small (n := rest.length) (by omega)] at hr
    have hpos : (drained (took magic (brOpen s))).r.pos = 2 + rest.length := by
      simp [drained, hbytes]
    have ht := decodeFaulted_of_raise hg hr hpos (avail_drained _)
    exact ⟨_, ht.exec_eq, ht.ranInto, ht.h_eq, ht.len_eq, ht.avail_eq, ht.idle⟩

/-- Settles O28: the comparison of R131 comes before the other eight bytes are read. -/
theorem decodeRejectsAWrongMagic : Obligations.DecodeRejectsAWrongMagic := by
  intro s a b rest hg hbytes hne
  have hmagic : [a, b] ≠ magic := by simpa [magic] using hne
  have hr := decodeRun_of_parseFixed_raise (parseFixed_wrongMagic (s := brOpen s) hbytes hmagic)
  have ht := decodeFaulted_of_raise hg hr rfl (avail_took_append (s := brOpen s) hbytes)
  exact ⟨_, ht.exec_eq, ht.ranInto, ht.h_eq, ht.len_eq, ht.avail_eq, ht.idle⟩

/-! ### The first section after the fixed part -/

/-- R61: the ten bytes of a fixed part with the magic. -/
def fixedPart (cm flg t0 t1 t2 t3 xfl os : Byte) : Bytes := [0x1f#8, 0x8b#8, cm, flg, t0, t1, t2, t3, xfl, os]

@[simp] theorem fixedPart_length (cm flg t0 t1 t2 t3 xfl os : Byte) :
    (fixedPart cm flg t0 t1 t2 t3 xfl os).length = 10 := rfl

/-- R132, R133: after the fixed part, a fault in the FEXTRA section is DECODE's. -/
theorem decodeRun_of_extra_raise {cm flg t0 t1 t2 t3 xfl os : Byte} {more : Bytes} {f : FaultRec} {s u : State}
    (h : avail s = fixedPart cm flg t0 t1 t2 t3 xfl os ++ more) (hflg : fextraSet flg = true)
    (hr : parseExtra (took (fixedPart cm flg t0 t1 t2 t3 xfl os) (brOpen s)) = .raise f u) :
    decodeRun s = .raise f u := by
  have hfixed := parseFixed_bytes (s := brOpen s) h
  have hsec : optionally (fextraSet flg) parseExtra (took (fixedPart cm flg t0 t1 t2 t3 xfl os) (brOpen s)) =
      .raise f u := by rw [optionally, if_pos hflg, hr, Proc.bind_raise]
  rw [decodeRun, hfixed, Proc.bind_ret]
  exact congrArg (fun m => Proc.bind m _) hsec

/-- R134: with no FEXTRA section, a fault in the filename is DECODE's. -/
theorem decodeRun_of_name_raise {cm flg t0 t1 t2 t3 xfl os : Byte} {more : Bytes} {f : FaultRec} {s u : State}
    (h : avail s = fixedPart cm flg t0 t1 t2 t3 xfl os ++ more) (hx : fextraSet flg = false) (hn : fnameSet flg = true)
    (hr : parseZstr .name (took (fixedPart cm flg t0 t1 t2 t3 xfl os) (brOpen s)) = .raise f u) :
    decodeRun s = .raise f u := by
  have hfixed := parseFixed_bytes (s := brOpen s) h
  have hsec : optionally (fnameSet flg) (parseZstr .name) (took (fixedPart cm flg t0 t1 t2 t3 xfl os) (brOpen s)) =
      .raise f u := by rw [optionally, if_pos hn, hr, Proc.bind_raise]
  rw [decodeRun, hfixed, Proc.bind_ret]
  simp only [fixedHeader, hx, optionally_false, Proc.bind_ret]
  exact congrArg (fun m => Proc.bind m _) hsec

/-- R135: with neither FEXTRA section nor filename, a fault in the comment is DECODE's. -/
theorem decodeRun_of_comment_raise {cm flg t0 t1 t2 t3 xfl os : Byte} {more : Bytes} {f : FaultRec} {s u : State}
    (h : avail s = fixedPart cm flg t0 t1 t2 t3 xfl os ++ more) (hx : fextraSet flg = false) (hn : fnameSet flg = false)
    (hc : fcommentSet flg = true)
    (hr : parseZstr .comment (took (fixedPart cm flg t0 t1 t2 t3 xfl os) (brOpen s)) = .raise f u) :
    decodeRun s = .raise f u := by
  have hfixed := parseFixed_bytes (s := brOpen s) h
  have hsec : optionally (fcommentSet flg) (parseZstr .comment)
      (took (fixedPart cm flg t0 t1 t2 t3 xfl os) (brOpen s)) = .raise f u := by
    rw [optionally, if_pos hc, hr, Proc.bind_raise]
  rw [decodeRun, hfixed, Proc.bind_ret]
  simp only [fixedHeader, hx, hn, optionally_false, Proc.bind_ret]
  exact congrArg (fun m => Proc.bind m _) hsec

/-- R12: the filename is the first section present. -/
theorem nameFirst_of_mask {flg : Byte} (h : flg &&& 0x0C#8 = 0x08#8) : fextraSet flg = false ∧ fnameSet flg = true := by
  revert flg
  decide

/-- R12: the comment is the first section present. -/
theorem commentFirst_of_mask {flg : Byte} (h : flg &&& 0x1C#8 = 0x10#8) :
    fextraSet flg = false ∧ fnameSet flg = false ∧ fcommentSet flg = true := by
  revert flg
  decide

/-- R12: the first section present is the string section `sec`. -/
def stringFirst (sec : StrSection) (flg : Byte) : Prop :=
  match sec with
  | .name => flg &&& 0x0C#8 = 0x08#8
  | .comment => flg &&& 0x1C#8 = 0x10#8

/-- R134, R135: a fault in a string that is the first section present is DECODE's. -/
theorem decodeRun_of_string_raise {sec : StrSection} {cm flg t0 t1 t2 t3 xfl os : Byte} {more : Bytes} {f : FaultRec}
    {s u : State} (h : avail s = fixedPart cm flg t0 t1 t2 t3 xfl os ++ more) (hfirst : stringFirst sec flg)
    (hr : parseZstr sec (took (fixedPart cm flg t0 t1 t2 t3 xfl os) (brOpen s)) = .raise f u) :
    decodeRun s = .raise f u := by
  cases sec with
  | name =>
    obtain ⟨hx, hn⟩ := nameFirst_of_mask hfirst
    exact decodeRun_of_name_raise h hx hn hr
  | comment =>
    obtain ⟨hx, hn, hc⟩ := commentFirst_of_mask hfirst
    exact decodeRun_of_comment_raise h hx hn hc hr

/-! ### The FEXTRA section -/

/-- R139: PARSE_EXTRA once `xlen` has been read: the capacity decides, then the loop runs. -/
theorem parseExtra_xlen {l0 l1 : Byte} {more : Bytes} {s : State} (h : avail s = [l0, l1] ++ more) :
    parseExtra s = if overCap s.params.extraCap (u16 [l0, l1]).toNat then .raise (capFault 1#16) (took [l0, l1] s)
      else subfields (u16 [l0, l1]).toNat (u16 [l0, l1]).toNat [] (took [l0, l1] s) := by
  have hread : brRead 2 s = .ret [l0, l1] (took [l0, l1] s) := brRead_append h
  rw [parseExtra, hread, Proc.bind_ret]

/-- R139, R192: `xlen` above the capacity. -/
theorem parseExtra_over {l0 l1 : Byte} {more : Bytes} {s : State} (h : avail s = [l0, l1] ++ more)
    (hover : overCap s.params.extraCap (l0.toNat + 256 * l1.toNat) = true) :
    parseExtra s = .raise (capFault 1#16) (took [l0, l1] s) := by
  rw [parseExtra_xlen h, u16_toNat, if_pos hover]

/-- R139: `xlen` within the capacity. -/
theorem parseExtra_within {l0 l1 : Byte} {more : Bytes} {s : State} (h : avail s = [l0, l1] ++ more)
    (hcap : overCap s.params.extraCap (l0.toNat + 256 * l1.toNat) = false) :
    parseExtra s = subfields (l0.toNat + 256 * l1.toNat) (l0.toNat + 256 * l1.toNat) [] (took [l0, l1] s) := by
  rw [parseExtra_xlen h, u16_toNat, if_neg (Bool.eq_false_iff.mp hcap)]

/-- R140 (a): what is left of the section is too short for a subfield's header. -/
theorem subfields_tooShort {rem : Nat} {acc : List Field} {s : State} (h0 : 1 ≤ rem) (h3 : rem ≤ 3) :
    subfields rem rem acc s = .raise (malformed (lenHalf rem) 0#16) s := by
  obtain ⟨k, rfl⟩ := Nat.exists_eq_add_of_le' h0
  rw [subfields, if_neg (by omega), if_pos (by omega)]

/-- R140 (b): the payload a subfield declares does not fit in what is left of the section. -/
theorem subfields_unfit {rem : Nat} {acc : List Field} {i0 i1 q0 q1 : Byte} {rest : Bytes} {s : State}
    (h : avail s = [i0, i1] ++ ([q0, q1] ++ rest)) (h4 : 4 ≤ rem) (hfit : rem < 4 + (q0.toNat + 256 * q1.toNat)) :
    subfields rem rem acc s = .raise (malformed (lenHalf rem) (u16 [q0, q1])) (took [i0, i1, q0, q1] s) := by
  obtain ⟨k, rfl⟩ := Nat.exists_eq_add_of_le' (Nat.le_trans (show 1 ≤ 4 by decide) h4)
  have hids : brRead 2 s = .ret [i0, i1] (took [i0, i1] s) := brRead_append h
  have hlen : brRead 2 (took [i0, i1] s) = .ret [q0, q1] (took [q0, q1] (took [i0, i1] s)) :=
    brRead_append (avail_took_append h)
  rw [subfields, if_neg (by omega), if_neg (by omega), hids, Proc.bind_ret, hlen, Proc.bind_ret]
  dsimp only
  rw [u16_toNat, if_pos hfit, took_took]
  rfl

/-- R6: the two bytes of a half that has been read as a number. -/
theorem lenHalf_bytes (lo hi : Byte) : lenHalf (lo.toNat + 256 * hi.toNat) = u16 [lo, hi] := by
  rw [← u16_toNat, lenHalf_of_toNat]

/-- Settles O29: both faults of R140, the first before the loop reads, the second after the subfield's four bytes. -/
theorem decodeRejectsAMalformedExtra : Obligations.DecodeRejectsAMalformedExtra := by
  intro s cm flg t0 t1 t2 t3 xfl os l0 l1 more hg hflg hcap hbytes
  have hfix : avail s = fixedPart cm flg t0 t1 t2 t3 xfl os ++ ([l0, l1] ++ more) := by simpa [fixedPart] using hbytes
  have hat : avail (took (fixedPart cm flg t0 t1 t2 t3 xfl os) (brOpen s)) = [l0, l1] ++ more :=
    avail_took_append (s := brOpen s) hfix
  have hx := parseExtra_within hat hcap
  refine ⟨fun h1 h3 => ?_, fun i0 i1 q0 q1 rest hmore h4 hfit => ?_⟩
  · rw [subfields_tooShort h1 h3, lenHalf_bytes] at hx
    have ht := decodeFaulted_of_raise hg (decodeRun_of_extra_raise hfix hflg hx) rfl (avail_took_append hat)
    exact ⟨_, ht.exec_eq, ht.ranInto, ht.h_eq, ht.len_eq, ht.avail_eq⟩
  · have hsub : avail (took [l0, l1] (took (fixedPart cm flg t0 t1 t2 t3 xfl os) (brOpen s))) =
        [i0, i1] ++ ([q0, q1] ++ rest) := (avail_took_append hat).trans hmore
    rw [subfields_unfit hsub h4 hfit, lenHalf_bytes] at hx
    have ht := decodeFaulted_of_raise hg (decodeRun_of_extra_raise hfix hflg hx) rfl
      (avail_took_append (d := [i0, i1, q0, q1]) hsub)
    exact ⟨_, ht.exec_eq, ht.ranInto, ht.h_eq, ht.len_eq, ht.avail_eq⟩

/-! ### Strings -/

/-- R141, R187: PARSE_ZSTR, without a capacity, of a string that the source ends in. -/
theorem parseZstr_unterminated {sec : StrSection} {text : Bytes} {s : State} (hz : 0#8 ∉ text)
    (hcap : strCap sec s.params = none) (h : avail s = text) :
    parseZstr sec s = .raise ⟨.unexpectedEndOfStream, 1#16, 0#16⟩ (drained (took text s)) := by
  rw [parseZstr, hcap, h]
  exact zstrLoop_unterminated _ _ _ _ _ (Nat.lt_succ_self _) hz h

/-- R141, R192: PARSE_ZSTR at the byte above a finite capacity. -/
theorem parseZstr_capped {sec : StrSection} {text rest : Bytes} {c : Nat} {s : State} (hz : 0#8 ∉ text)
    (hcap : strCap sec s.params = some c) (hlen : text.length = c + 1) (h : avail s = text ++ rest) :
    parseZstr sec s = .raise (capFault (strCode sec)) (took text s) := by
  rw [parseZstr, hcap]
  exact zstrLoop_capped c _ text [] rest _ _ (by simp [h]; omega) hz (by simpa) (Nat.zero_le _) h

/-- R141, R187: DECODE of a string, the first section present, that the source ends in. -/
theorem decodeFaulted_unterminated {sec : StrSection} {s : State} {cm flg t0 t1 t2 t3 xfl os : Byte} {text : Bytes}
    (hg : s.params.grain = .operation) (hz : 0#8 ∉ text) (h : avail s = fixedPart cm flg t0 t1 t2 t3 xfl os ++ text)
    (hfirst : stringFirst sec flg) (hcap : strCap sec s.params = none) :
    ∃ t, DecodeFaulted s ⟨.unexpectedEndOfStream, 1#16, 0#16⟩ (10 + text.length) [] t := by
  have hat : avail (took (fixedPart cm flg t0 t1 t2 t3 xfl os) (brOpen s)) = text := avail_took_append (s := brOpen s) h
  have hr := parseZstr_unterminated (s := took (fixedPart cm flg t0 t1 t2 t3 xfl os) (brOpen s)) hz hcap hat
  refine ⟨_, decodeFaulted_of_raise hg (decodeRun_of_string_raise h hfirst hr) ?_ (avail_drained _)⟩
  simp [drained, h]

/-- Settles O30: the string is the filename or the comment. -/
theorem decodeRejectsAnUnterminatedString : Obligations.DecodeRejectsAnUnterminatedString := by
  intro s cm flg t0 t1 t2 t3 xfl os text hg hz hbytes hfirst
  obtain ⟨sec, hmask, hcap⟩ : ∃ sec, stringFirst sec flg ∧ strCap sec s.params = none := by
    rcases hfirst with ⟨hmask, hcap⟩ | ⟨hmask, hcap⟩
    · exact ⟨.name, hmask, hcap⟩
    · exact ⟨.comment, hmask, hcap⟩
  obtain ⟨t, ht⟩ := decodeFaulted_unterminated hg hz hbytes hmask hcap
  exact ⟨t, ht.exec_eq, ht.ranInto, ht.h_eq, ht.len_eq, ht.avail_eq⟩

/-- R139, R192: `xlen` above a finite capacity. -/
theorem decodeFaulted_extraCapacity {s : State} {cm flg t0 t1 t2 t3 xfl os l0 l1 : Byte} {rest : Bytes} {c : Nat}
    (hg : s.params.grain = .operation) (h : avail s = fixedPart cm flg t0 t1 t2 t3 xfl os ++ ([l0, l1] ++ rest))
    (hflg : fextraSet flg = true) (hcap : s.params.extraCap = some c) (hover : c < l0.toNat + 256 * l1.toNat) :
    ∃ t, DecodeFaulted s (capFault 1#16) 12 rest t := by
  have hat : avail (took (fixedPart cm flg t0 t1 t2 t3 xfl os) (brOpen s)) = [l0, l1] ++ rest :=
    avail_took_append (s := brOpen s) h
  have hx := parseExtra_over hat (overCap_eq_true.mpr ⟨c, hcap, hover⟩)
  exact ⟨_, decodeFaulted_of_raise hg (decodeRun_of_extra_raise h hflg hx) rfl (avail_took_append hat)⟩

/-- R141, R192: a string, the first section present, at the byte above a finite capacity. -/
theorem decodeFaulted_stringCapacity {sec : StrSection} {s : State} {cm flg t0 t1 t2 t3 xfl os : Byte}
    {text rest : Bytes} {c : Nat} (hg : s.params.grain = .operation)
    (h : avail s = fixedPart cm flg t0 t1 t2 t3 xfl os ++ (text ++ rest)) (hfirst : stringFirst sec flg)
    (hcap : strCap sec s.params = some c) (hz : 0#8 ∉ text) (hlen : text.length = c + 1) :
    ∃ t, DecodeFaulted s (capFault (strCode sec)) (10 + (c + 1)) rest t := by
  have hat : avail (took (fixedPart cm flg t0 t1 t2 t3 xfl os) (brOpen s)) = text ++ rest :=
    avail_took_append (s := brOpen s) h
  have hr := parseZstr_capped (s := took (fixedPart cm flg t0 t1 t2 t3 xfl os) (brOpen s)) hz hcap hlen hat
  refine ⟨_, decodeFaulted_of_raise hg (decodeRun_of_string_raise h hfirst hr) ?_ (avail_took_append hat)⟩
  simp [hlen]

/-- Settles O31: the section that exceeds its capacity is FEXTRA, the filename or the comment. -/
theorem decodeFaultsAboveCapacity : Obligations.DecodeFaultsAboveCapacity := by
  intro s cm flg t0 t1 t2 t3 xfl os more c hg hbytes
  refine ⟨?_, ?_, ?_⟩
  · rintro l0 l1 rest hflg hcap rfl hover
    obtain ⟨t, ht⟩ := decodeFaulted_extraCapacity hg hbytes hflg hcap hover
    exact ⟨t, ht.exec_eq, ht.ranInto, ht.h_eq, ht.len_eq⟩
  · rintro text rest hmask hcap rfl hz hlen
    obtain ⟨t, ht⟩ := decodeFaulted_stringCapacity (sec := .name) hg hbytes hmask hcap hz hlen
    exact ⟨t, ht.exec_eq, ht.ranInto, ht.h_eq, ht.len_eq⟩
  · rintro text rest hmask hcap rfl hz hlen
    obtain ⟨t, ht⟩ := decodeFaulted_stringCapacity (sec := .comment) hg hbytes hmask hcap hz hlen
    exact ⟨t, ht.exec_eq, ht.ranInto, ht.h_eq, ht.len_eq⟩

/-! ### The stored checksum -/

/-- R136: on the sections of a valid Header with FHCRC, DECODE raises what the checksum step raises. -/
theorem decodeRun_of_checkHcrc_raise {h : Header} {more : Bytes} {s u : State} {f : FaultRec} (hv : h.valid = true)
    (hc : h.withinCaps s.params = true) (hflg : fhcrcSet h.flg = true) (ha : avail s = plainBytes h ++ more)
    (hr : checkHcrc (took (plainBytes h) (brOpen s)) = .raise f u) : decodeRun s = .raise f u := by
  rw [decodeRun_append hv hc ha, optionally, if_pos hflg, hr, Proc.bind_raise, Proc.bind_raise]

/-- Settles O32: what R136 compares is the checksum of the bytes read so far, which are those of the sections. -/
theorem decodeChecksTheChecksum : Obligations.DecodeChecksTheChecksum := by
  intro s h more hg hv hc hflg ha
  have hat : avail (took (plainBytes h) (brOpen s)) = more := avail_took_append (s := brOpen s) ha
  have hbuf : (took (plainBytes h) (brOpen s)).r.buf = plainBytes h := List.nil_append _
  have hpos : (took (plainBytes h) (brOpen s)).r.pos = (plainBytes h).length := Nat.zero_add _
  refine ⟨fun b0 b1 rest hmore hne => ?_, fun hshort => ?_⟩
  · have hstored : avail (took (plainBytes h) (brOpen s)) = le16 (b1 ++ b0) ++ rest := by
      rw [hat, hmore, le16_append]
      rfl
    have hr := checkHcrc_append hstored
    rw [hbuf, if_neg hne] at hr
    have ht := decodeFaulted_of_raise (n := (plainBytes h).length + 2) (rest := rest) hg
      (decodeRun_of_checkHcrc_raise hv hc hflg ha hr) (congrArg (· + 2) hpos) (avail_took_append hstored)
    exact ⟨_, ht.exec_eq, ht.ranInto, ht.h_eq, ht.len_eq, ht.avail_eq⟩
  · have hr := checkHcrc_short (s := took (plainBytes h) (brOpen s)) (hat ▸ hshort)
    rw [hat, countHalf_small (by omega), countHalf_small (n := more.length) (by omega)] at hr
    have ht := decodeFaulted_of_raise (n := (plainBytes h).length + more.length) hg
      (decodeRun_of_checkHcrc_raise hv hc hflg ha hr) (by simp [drained, hat]) (avail_drained _)
    exact ⟨_, ht.exec_eq, ht.ranInto, ht.h_eq, ht.len_eq, ht.avail_eq⟩

/-! ### The Header an ok end leaves -/

/-- Settles O33: steps 1 to 6 have read the emitted bytes of the Header they return. -/
theorem decodedHeaderIsValidAndExact : Obligations.DecodedHeaderIsValidAndExact := by
  intro s t hg hexec ⟨_, _, _, hrsp⟩
  cases hr : decodeRun s with
  | raise f u =>
    cases (execDecode_raise hg hr).symm.trans hexec
    cases hrsp
  | ret h u =>
    cases (execDecode_ret hg hr).symm.trans hexec
    obtain ⟨hv, -, -, rfl⟩ := decodeRun_ret hr
    have hlen : (brOpen s).r.pos + (headerBytes h).length = h.wireLength :=
      (Nat.zero_add _).trans (headerBytes_length_wire (by simp_all [Header.valid]))
    exact ⟨hv, hlen⟩

/-! ### The source and the capacities decide -/

/-- R150: what a DECODE can read of the state once it runs: the bytes to come, the parameters, and what it has read itself. -/
structure SameReading (s s' : State) : Prop where
  params_eq : s'.params = s.params
  avail_eq : avail s' = avail s
  buf_eq : s'.r.buf = s.r.buf
  pos_eq : s'.r.pos = s.r.pos

/-- R150: two runs of a procedure that end alike: with the same value or the same fault, and the same left to read. -/
inductive Proc.SameEnd {α : Type} : Proc α → Proc α → Prop
  | ret (v : α) {s s' : State} (h : SameReading s s') : SameEnd (.ret v s) (.ret v s')
  | raise (f : FaultRec) {s s' : State} (h : SameReading s s') : SameEnd (.raise f s) (.raise f s')

/-- R150: a procedure that depends on what it reads alone. -/
def ReadsOnly {α : Type} (m : State → Proc α) : Prop := ∀ s s', SameReading s s' → (m s).SameEnd (m s')

theorem ReadsOnly.ret {α : Type} (v : α) : ReadsOnly (fun s => .ret v s) := fun _ _ h => .ret v h

theorem ReadsOnly.raise {α : Type} (f : FaultRec) : ReadsOnly (fun s => (.raise f s : Proc α)) := fun _ _ h => .raise f h

/-- R201: a sequence of procedures that depend on what they read alone. -/
theorem ReadsOnly.bind {α β : Type} {m : State → Proc α} {k : α → State → Proc β} (hm : ReadsOnly m)
    (hk : ∀ v, ReadsOnly (k v)) : ReadsOnly (fun s => (m s).bind k) := by
  intro s s' h
  change ((m s).bind k).SameEnd ((m s').bind k)
  generalize m s = p, m s' = p', hm s s' h = hsame
  cases hsame with
  | ret v h1 => exact hk v _ _ h1
  | raise f h1 => exact .raise f h1

theorem ReadsOnly.ite {α : Type} {c : Prop} [Decidable c] {m m' : State → Proc α} (hm : ReadsOnly m)
    (hm' : ReadsOnly m') : ReadsOnly (fun s => if c then m s else m' s) := by
  intro s s' h
  split
  · exact hm s s' h
  · exact hm' s s' h

theorem SameReading.took {s s' : State} (h : SameReading s s') (d : Bytes) :
    SameReading (Machine.took d s) (Machine.took d s') where
  params_eq := h.params_eq
  avail_eq := by rw [avail_took, avail_took, h.avail_eq]
  buf_eq := by rw [took_buf, took_buf, h.buf_eq]
  pos_eq := by rw [took_pos, took_pos, h.pos_eq]

theorem SameReading.drained {s s' : State} (h : SameReading s s') : SameReading (Machine.drained s) (Machine.drained s') where
  params_eq := h.params_eq
  avail_eq := by rw [avail_drained, avail_drained]
  buf_eq := h.buf_eq
  pos_eq := by
    change s'.r.pos + (avail s').length = s.r.pos + (avail s).length
    rw [h.pos_eq, h.avail_eq]

/-- R121: a read. -/
theorem readsOnly_brRead (n : Nat) : ReadsOnly (brRead n) := by
  intro s s' h
  rcases brRead_cases n s with ⟨hn, e⟩ | ⟨hn, e⟩
  · rcases brRead_cases n s' with ⟨-, e'⟩ | ⟨hn', -⟩
    · rw [e, e', h.avail_eq]
      exact .ret _ (h.took _)
    · rw [h.avail_eq] at hn'
      omega
  · rw [e, brRead_short (h.avail_eq ▸ hn), h.avail_eq]
    exact .raise _ h.drained

/-- R139: the loop of PARSE_EXTRA. -/
theorem readsOnly_subfields (fuel rem : Nat) (acc : List Field) : ReadsOnly (subfields fuel rem acc) := by
  induction fuel generalizing rem acc with
  | zero => exact .ret acc
  | succ fuel ih =>
    have hstep : subfields (fuel + 1) rem acc = fun s => _ := funext fun s => subfields.eq_def (fuel + 1) rem acc s
    rw [hstep]
    refine .ite (.ret acc) (.ite (.raise _) (.bind (readsOnly_brRead 2) fun ids => .bind (readsOnly_brRead 2) fun q =>
      .ite (.raise _) (.bind (readsOnly_brRead _) fun data => ?_)))
    cases fieldNew ids data with
    | ok f => exact ih _ _
    | error e => exact .raise e

/-- R139: PARSE_EXTRA tests the capacity of the parameters. -/
theorem readsOnly_parseExtra : ReadsOnly parseExtra := fun s s' h => by
  rw [parseExtra, parseExtra, h.params_eq]
  exact ReadsOnly.bind (readsOnly_brRead 2) (fun _ => .ite (.raise _) (readsOnly_subfields _ _ _)) s s' h

/-- R141: the loop of PARSE_ZSTR. -/
theorem readsOnly_zstrLoop (cap : Option Nat) (sec : Half) (fuel : Nat) (acc : Bytes) :
    ReadsOnly (zstrLoop cap sec fuel acc) := by
  induction fuel generalizing acc with
  | zero => exact .raise _
  | succ fuel ih => exact .bind (readsOnly_brRead 1) fun d => .ite (.ret acc) (.ite (.raise _) (ih _))

/-- R141: PARSE_ZSTR takes its capacity from the parameters and its fuel from the bytes to come. -/
theorem readsOnly_parseZstr (sec : StrSection) : ReadsOnly (parseZstr sec) := fun s s' h => by
  rw [parseZstr, parseZstr, h.params_eq, h.avail_eq]
  exact readsOnly_zstrLoop _ _ _ _ s s' h

theorem readsOnly_optionally {α : Type} {m : State → Proc α} (b : Bool) (hm : ReadsOnly m) :
    ReadsOnly (optionally b m) := .ite (.bind hm fun v => .ret (some v)) (.ret none)

/-- R136: the checksum is that of the bytes read. -/
theorem readsOnly_checkHcrc : ReadsOnly checkHcrc := fun s s' h => by
  have hcrc : SameReading (crcRun s.r.buf s) (crcRun s'.r.buf s') := ⟨h.params_eq, h.avail_eq, h.buf_eq, h.pos_eq⟩
  rw [checkHcrc_eq, checkHcrc_eq, h.buf_eq]
  rw [h.buf_eq] at hcrc
  exact ReadsOnly.bind (readsOnly_brRead 2) (fun q => .ite (.ret ()) (.raise _)) _ _ hcrc

/-- R131, R132: the fixed part. -/
theorem readsOnly_parseFixed : ReadsOnly parseFixed :=
  .bind (readsOnly_brRead 2) fun _ => .ite (.bind (readsOnly_brRead 8) fun _ => .ret _) (.raise _)

/-- R120, R150: R.BUF and R.POS are cleared first, so that what they held before does not matter. -/
theorem decodeRun_sameEnd {s s' : State} (hp : s'.params = s.params) (ha : avail s' = avail s) :
    (decodeRun s).SameEnd (decodeRun s') := by
  have hopen : SameReading (brOpen s) (brOpen s') := ⟨hp, ha, rfl, rfl⟩
  refine ReadsOnly.bind readsOnly_parseFixed (fun w => ?_) _ _ hopen
  exact .bind (readsOnly_optionally _ readsOnly_parseExtra) fun ex =>
    .bind (readsOnly_optionally _ (readsOnly_parseZstr .name)) fun nm =>
    .bind (readsOnly_optionally _ (readsOnly_parseZstr .comment)) fun cm =>
    .bind (readsOnly_optionally _ readsOnly_checkHcrc) fun _ => .ret _

/-- Settles O34: the two runs end alike, and step 7 or the fault adds nothing of the states they started from. -/
theorem decodeDependsOnTheSourceAlone : Obligations.DecodeDependsOnTheSourceAlone := by
  intro s s' t t' hg hp ha hexec hexec'
  have hg' : s'.params.grain = .operation := hp ▸ hg
  generalize hr : decodeRun s = m
  generalize hr' : decodeRun s' = m'
  have hsame := decodeRun_sameEnd hp ha
  rw [hr, hr'] at hsame
  cases hsame with
  | ret w h =>
    cases (execDecode_ret hg hr).symm.trans hexec
    cases (execDecode_ret hg' hr').symm.trans hexec'
    exact ⟨rfl, h.pos_eq, h.avail_eq, fun _ => rfl⟩
  | raise f h =>
    cases (execDecode_raise hg hr).symm.trans hexec
    cases (execDecode_raise hg' hr').symm.trans hexec'
    exact ⟨rfl, h.pos_eq, h.avail_eq, nofun⟩

end Sys2Proof.Machine
end

section
/-! PROOFS about one step of the byte-serial parser (42_decode.md R144, R145, R147): what it pulls, which element of the wire format
its last byte completes, and where the phase goes. -/

namespace Sys2Proof.Machine

/-! ### The step and its two cases -/

/-- R145: with the host waiting, a step of a running DECODE is one of the parser. -/
theorem step_of_parsing {s : State} (hidle : s.p.ph ≠ .idle) (hs : s.out.script = []) :
    step s = .next (parserStep s) := by
  rw [step_of_busy (busy_eq_true_iff.mpr (.inl hidle)), runningStep, hs]
  exact congrArg Host.Outcome.next (if_pos hidle)

/-- R145: the byte pulled, counted and buffered is a read of one byte. -/
theorem takeByte_eq_took (b : Byte) (s : State) : takeByte b s = took [b] s := rfl

/-- R145: a step with a byte to pull. -/
theorem parserStep_of_byte {s : State} {b : Byte} {more : Bytes} (h : avail s = b :: more) :
    parserStep s = phaseByte b (took [b] s) := by
  rw [parserStep, h]
  rfl

/-- R144: a step at the end of the source. -/
theorem parserStep_of_end {s : State} (h : avail s = []) : parserStep s =
    takeFault .parser ⟨.unexpectedEndOfStream, countHalf (wanted s.p), countHalf (gotten s.p)⟩ s := by
  rw [parserStep, h]

/-! ### What each phase does with a byte -/

theorem phaseByte_magic {b : Byte} {s : State} (h : s.p.ph = .magic) : phaseByte b s =
    if s.p.cnt + 1 = 2 then
      if s.p.tmp ++ [b] = magic then goto (some .fixed) (gather b s)
      else takeFault .parser ⟨.invalidMagic, byteHalf (byteAt (s.p.tmp ++ [b]) 0), byteHalf (byteAt (s.p.tmp ++ [b]) 1)⟩
        (gather b s)
    else gather b s := by
  unfold phaseByte
  rw [h]
  rfl

theorem phaseByte_fixed {b : Byte} {s : State} (h : s.p.ph = .fixed) : phaseByte b s =
    if s.p.cnt + 1 = 8 then
      acceptFixed (byteAt (s.p.tmp ++ [b]) 0) (byteAt (s.p.tmp ++ [b]) 1) (u32 (((s.p.tmp ++ [b]).drop 2).take 4))
        (byteAt (s.p.tmp ++ [b]) 6) (byteAt (s.p.tmp ++ [b]) 7) (gather b s)
    else gather b s := by
  unfold phaseByte
  rw [h]
  rfl

theorem phaseByte_xlen {b : Byte} {s : State} (h : s.p.ph = .xlen) : phaseByte b s =
    if s.p.cnt + 1 = 2 then acceptXlen (u16 (s.p.tmp ++ [b])) (gather b s) else gather b s := by
  unfold phaseByte
  rw [h]
  rfl

theorem phaseByte_sfTag {b : Byte} {s : State} (h : s.p.ph = .sfTag) : phaseByte b s =
    if s.p.cnt + 1 = 2 then
      goto (some .sfLen) ((gather b s).setP
        { (gather b s).p with tag := (byteAt (s.p.tmp ++ [b]) 0, byteAt (s.p.tmp ++ [b]) 1) })
    else gather b s := by
  unfold phaseByte
  rw [h]
  rfl

theorem phaseByte_sfLen {b : Byte} {s : State} (h : s.p.ph = .sfLen) : phaseByte b s =
    if s.p.cnt + 1 = 2 then acceptSubLen (u16 (s.p.tmp ++ [b])) (gather b s) else gather b s := by
  unfold phaseByte
  rw [h]
  rfl

theorem phaseByte_sfData {b : Byte} {s : State} (h : s.p.ph = .sfData) : phaseByte b s =
    if s.p.cnt + 1 = s.p.slen.toNat then endSub (s.setP { s.p with acc := s.p.acc ++ [b], cnt := s.p.cnt + 1 })
    else s.setP { s.p with acc := s.p.acc ++ [b], cnt := s.p.cnt + 1 } := by
  unfold phaseByte
  rw [h]
  rfl

theorem phaseByte_string {sec : StrSection} {b : Byte} {s : State} (h : s.p.ph = strPhase sec) :
    phaseByte b s = stringByte sec b s := by
  unfold phaseByte
  rw [h]
  cases sec <;> rfl

theorem phaseByte_hcrc {b : Byte} {s : State} (h : s.p.ph = .hcrc) : phaseByte b s =
    if s.p.cnt + 1 = 2 then acceptHcrc (u16 (s.p.tmp ++ [b])) (gather b s) else gather b s := by
  unfold phaseByte
  rw [h]
  rfl

/-! ### The last byte of an element -/

/-- R145: with the host waiting, the step that pulls `b` in the phase `ph`. -/
theorem step_of_byte {s : State} {b : Byte} {more : Bytes} (hidle : s.p.ph ≠ .idle) (hs : s.out.script = [])
    (h : avail s = b :: more) : step s = .next (phaseByte b (takeByte b s)) := by
  rw [step_of_parsing hidle hs, parserStep_of_byte h, takeByte_eq_took]

/-- R145 SF_LEN: a data length of 0 completes the subfield. -/
theorem acceptSubLen_zero (s : State) : acceptSubLen 0#16 s = acceptSubfield s.p.tag.1 s.p.tag.2 [] s := rfl

/-- R145 SF_DATA: the last byte of a payload that fits completes the subfield. -/
theorem endSub_eq_acceptSubfield {data : Bytes} {s : State} (hlen : data.length = s.p.slen.toNat)
    (hfit : 4 + s.p.slen.toNat ≤ s.p.rem.toNat) :
    endSub (s.setP { s.p with acc := data }) = acceptSubfield s.p.tag.1 s.p.tag.2 data s := by
  have hslen : lenHalf data.length = s.p.slen := by rw [hlen, lenHalf_of_toNat]
  have hfits : subFits s.p.slen (s.setP { s.p with tag := (s.p.tag.1, s.p.tag.2), slen := s.p.slen }) = true :=
    decide_eq_true hfit
  rw [acceptSubfield, hslen]
  exact (if_pos hfits).symm

/-- R141, R145: the zero byte of a string within its capacity completes it. -/
theorem stringByte_zero {sec : StrSection} {s : State} (hph : s.p.ph = strPhase sec)
    (hcap : overCap (strCap sec s.params) s.p.acc.length = false) :
    stringByte sec 0#8 s = acceptString s.p.acc s := by
  cases sec <;> simp_all [stringByte, acceptString, strPhase, strCap]

@[simp] theorem gather_p_ph (b : Byte) (s : State) : (gather b s).p.ph = s.p.ph := rfl

/-- R61, R145: the eighth byte after the magic. -/
theorem lastByte_fixed {b cm flg t0 t1 t2 t3 xfl : Byte} {o : State} (hph : o.p.ph = .fixed) (hcnt : o.p.cnt = 7)
    (htmp : o.p.tmp = [cm, flg, t0, t1, t2, t3, xfl]) :
    .next (phaseByte b o) = exec (.gzipFixed cm flg (u32 [t0, t1, t2, t3]) xfl b) (gather b o) := by
  rw [phaseByte_fixed hph, hcnt, htmp, if_pos rfl]
  exact (whenAwaited_of_awaited (by simp [hph]) (by simp [hph]) _).symm

/-- R64, R145: the second byte of `xlen`. -/
theorem lastByte_xlen {b l0 : Byte} {o : State} (hph : o.p.ph = .xlen) (hcnt : o.p.cnt = 1) (htmp : o.p.tmp = [l0]) :
    .next (phaseByte b o) = exec (.fextraSection (b ++ l0)) (gather b o) := by
  rw [phaseByte_xlen hph, hcnt, htmp, if_pos rfl]
  exact (whenAwaited_of_awaited (by simp [hph]) (by simp [hph]) _).symm

/-- R65, R145: the second byte of a data length of 0. -/
theorem lastByte_emptySubfield {o : State} (hph : o.p.ph = .sfLen) (hcnt : o.p.cnt = 1) (htmp : o.p.tmp = [0#8]) :
    .next (phaseByte 0#8 o) = exec (.subfield o.p.tag.1 o.p.tag.2 []) (gather 0#8 o) := by
  have hzero : u16 ([0#8] ++ [0#8]) = 0#16 := rfl
  rw [phaseByte_sfLen hph, hcnt, htmp, if_pos rfl, hzero, acceptSubLen_zero]
  exact (whenAwaited_of_awaited (by simp [hph]) (by simp [hph]) _).symm

/-- R65, R145: the last byte of a payload. -/
theorem lastByte_subfield {b : Byte} {o : State} (hph : o.p.ph = .sfData) (hacc : o.p.acc.length = o.p.cnt)
    (hcnt : o.p.cnt + 1 = o.p.slen.toNat) (hfit : 4 + o.p.slen.toNat ≤ o.p.rem.toNat) :
    .next (phaseByte b o) =
      exec (.subfield o.p.tag.1 o.p.tag.2 (o.p.acc ++ [b])) (o.setP { o.p with cnt := o.p.cnt + 1 }) := by
  have hlen : (o.p.acc ++ [b]).length = o.p.slen.toNat := by simp [hacc, hcnt]
  have hend := endSub_eq_acceptSubfield (s := o.setP { o.p with cnt := o.p.cnt + 1 }) hlen hfit
  rw [phaseByte_sfData hph, if_pos hcnt]
  exact (congrArg Host.Outcome.next hend).trans (whenAwaited_of_awaited (by simp [hph]) (by simp [hph]) _).symm

/-- R66, R145: the zero byte of a string. -/
theorem lastByte_string {sec : StrSection} {o : State} (hph : o.p.ph = strPhase sec)
    (hcap : overCap (strCap sec o.params) o.p.acc.length = false) :
    .next (phaseByte 0#8 o) = exec (.zstring o.p.acc) o := by
  rw [phaseByte_string hph, stringByte_zero hph hcap]
  cases sec <;> exact (whenAwaited_of_awaited (by simp [hph, strPhase]) (by simp [hph, strPhase]) _).symm

/-- R67, R145: the second byte of the stored checksum. -/
theorem lastByte_hcrc {b c0 : Byte} {o : State} (hph : o.p.ph = .hcrc) (hcnt : o.p.cnt = 1) (htmp : o.p.tmp = [c0]) :
    .next (phaseByte b o) = exec (.headerCrc (b ++ c0)) (gather b o) := by
  rw [phaseByte_hcrc hph, hcnt, htmp, if_pos rfl]
  exact (whenAwaited_of_awaited (by simp [hph]) (by simp [hph]) _).symm

/-- Settles O51: in each phase the action at the last byte is what the element's meaning runs; taking the byte leaves the parser's
registers. -/
theorem lastByteRunsTheElement : Obligations.LastByteRunsTheElement := by
  intro s b more hs hbytes
  have hstep {ph : Phase} (hph : s.p.ph = ph) (hne : ph ≠ .idle) : step s = .next (phaseByte b (takeByte b s)) :=
    step_of_byte (hph ▸ hne) hs hbytes
  refine ⟨fun cm flg t0 t1 t2 t3 xfl hph hcnt htmp => ?_, fun l0 hph hcnt htmp => ?_, ?_, fun hph hacc hcnt hfit => ?_,
    ?_, ?_, fun c0 hph hcnt htmp => ?_⟩
  · exact (hstep hph (by decide)).trans (lastByte_fixed (o := takeByte b s) hph hcnt htmp)
  · exact (hstep hph (by decide)).trans (lastByte_xlen (o := takeByte b s) hph hcnt htmp)
  · rintro hph hcnt htmp rfl
    exact (hstep hph (by decide)).trans (lastByte_emptySubfield (o := takeByte _ s) hph hcnt htmp)
  · exact (hstep hph (by decide)).trans (lastByte_subfield (o := takeByte b s) hph hacc hcnt hfit)
  · rintro hph rfl hcap
    exact (hstep hph (by decide)).trans (lastByte_string (sec := .name) (o := takeByte _ s) hph hcap)
  · rintro hph rfl hcap
    exact (hstep hph (by decide)).trans (lastByte_string (sec := .comment) (o := takeByte _ s) hph hcap)
  · exact (hstep hph (by decide)).trans (lastByte_hcrc (o := takeByte b s) hph hcnt htmp)

/-! ### One byte, or the end of the source -/

/-- R187: a half that counts bytes is recorded as it is. -/
theorem countHalf_toNat (v : Half) : countHalf v.toNat = v := by
  rw [countHalf_small (by have := v.isLt; omega), BitVec.ofNat_toNat, BitVec.setWidth_eq]

/-- What an action leaves of the source. -/
theorem avail_of_actionKept {s t : State} (h : s.actionKept t) : avail t = avail s := by
  obtain ⟨hr, -, -, -, hsrc, -⟩ := h
  rw [avail, avail, hr, hsrc]

/-- R144, R145: what the source, the sink, the serializer and the reader are after a step of the parser. -/
theorem parserStep_pulls (s : State) : avail (parserStep s) = (avail s).drop 1 ∧ (parserStep s).out.snk = s.out.snk ∧
    (parserStep s).ser = s.ser ∧ (parserStep s).r = (took ((avail s).take 1) s).r := by
  cases h : avail s with
  | nil =>
    rw [parserStep_of_end h]
    exact ⟨h, rfl, rfl, by simp⟩
  | cons b more =>
    have hkept := actionKept_phaseByte b (took [b] s)
    have havail : avail (phaseByte b (took [b] s)) = more := by
      rw [avail_of_actionKept hkept]
      exact avail_took_append (d := [b]) h
    obtain ⟨hr, hser, -, -, -, hsnk, -, -⟩ := hkept
    rw [parserStep_of_byte h]
    exact ⟨havail, hsnk, hser, hr⟩

/-- Settles O52: a byte pulled goes to the phase's action, which leaves the streams; the end of the source is R144's fault. -/
theorem parserStepPullsOneByte : Obligations.ParserStepPullsOneByte := by
  intro s hidle hs
  obtain ⟨havail, hsnk, hser, hr⟩ := parserStep_pulls s
  refine ⟨parserStep s, step_of_parsing hidle hs, havail, hsnk, hser, fun b more h => ?_, fun h => ?_⟩
  · rw [hr, h]
    rfl
  · have hfault := ranInto_takeFault .parser
      ⟨.unexpectedEndOfStream, countHalf (wanted s.p), countHalf (gotten s.p)⟩ s
    rw [parserStep_of_end h]
    refine ⟨rfl, rfl, rfl, rfl, countHalf (gotten s.p), ?_⟩
    cases hph : s.p.ph with
    | idle => exact absurd hph hidle
    | name | comment =>
      simp only [wanted, gotten, hph] at hfault ⊢
      exact ⟨hfault, fun _ => rfl⟩
    | sfData =>
      simp only [wanted, gotten, hph, countHalf_toNat] at hfault ⊢
      exact ⟨hfault, countHalf_small⟩
    | magic | fixed | xlen | sfTag | sfLen | hcrc =>
      simp only [wanted, gotten, hph] at hfault ⊢
      exact ⟨hfault, countHalf_small⟩

/-! ### Where the phase goes -/

/-- R147: the phases that a step can move on to. -/
def successors : Phase → List Phase
  | .idle | .hcrc => []
  | .magic => [.fixed]
  | .fixed => [.xlen, .name, .comment, .hcrc]
  | .xlen | .sfData => [.sfTag, .name, .comment, .hcrc]
  | .sfTag => [.sfLen]
  | .sfLen => [.sfData, .sfTag, .name, .comment, .hcrc]
  | .name => [.comment, .hcrc]
  | .comment => [.hcrc]

/-- R147: DECODE ends, the phase stays, or it moves on. -/
def movesOn (ph ph' : Phase) : Prop := ph' = .idle ∨ ph' = ph ∨ ph' ∈ successors ph

theorem movesOn_of_idle {ph ph' : Phase} (h : ph' = .idle) : movesOn ph ph' := .inl h

theorem movesOn_of_same {ph ph' : Phase} (h : ph' = ph) : movesOn ph ph' := .inr (.inl h)

/-- R146: where the tests of NEXT from the fourth, third, second and first on can go. -/
theorem nextPhase_range (flg : Byte) :
    (nextPhase 3 flg).getD .idle ∈ [Phase.idle, .hcrc] ∧ (nextPhase 2 flg).getD .idle ∈ [Phase.idle, .comment, .hcrc] ∧
    (nextPhase 1 flg).getD .idle ∈ [Phase.idle, .name, .comment, .hcrc] ∧
    (nextPhase 0 flg).getD .idle ∈ [Phase.idle, .xlen, .name, .comment, .hcrc] := by
  rw [nextPhase_zero, nextPhase_one, nextPhase_two, nextPhase_three]
  split_ifs <;> simp

/-- A GOTO to a phase that the present one may move on to. -/
theorem movesOn_goto {ph : Phase} {target : Option Phase} {s : State} (h : target.getD .idle ∈ .idle :: successors ph) :
    movesOn ph (goto target s).p.ph := by
  rw [goto_p_ph]
  exact (List.mem_cons.mp h).imp_right .inr

/-- R145 SUBLOOP: a subfield, a later section, or the end. -/
theorem subLoop_range (s : State) : (subLoop s).p.ph ∈ [Phase.idle, .sfTag, .name, .comment, .hcrc] := by
  rcases subLoop_cases s with ⟨-, e⟩ | ⟨-, -, e⟩ | ⟨-, e⟩ <;> rw [e]
  · rw [goto_p_ph]
    have h := (nextPhase_range s.p.w.flg).2.2.1
    simp only [List.mem_cons] at h ⊢
    tauto
  · exact List.mem_cons_self
  · simp

/-- R145: SUBLOOP from a phase of the FEXTRA section. -/
theorem movesOn_subLoop {ph : Phase} (hph : ph = .xlen ∨ ph = .sfLen ∨ ph = .sfData) (s : State) :
    movesOn ph (subLoop s).p.ph := by
  have h := subLoop_range s
  rcases hph with rfl | rfl | rfl <;> simp only [movesOn, successors, List.mem_cons, List.not_mem_nil] at h ⊢ <;> tauto

/-- R145 SF_LEN, the last byte. -/
theorem movesOn_acceptSubLen (slen : Half) (s : State) : movesOn .sfLen (acceptSubLen slen s).p.ph := by
  unfold acceptSubLen
  dsimp only
  split
  · split
    · exact movesOn_subLoop (.inr (.inl rfl)) _
    · exact movesOn_goto (by decide)
  · exact movesOn_of_idle rfl

/-- R145 XLEN, the last byte. -/
theorem movesOn_acceptXlen (xlen : Half) (s : State) : movesOn .xlen (acceptXlen xlen s).p.ph := by
  unfold acceptXlen
  dsimp only
  split
  · exact movesOn_of_idle rfl
  · exact movesOn_subLoop (.inl rfl) _

/-- R145: one byte of a string section. -/
theorem movesOn_stringByte {sec : StrSection} {s : State} (h : s.p.ph = strPhase sec) (b : Byte) :
    movesOn (strPhase sec) (stringByte sec b s).p.ph := by
  unfold stringByte
  split
  · cases sec
    · exact movesOn_goto (nextPhase_range _).2.1
    · exact movesOn_goto (nextPhase_range _).1
  · split
    · exact movesOn_of_idle rfl
    · exact movesOn_of_same h

/-- R145, R147: where the phase goes on a byte. -/
theorem movesOn_phaseByte (b : Byte) (s : State) : movesOn s.p.ph (phaseByte b s).p.ph := by
  cases hph : s.p.ph with
  | idle =>
    unfold phaseByte
    rw [hph]
    exact movesOn_of_same hph
  | magic =>
    rw [phaseByte_magic hph]
    split
    · split
      · exact movesOn_goto (by decide)
      · exact movesOn_of_idle rfl
    · exact movesOn_of_same hph
  | fixed =>
    rw [phaseByte_fixed hph]
    split
    · exact movesOn_goto (nextPhase_range _).2.2.2
    · exact movesOn_of_same hph
  | xlen =>
    rw [phaseByte_xlen hph]
    split
    · exact movesOn_acceptXlen _ _
    · exact movesOn_of_same hph
  | sfTag =>
    rw [phaseByte_sfTag hph]
    split
    · exact movesOn_goto (by decide)
    · exact movesOn_of_same hph
  | sfLen =>
    rw [phaseByte_sfLen hph]
    split
    · exact movesOn_acceptSubLen _ _
    · exact movesOn_of_same hph
  | sfData =>
    rw [phaseByte_sfData hph]
    split
    · exact movesOn_subLoop (.inr (.inr rfl)) _
    · exact movesOn_of_same hph
  | name =>
    rw [phaseByte_string (sec := .name) hph]
    exact movesOn_stringByte hph b
  | comment =>
    rw [phaseByte_string (sec := .comment) hph]
    exact movesOn_stringByte hph b
  | hcrc =>
    rw [phaseByte_hcrc hph]
    split
    · unfold acceptHcrc
      split
      · exact movesOn_of_idle rfl
      · exact movesOn_of_idle rfl
    · exact movesOn_of_same hph

/-- R144, R147: where the phase goes in a step of the parser. -/
theorem movesOn_parserStep (s : State) : movesOn s.p.ph (parserStep s).p.ph := by
  cases h : avail s with
  | nil =>
    rw [parserStep_of_end h]
    exact movesOn_of_idle rfl
  | cons b more =>
    rw [parserStep_of_byte h]
    exact movesOn_phaseByte b (took [b] s)

/-- Settles O53: the moves of `movesOn` are those of R147. -/
theorem phaseNeverMovesBack : Obligations.PhaseNeverMovesBack := by
  intro s t hidle hs hstep
  cases (step_of_parsing hidle hs).symm.trans hstep
  rcases movesOn_parserStep s with h | h | h
  · exact .inl h
  · exact .inr (.inl h)
  · refine .inr (.inr ?_)
    generalize s.p.ph = ph, (parserStep s).p.ph = ph' at h
    cases ph <;> simp_all [successors]

end Sys2Proof.Machine
end

section
/-! PROOF that the byte-serial parser refines DECODE (42_decode.md R148). A read of the operation level is a run of steps in
one phase (`delivers_read`); section by section the machine, where GOTO has taken it, delivers what the rest of DECODE gives. -/

namespace Sys2Proof.Machine

/-! ### Runs -/

theorem runsTo_zero (s : State) : runsTo 0 s s := rfl

/-- A run of at least one step, by its first. -/
theorem runsTo_succ_iff {k : Nat} {s t : State} :
    runsTo (k + 1) s t ↔ ∃ s', step s = .next s' ∧ runsTo k s' t := by
  simp only [runsTo, Host.Core.run]
  constructor
  · intro h
    split at h
    · next s' hstep => exact ⟨s', hstep, h⟩
    · cases h
    · cases h
  · rintro ⟨s', hstep, h⟩
    change core.step s = .next s' at hstep
    rw [hstep]
    exact h

theorem runsTo_one {s t : State} (h : step s = .next t) : runsTo 1 s t := runsTo_succ_iff.mpr ⟨t, h, runsTo_zero t⟩

theorem runsTo_trans {j k : Nat} {a b c : State} (h : runsTo j a b) (h' : runsTo k b c) : runsTo (j + k) a c := by
  induction j generalizing a with
  | zero =>
    cases h
    rwa [Nat.zero_add]
  | succ j ih =>
    obtain ⟨a', hstep, hrun⟩ := runsTo_succ_iff.mp h
    rw [Nat.add_right_comm]
    exact runsTo_succ_iff.mpr ⟨a', hstep, ih hrun⟩

/-! ### The two levels side by side -/

/-- R148: the machine in `m` and the operation level in `s` have read the same, from the same block: they agree on all that a
DECODE reads or hands over, and the host waits. -/
structure Follows (s m : State) : Prop where
  h_eq : m.h = s.h
  r_eq : m.r = s.r
  src_eq : m.out.src = s.out.src
  snk_eq : m.out.snk = s.out.snk
  strCap_eq : ∀ sec, strCap sec m.params = strCap sec s.params
  extraCap_eq : m.params.extraCap = s.params.extraCap
  waits : m.out.script = []

theorem Follows.avail_eq {s m : State} (h : Follows s m) : avail m = avail s := by
  rw [avail, avail, h.r_eq, h.src_eq]

theorem Follows.took {s m : State} (h : Follows s m) (d : Bytes) : Follows (Machine.took d s) (Machine.took d m) where
  h_eq := h.h_eq
  r_eq := by rw [Machine.took, Machine.took, h.r_eq]
  src_eq := by
    change srcAfter d.length m = srcAfter d.length s
    rw [srcAfter, srcAfter, h.r_eq, h.src_eq]
  snk_eq := h.snk_eq
  strCap_eq := h.strCap_eq
  extraCap_eq := h.extraCap_eq
  waits := h.waits

theorem Follows.setP {s m : State} (h : Follows s m) (p : Parser) : Follows s (m.setP p) :=
  ⟨h.h_eq, h.r_eq, h.src_eq, h.snk_eq, h.strCap_eq, h.extraCap_eq, h.waits⟩

theorem Follows.setC {s m : State} (h : Follows s m) (c c' : Word32) : Follows (s.setC c) (m.setC c') :=
  ⟨h.h_eq, h.r_eq, h.src_eq, h.snk_eq, h.strCap_eq, h.extraCap_eq, h.waits⟩

/-- R137, R138: the state DECODE leaves, from the outcome of steps 1 to 6. -/
def Proc.decodeEnd : Proc Header → State
  | .ret w s => endOk .unit ((s.setH w).setLen s.r.pos)
  | .raise f s => takeFault .parser f s

theorem decodeWhole_eq (s : State) : decodeWhole s = (decodeRun s).decodeEnd := by
  rw [decodeWhole]
  cases decodeRun s <;> rfl

/-- Entry 18: the machine takes one step more than it pulls bytes when it finds the source at its end. -/
def Proc.stepsAtEnd {α : Type} : Proc α → Nat
  | .ret _ _ => 0
  | .raise f _ => if f.kind = .unexpectedEndOfStream then 1 else 0

theorem decodeEnd_len (res : Proc Header) : res.decodeEnd.len = res.final.r.pos := by cases res <;> rfl

/-- R194: the extra step is taken exactly when the code of the fault is 2. -/
theorem stepsAtEnd_eq (res : Proc Header) : (if res.decodeEnd.err = 2#8 then 1 else 0) = res.stepsAtEnd := by
  cases res with
  | ret w s => rfl
  | raise f s =>
    have hcode : faultCode f.kind = 2#8 ↔ f.kind = .unexpectedEndOfStream := by cases f.kind <;> decide
    exact if_congr hcode rfl rfl

/-- R148: the machine in `u` has ended as the operation level in `t`. -/
structure SameOutcome (t u : State) : Prop where
  idle : u.p.ph = .idle
  h_eq : u.h = t.h
  len_eq : u.len = t.len
  rsp_eq : u.out.rsp = t.out.rsp
  status_eq : u.status = t.status
  err_eq : u.err = t.err
  errInfo_eq : u.errInfo = t.errInfo
  src_eq : u.out.src = t.out.src
  snk_eq : u.out.snk = t.out.snk

/-- R148: from `m` the machine ends as the operation level does, with as many steps as bytes are still pulled. -/
def Delivers (m : State) (res : Proc Header) : Prop :=
  ∃ n u, res.final.r.pos = m.r.pos + n ∧ runsTo (n + res.stepsAtEnd) m u ∧ SameOutcome res.decodeEnd u

/-- R148: what the machine delivers after some bytes it delivers from before them. -/
theorem Delivers.of_run {k : Nat} {m m' : State} {res : Proc Header} (hrun : runsTo k m m')
    (hpos : m'.r.pos = m.r.pos + k) (h : Delivers m' res) : Delivers m res := by
  obtain ⟨n, u, hn, hu, hsame⟩ := h
  refine ⟨k + n, u, by omega, ?_, hsame⟩
  rw [Nat.add_assoc]
  exact runsTo_trans hrun hu

/-- R199: both levels take the same fault entry. -/
theorem Follows.sameOutcome_fault {s m : State} (h : Follows s m) (f : FaultRec) :
    SameOutcome (takeFault .parser f s) (takeFault .parser f m) where
  idle := rfl
  h_eq := h.h_eq
  len_eq := congrArg Reader.pos h.r_eq
  rsp_eq := rfl
  status_eq := rfl
  err_eq := rfl
  errInfo_eq := rfl
  src_eq := h.src_eq
  snk_eq := h.snk_eq

/-- R138: a fault other than that of the end of the source is taken where it is found. -/
theorem delivers_fault {s m : State} (h : Follows s m) {f : FaultRec} (hf : f.kind ≠ .unexpectedEndOfStream) :
    Delivers (takeFault .parser f m) (.raise f s) := by
  have hsteps : (Proc.raise f s : Proc Header).stepsAtEnd = 0 := if_neg hf
  refine ⟨0, _, congrArg Reader.pos h.r_eq.symm, ?_, h.sameOutcome_fault f⟩
  rw [hsteps]
  exact runsTo_zero _

/-- R137: GOTO(DONE) hands over the Header under construction. -/
theorem delivers_done {s m : State} (h : Follows s m) : Delivers (goto none m) (.ret m.p.w s) :=
  ⟨0, _, congrArg Reader.pos h.r_eq.symm, runsTo_zero _,
    { idle := rfl, h_eq := rfl, len_eq := congrArg Reader.pos h.r_eq, rsp_eq := rfl, status_eq := rfl, err_eq := rfl
      errInfo_eq := rfl, src_eq := h.src_eq, snk_eq := h.snk_eq }⟩

/-! ### One read of the operation level -/

/-- R144, R145: `reg d` are the parser's registers when `d` has come of a read of `n` bytes: it goes on while bytes are wanted,
and reports what it wanted and got when the source ends. -/
structure Collects (reg : Bytes → Parser) (n : Nat) : Prop where
  active : ∀ d, (reg d).ph ≠ .idle
  more : ∀ d b (s : State), d.length + 1 < n → phaseByte b (s.setP (reg d)) = s.setP (reg (d ++ [b]))
  short : ∀ d, d.length < n → wanted (reg d) = n ∧ gotten (reg d) = d.length

/-- R145: the run over the bytes of a read that still wants another. -/
theorem Collects.runsTo {reg : Bytes → Parser} {n : Nat} (hc : Collects reg n) {m : State} (hs : m.out.script = [])
    {d rest : Bytes} (ha : avail m = d ++ rest) (hd : d.length < n) :
    Machine.runsTo d.length (m.setP (reg [])) ((took d m).setP (reg d)) := by
  induction d using List.reverseRecOn generalizing rest with
  | nil =>
    rw [took_nil]
    exact runsTo_zero _
  | append_singleton d b ih =>
    have ha' : avail m = d ++ b :: rest := by rw [ha, List.append_assoc]; rfl
    rw [List.length_append, List.length_singleton] at hd ⊢
    have hbyte : avail ((took d m).setP (reg d)) = b :: rest := avail_took_append ha'
    have hstep : step ((took d m).setP (reg d)) = .next ((took (d ++ [b]) m).setP (reg (d ++ [b]))) := by
      rw [step_of_parsing (s := (took d m).setP (reg d)) (hc.active d) hs, parserStep_of_byte hbyte, ← took_took]
      exact congrArg Host.Outcome.next (hc.more d b (took [b] (took d m)) hd)
    exact runsTo_trans (ih ha' (by omega)) (runsTo_one hstep)

/-- R121, R145: a read of the operation level is a run of the machine in one phase, whose last byte is left to the phase's
action; a short read is R144's fault, with one step more. -/
theorem delivers_read {reg : Bytes → Parser} {n : Nat} (hc : Collects reg n) (hn : 0 < n) {s m : State}
    (hf : Follows s m) {k : Bytes → State → Proc Header}
    (hlast : ∀ d b, d.length + 1 = n → n ≤ (avail s).length →
      Delivers (phaseByte b ((took (d ++ [b]) m).setP (reg d))) (k (d ++ [b]) (took (d ++ [b]) s))) :
    Delivers (m.setP (reg [])) ((brRead n s).bind k) := by
  rcases brRead_cases n s with ⟨hlen, e⟩ | ⟨hlen, e⟩
  · have hsplit : avail m = (avail s).take n ++ (avail s).drop n := by rw [hf.avail_eq, List.take_append_drop]
    have htake : ((avail s).take n).length = n := List.length_take_of_le hlen
    rw [e, Proc.bind_ret]
    generalize (avail s).take n = bytes at hsplit htake
    rcases List.eq_nil_or_concat' bytes with rfl | ⟨d, b, rfl⟩
    · rw [List.length_nil] at htake
      omega
    rw [List.length_append, List.length_singleton] at htake
    have ha : avail m = d ++ b :: (avail s).drop n := by rw [hsplit, List.append_assoc]; rfl
    have hbyte : avail ((took d m).setP (reg d)) = b :: (avail s).drop n := avail_took_append ha
    have hstep : step ((took d m).setP (reg d)) = .next (phaseByte b ((took (d ++ [b]) m).setP (reg d))) := by
      rw [step_of_parsing (s := (took d m).setP (reg d)) (hc.active d) hf.waits, parserStep_of_byte hbyte, ← took_took]
      rfl
    refine .of_run (runsTo_trans (hc.runsTo hf.waits ha (by omega)) (runsTo_one hstep)) ?_
      (hlast d b htake hlen)
    obtain ⟨hr, -⟩ := actionKept_phaseByte b ((took (d ++ [b]) m).setP (reg d))
    rw [hr]
    simp
  · have ha : avail m = avail s ++ [] := by rw [hf.avail_eq, List.append_nil]
    have hrun := hc.runsTo hf.waits ha hlen
    have hempty : avail ((took (avail s) m).setP (reg (avail s))) = [] := avail_took_append ha
    have hstep := step_of_parsing (s := (took (avail s) m).setP (reg (avail s))) (hc.active _) hf.waits
    obtain ⟨hwanted, hgotten⟩ := hc.short _ hlen
    rw [parserStep_of_end hempty, State.setP_p, hwanted, hgotten] at hstep
    rw [e, Proc.bind_raise]
    refine ⟨(avail s).length, _, ?_, runsTo_trans hrun (runsTo_one hstep), ?_⟩
    · change s.r.pos + (avail s).length = m.r.pos + (avail s).length
      rw [hf.r_eq]
    · have hend := (hf.took (avail s)).sameOutcome_fault
        ⟨.unexpectedEndOfStream, countHalf n, countHalf (avail s).length⟩
      refine { hend with src_eq := hend.src_eq.trans ?_ }
      change srcAfter (avail s).length s = if s.r.bound then [] else s.out.src
      cases hb : s.r.bound <;> simp [srcAfter, avail, hb]

/-- R145: the registers in a phase of a read of two or eight bytes, when `d` has come. -/
def Parser.reading (p : Parser) (ph : Phase) (d : Bytes) : Parser := { p with ph := ph, cnt := d.length, tmp := d, acc := [] }

/-- R145: the registers in SF_DATA, when `d` has come. -/
def Parser.readingData (p : Parser) (d : Bytes) : Parser := { p with ph := .sfData, cnt := d.length, tmp := [], acc := d }

/-- R145: the registers in a string section, when `acc` has come. -/
def Parser.readingString (p : Parser) (sec : StrSection) (acc : Bytes) : Parser :=
  { p with ph := strPhase sec, cnt := 0, tmp := [], acc := acc }

theorem gather_reading (p : Parser) (ph : Phase) (d : Bytes) (b : Byte) (s : State) :
    gather b (s.setP (p.reading ph d)) = s.setP (p.reading ph (d ++ [b])) := by
  simp [gather, Parser.reading, State.setP]

/-- R144: the phases of a read of two bytes. -/
def twoBytePhases : List Phase := [.magic, .xlen, .sfTag, .sfLen, .hcrc]

/-- R145: the first byte of a read of two is only gathered. -/
theorem phaseByte_first {ph : Phase} (h : ph ∈ twoBytePhases) (p : Parser) {d : Bytes} (hd : d.length + 1 < 2) (b : Byte)
    (s : State) : phaseByte b (s.setP (p.reading ph d)) = gather b (s.setP (p.reading ph d)) := by
  simp only [twoBytePhases, List.mem_cons, List.not_mem_nil, or_false] at h
  rcases h with rfl | rfl | rfl | rfl | rfl
  · exact (phaseByte_magic rfl).trans (if_neg hd.ne)
  · exact (phaseByte_xlen rfl).trans (if_neg hd.ne)
  · exact (phaseByte_sfTag rfl).trans (if_neg hd.ne)
  · exact (phaseByte_sfLen rfl).trans (if_neg hd.ne)
  · exact (phaseByte_hcrc rfl).trans (if_neg hd.ne)

/-- R144, R145: a read of two bytes. -/
theorem collects_two (p : Parser) {ph : Phase} (h : ph ∈ twoBytePhases) : Collects (p.reading ph) 2 where
  active d hidle := by
    change ph = .idle at hidle
    subst hidle
    simp [twoBytePhases] at h
  more d b s hd := (phaseByte_first h p hd b s).trans (gather_reading p ph d b s)
  short d _ := by
    simp only [twoBytePhases, List.mem_cons, List.not_mem_nil, or_false] at h
    rcases h with rfl | rfl | rfl | rfl | rfl <;> exact ⟨rfl, rfl⟩

/-- R144, R145: the read of the eight bytes after the magic. -/
theorem collects_fixed (p : Parser) : Collects (p.reading .fixed) 8 where
  active _ := by simp [Parser.reading]
  more d b s hd := ((phaseByte_fixed rfl).trans (if_neg hd.ne)).trans (gather_reading p _ d b s)
  short _ _ := ⟨rfl, rfl⟩

/-- R144, R145: the read of a payload. -/
theorem collects_data (p : Parser) : Collects p.readingData p.slen.toNat where
  active _ := by simp [Parser.readingData]
  more d b s hd := by
    refine ((phaseByte_sfData rfl).trans (if_neg hd.ne)).trans ?_
    simp [Parser.readingData, State.setP]
  short _ _ := ⟨rfl, rfl⟩

/-- R141, R144: a string is read byte by byte. -/
theorem collects_string (p : Parser) (sec : StrSection) (acc : Bytes) :
    Collects (fun _ => p.readingString sec acc) 1 where
  active _ := by cases sec <;> simp [Parser.readingString, strPhase]
  more d b s hd := by omega
  short d hd := by
    have h0 : d.length = 0 := by omega
    rw [h0]
    cases sec <;> exact ⟨rfl, rfl⟩

/-! ### The last byte of each read -/

/-- R145: the second byte of the magic. -/
theorem phaseByte_magic_last (p : Parser) {d : Bytes} (hd : d.length + 1 = 2) (b : Byte) (s : State) :
    phaseByte b (s.setP (p.reading .magic d)) =
      if d ++ [b] = magic then goto (some .fixed) (s.setP (p.reading .magic (d ++ [b])))
      else takeFault .parser ⟨.invalidMagic, byteHalf (byteAt (d ++ [b]) 0), byteHalf (byteAt (d ++ [b]) 1)⟩
        (s.setP (p.reading .magic (d ++ [b]))) := by
  rw [phaseByte_magic rfl, gather_reading]
  exact if_pos hd

/-- R145: the last byte of the fixed part. -/
theorem phaseByte_fixed_last (p : Parser) {d : Bytes} (hd : d.length + 1 = 8) (b : Byte) (s : State) :
    phaseByte b (s.setP (p.reading .fixed d)) =
      acceptFixed (byteAt (d ++ [b]) 0) (byteAt (d ++ [b]) 1) (u32 (((d ++ [b]).drop 2).take 4)) (byteAt (d ++ [b]) 6)
        (byteAt (d ++ [b]) 7) (s.setP (p.reading .fixed (d ++ [b]))) := by
  rw [phaseByte_fixed rfl, gather_reading]
  exact if_pos hd

/-- R145: the second byte of `xlen`. -/
theorem phaseByte_xlen_last (p : Parser) {d : Bytes} (hd : d.length + 1 = 2) (b : Byte) (s : State) :
    phaseByte b (s.setP (p.reading .xlen d)) = acceptXlen (u16 (d ++ [b])) (s.setP (p.reading .xlen (d ++ [b]))) := by
  rw [phaseByte_xlen rfl, gather_reading]
  exact if_pos hd

/-- R145: the second byte of a subfield's ids. -/
theorem phaseByte_sfTag_last (p : Parser) {d : Bytes} (hd : d.length + 1 = 2) (b : Byte) (s : State) :
    phaseByte b (s.setP (p.reading .sfTag d)) =
      s.setP ({ p with tag := (byteAt (d ++ [b]) 0, byteAt (d ++ [b]) 1) }.reading .sfLen []) := by
  rw [phaseByte_sfTag rfl]
  exact if_pos hd

/-- R145: the second byte of a subfield's data length. -/
theorem phaseByte_sfLen_last (p : Parser) {d : Bytes} (hd : d.length + 1 = 2) (b : Byte) (s : State) :
    phaseByte b (s.setP (p.reading .sfLen d)) =
      acceptSubLen (u16 (d ++ [b])) (s.setP (p.reading .sfLen (d ++ [b]))) := by
  rw [phaseByte_sfLen rfl, gather_reading]
  exact if_pos hd

/-- R145: the last byte of a payload. -/
theorem phaseByte_sfData_last (p : Parser) {d : Bytes} (hd : d.length + 1 = p.slen.toNat) (b : Byte) (s : State) :
    phaseByte b (s.setP (p.readingData d)) = endSub (s.setP (p.readingData (d ++ [b]))) := by
  refine (phaseByte_sfData rfl).trans ((if_pos hd).trans ?_)
  simp [Parser.readingData, State.setP]

/-- R145: the second byte of the stored checksum. -/
theorem phaseByte_hcrc_last (p : Parser) {d : Bytes} (hd : d.length + 1 = 2) (b : Byte) (s : State) :
    phaseByte b (s.setP (p.reading .hcrc d)) = acceptHcrc (u16 (d ++ [b])) (s.setP (p.reading .hcrc (d ++ [b]))) := by
  rw [phaseByte_hcrc rfl, gather_reading]
  exact if_pos hd

/-- R145: a byte of a string section. -/
theorem phaseByte_readingString (p : Parser) (sec : StrSection) (acc : Bytes) (b : Byte) (s : State) :
    phaseByte b (s.setP (p.readingString sec acc)) = stringByte sec b (s.setP (p.readingString sec acc)) :=
  phaseByte_string rfl

/-! ### The rest of DECODE after each section -/

/-- R7: sequencing is associative. -/
theorem Proc.bind_assoc {α β γ : Type} (m : Proc α) (k : α → State → Proc β) (k' : β → State → Proc γ) :
    (m.bind k).bind k' = m.bind fun v s => (k v s).bind k' := by cases m <;> rfl

/-- R133 to R135: a section that is selected, in front of what follows it. -/
theorem optionally_true_bind {α β : Type} (m : State → Proc α) (s : State) (k : Option α → State → Proc β) :
    (optionally true m s).bind k = (m s).bind fun v s1 => k (some v) s1 := Proc.bind_assoc _ _ _

/-- R136: DECODE after the comment, with the Header `w` so far. -/
def decodeFromHcrc (w : Header) (s : State) : Proc Header :=
  (optionally (fhcrcSet w.flg) checkHcrc s).bind fun _ s1 => .ret w s1

/-- R135: DECODE after the filename. -/
def decodeFromComment (w : Header) (s : State) : Proc Header :=
  (optionally (fcommentSet w.flg) (parseZstr .comment) s).bind fun cm s1 => decodeFromHcrc { w with comment := cm } s1

/-- R134: DECODE after the FEXTRA section. -/
def decodeFromName (w : Header) (s : State) : Proc Header :=
  (optionally (fnameSet w.flg) (parseZstr .name) s).bind fun nm s1 => decodeFromComment { w with name := nm } s1

/-- R133: DECODE after the fixed part. -/
def decodeFromExtra (w : Header) (s : State) : Proc Header :=
  (optionally (fextraSet w.flg) parseExtra s).bind fun ex s1 => decodeFromName { w with extra := ex } s1

theorem decodeRun_eq (s : State) : decodeRun s = (parseFixed (brOpen s)).bind decodeFromExtra := rfl

/-! ### The trailer and the strings -/

/-- R136, R145: from the stored checksum on. -/
theorem delivers_acceptHcrc {s m : State} (hf : Follows s m) (stored : Half) :
    Delivers (acceptHcrc stored m)
      ((if stored = m.p.snap then Proc.ret () s else Proc.raise ⟨.checksumMismatch, m.p.snap, stored⟩ s).bind
        fun _ s1 => Proc.ret m.p.w s1) := by
  unfold acceptHcrc
  by_cases hsame : stored = m.p.snap
  · rw [if_pos hsame, if_pos hsame]
    exact delivers_done hf
  · rw [if_neg hsame, if_neg hsame]
    exact delivers_fault hf (by simp)

/-- R136, R145: from the test for the trailer on. -/
theorem delivers_fromHcrc {s m : State} (hf : Follows s m) :
    Delivers (goto (nextPhase 3 m.p.w.flg) m) (decodeFromHcrc m.p.w s) := by
  rw [nextPhase_three, decodeFromHcrc]
  cases fhcrcSet m.p.w.flg with
  | false => exact delivers_done hf
  | true =>
    rw [optionally_true_bind, checkHcrc_eq, Proc.bind_assoc]
    have hsnap : crc16Of m.r.buf = crc16Of s.r.buf := congrArg (fun r => crc16Of r.buf) hf.r_eq
    have hstart : goto (some .hcrc) m = (m.setC (crcFold crcInit m.r.buf)).setP
        ({ m.p with snap := crc16Of m.r.buf }.reading .hcrc []) := rfl
    change Delivers (goto (some .hcrc) m) _
    rw [hstart]
    refine delivers_read (collects_two _ (by simp [twoBytePhases])) (by decide) (hf.setC _ _) fun d b hd _ => ?_
    have hread := ((hf.setC (crcFold crcInit s.r.buf) (crcFold crcInit m.r.buf)).took (d ++ [b])).setP
      (Parser.reading { m.p with snap := crc16Of m.r.buf } .hcrc (d ++ [b]))
    rw [phaseByte_hcrc_last _ hd, ← hsnap]
    exact delivers_acceptHcrc hread (u16 (d ++ [b]))

/-- R145: a string that is complete goes to its store, and NEXT is taken from there. -/
def storeString (sec : StrSection) (text : Bytes) (s : State) : State :=
  match sec with
  | .name => acceptName text s
  | .comment => acceptComment text s

/-- R141, R145: the zero byte ends a string. -/
theorem stringByte_end (sec : StrSection) (s : State) : stringByte sec 0#8 s = storeString sec s.p.acc s := by
  cases sec <;> rfl

/-- R141, R192: a byte above the capacity of a string. -/
theorem stringByte_over {sec : StrSection} {b : Byte} {s : State} (h0 : b ≠ 0#8)
    (hcap : strCap sec s.params = some s.p.acc.length) :
    stringByte sec b s = takeFault .parser (capFault (strCode sec)) s := (if_neg h0).trans (if_pos hcap)

/-- R141, R145: a byte of a string. -/
theorem stringByte_more {sec : StrSection} {b : Byte} {s : State} (h0 : b ≠ 0#8)
    (hcap : strCap sec s.params ≠ some s.p.acc.length) :
    stringByte sec b s = s.setP { s.p with acc := s.p.acc ++ [b] } := (if_neg h0).trans (if_neg hcap)

/-- R141, R145: from some byte of a string on, if what follows the string is delivered. -/
theorem delivers_zstrLoop (p : Parser) (sec : StrSection) {k : Bytes → State → Proc Header}
    (hk : ∀ text s m, Follows s m → Delivers (storeString sec text (m.setP (p.readingString sec text))) (k text s))
    {fuel : Nat} {acc : Bytes} {s m : State} (hf : Follows s m) (hfuel : (avail s).length < fuel) :
    Delivers (m.setP (p.readingString sec acc))
      ((zstrLoop (strCap sec s.params) (strCode sec) fuel acc s).bind k) := by
  induction fuel generalizing acc s m with
  | zero => omega
  | succ fuel ih =>
    rw [zstrLoop, Proc.bind_assoc]
    refine delivers_read (collects_string p sec acc) one_pos hf fun d b hd hlen => ?_
    obtain rfl : d = [] := List.eq_nil_of_length_eq_zero (by omega)
    have hread := hf.took [b]
    change Delivers (phaseByte b ((took [b] m).setP (p.readingString sec acc)))
      ((if b = 0#8 then .ret acc (took [b] s)
        else if strCap sec s.params = some acc.length then .raise (capFault (strCode sec)) (took [b] s)
        else zstrLoop (strCap sec s.params) (strCode sec) fuel (acc ++ [b]) (took [b] s)).bind k)
    rw [phaseByte_readingString]
    by_cases h0 : b = 0#8
    · subst h0
      rw [stringByte_end, if_pos rfl]
      exact hk acc _ _ hread
    rw [if_neg h0]
    by_cases hcap : strCap sec s.params = some acc.length
    · have hover := stringByte_over (s := (took [b] m).setP (p.readingString sec acc)) h0 ((hf.strCap_eq sec).trans hcap)
      rw [hover, if_pos hcap]
      exact delivers_fault (hread.setP _) (by simp [capFault])
    · have hmore := stringByte_more (s := (took [b] m).setP (p.readingString sec acc)) h0
        (fun h => hcap ((hf.strCap_eq sec).symm.trans h))
      rw [hmore, if_neg hcap]
      exact ih hread (by simp; omega)

/-- R141, R145: a string section from its first byte on. -/
theorem delivers_parseZstr (sec : StrSection) {k : Bytes → State → Proc Header} {s m : State} (hf : Follows s m)
    (hk : ∀ text s' m', Follows s' m' → Delivers (storeString sec text (m'.setP (m.p.readingString sec text))) (k text s')) :
    Delivers (goto (some (strPhase sec)) m) ((parseZstr sec s).bind k) := by
  have hstart : goto (some (strPhase sec)) m = m.setP (m.p.readingString sec []) := by cases sec <;> rfl
  rw [hstart]
  exact delivers_zstrLoop m.p sec hk hf (Nat.lt_succ_self _)

/-- R135, R145: from the test for the comment on. -/
theorem delivers_fromComment {s m : State} (hf : Follows s m) (hc : m.p.w.comment = none) :
    Delivers (goto (nextPhase 2 m.p.w.flg) m) (decodeFromComment m.p.w s) := by
  rw [nextPhase_two, decodeFromComment]
  cases fcommentSet m.p.w.flg with
  | false =>
    have hw : { m.p.w with comment := none } = m.p.w := by rw [← hc]
    rw [optionally_false, Proc.bind_ret, hw]
    exact delivers_fromHcrc hf
  | true =>
    rw [optionally_true_bind]
    exact delivers_parseZstr .comment hf fun text s' m' hf' => delivers_fromHcrc (hf'.setP
      { m.p.readingString .comment text with w := { m.p.w with comment := some text } })

/-- R134, R145: from the test for the filename on. -/
theorem delivers_fromName {s m : State} (hf : Follows s m) (hn : m.p.w.name = none) (hc : m.p.w.comment = none) :
    Delivers (goto (nextPhase 1 m.p.w.flg) m) (decodeFromName m.p.w s) := by
  rw [nextPhase_one, decodeFromName]
  cases fnameSet m.p.w.flg with
  | false =>
    have hw : { m.p.w with name := none } = m.p.w := by rw [← hn]
    rw [optionally_false, Proc.bind_ret, hw]
    exact delivers_fromComment hf hc
  | true =>
    rw [optionally_true_bind]
    exact delivers_parseZstr .name hf fun text s' m' hf' => delivers_fromComment (hf'.setP
      { m.p.readingString .name text with w := { m.p.w with name := some text } }) hc

/-! ### The FEXTRA section -/

/-- R139, R148: the machine has read the Fields `fs` of the FEXTRA section, of which `rem` bytes are left. -/
structure InSection (w : Header) (fs : List Field) (rem : Nat) (s m : State) : Prop where
  follows : Follows s m
  w_eq : m.p.w = { w with extra := some fs }
  rem_eq : m.p.rem.toNat = rem

/-- R145: bytes taken and registers written inside a subfield do not change what is left of the section before it. -/
theorem InSection.took {w : Header} {fs : List Field} {rem : Nat} {s m : State} (h : InSection w fs rem s m) (d : Bytes)
    {p : Parser} (hw : p.w = m.p.w) (hr : p.rem = m.p.rem) :
    InSection w fs rem (Machine.took d s) ((Machine.took d m).setP p) where
  follows := (h.follows.took d).setP p
  w_eq := hw.trans h.w_eq
  rem_eq := (congrArg BitVec.toNat hr).trans h.rem_eq

/-- R139, R148: SUBLOOP delivers what the loop of PARSE_EXTRA, with this much fuel, and DECODE after it give. -/
def LoopDelivers (w : Header) (fuel : Nat) : Prop :=
  ∀ (fs : List Field) (rem : Nat) (s m : State), InSection w fs rem s m → rem ≤ fuel →
    Delivers (subLoop m) ((subfields fuel rem fs s).bind fun gs s1 => decodeFromName { w with extra := some gs } s1)

/-- R145 ENDSUB: a subfield has been read; the loop goes on behind it. -/
theorem delivers_endSub {w : Header} {fuel : Nat} (ih : LoopDelivers w fuel) {fs : List Field} {rem : Nat} {s m : State}
    (h : InSection w fs rem s m) (hfuel : rem ≤ fuel + 1) :
    Delivers (endSub m) ((subfields fuel (rem - (4 + m.p.slen.toNat)) (fs ++ [⟨m.p.tag.1, m.p.tag.2, m.p.acc⟩]) s).bind
      fun gs s1 => decodeFromName { w with extra := some gs } s1) := by
  refine ih _ _ s _ ⟨h.follows.setP _, ?_, ?_⟩ (by omega)
  · simp [h.w_eq]
  · rw [← h.rem_eq]
    exact rem_sub_toNat _ _

/-- R139: a turn of the loop of PARSE_EXTRA after the subfield's ids and data length. -/
def subfieldAfterLen (fuel rem : Nat) (fs : List Field) (i0 i1 : Byte) (slen : Half) (s : State) : Proc (List Field) :=
  if rem < 4 + slen.toNat then .raise (malformed (lenHalf rem) slen) s
  else (brRead slen.toNat s).bind fun data s1 =>
    subfields fuel (rem - (4 + slen.toNat)) (fs ++ [⟨i0, i1, data⟩]) s1

/-- R145 SF_LEN: a subfield without data ends at once. -/
theorem acceptSubLen_empty {m : State} (h : 4 ≤ m.p.rem.toNat) :
    acceptSubLen 0#16 m = endSub (m.setP { m.p with slen := 0#16, acc := [] }) :=
  (if_pos (decide_eq_true h)).trans (if_pos rfl)

/-- R145 SF_LEN: a subfield with data that fits. -/
theorem acceptSubLen_data {slen : Half} {m : State} (h : 4 + slen.toNat ≤ m.p.rem.toNat) (h0 : slen ≠ 0#16) :
    acceptSubLen slen m = m.setP ({ m.p with slen := slen }.readingData []) :=
  (if_pos (decide_eq_true h)).trans (if_neg h0)

/-- R139, R145: from the data length of a subfield on. -/
theorem delivers_acceptSubLen {w : Header} {fuel : Nat} (ih : LoopDelivers w fuel) {fs : List Field} {rem : Nat}
    {s m : State} (h : InSection w fs rem s m) (hfuel : rem ≤ fuel + 1) (slen : Half) :
    Delivers (acceptSubLen slen m) ((subfieldAfterLen fuel rem fs m.p.tag.1 m.p.tag.2 slen s).bind
      fun gs s1 => decodeFromName { w with extra := some gs } s1) := by
  have hrem := h.rem_eq
  unfold subfieldAfterLen
  by_cases hfit : 4 + slen.toNat ≤ m.p.rem.toNat
  swap
  · rw [acceptSubLen_unfit hfit, if_pos (by omega), Proc.bind_raise, ← hrem, lenHalf_of_toNat]
    exact delivers_fault (h.follows.setP _) (by simp [malformed])
  rw [if_neg (by omega), Proc.bind_assoc]
  by_cases h0 : slen = 0#16
  · subst h0
    have hread : brRead 0 s = .ret [] (took [] s) := brRead_append (d := []) rfl
    rw [acceptSubLen_empty hfit, BitVec.toNat_ofNat, Nat.zero_mod, hread, took_nil, Proc.bind_ret]
    have hsec := h.took [] (p := { m.p with slen := 0#16, acc := [] }) rfl rfl
    rw [took_nil, took_nil] at hsec
    exact delivers_endSub ih hsec hfuel
  · have hpos : 0 < slen.toNat := Nat.pos_of_ne_zero fun hz => h0 (BitVec.eq_of_toNat_eq hz)
    rw [acceptSubLen_data hfit h0]
    refine delivers_read (collects_data { m.p with slen := slen }) hpos h.follows fun d b hd _ => ?_
    rw [phaseByte_sfData_last _ hd]
    exact delivers_endSub ih (h.took (d ++ [b]) (p := Parser.readingData { m.p with slen := slen } (d ++ [b])) rfl rfl)
      hfuel

/-- R139, R145: from the ids of a subfield on. -/
theorem delivers_sfTag {w : Header} {fuel : Nat} (ih : LoopDelivers w fuel) {fs : List Field} {rem : Nat}
    {s m : State} (h : InSection w fs rem s m) (h4 : 4 ≤ rem) (hfuel : rem ≤ fuel + 1) :
    Delivers (m.setP (m.p.reading .sfTag [])) ((subfields (fuel + 1) rem fs s).bind
      fun gs s1 => decodeFromName { w with extra := some gs } s1) := by
  rw [subfields, if_neg (by omega), if_neg (by omega), Proc.bind_assoc]
  refine delivers_read (collects_two m.p (by simp [twoBytePhases])) two_pos h.follows fun d b hd _ => ?_
  obtain ⟨i0, i1, hids⟩ := two_of_length (d := d ++ [b]) (by simpa using hd)
  rw [phaseByte_sfTag_last _ hd, hids, Proc.bind_assoc]
  refine delivers_read (collects_two { m.p with tag := (i0, i1) } (by simp [twoBytePhases])) two_pos (h.follows.took [i0, i1])
    fun d' b' hd' _ => ?_
  have hsec := (h.took [i0, i1] (p := { m.p with tag := (i0, i1) }) rfl rfl).took (d' ++ [b'])
    (p := Parser.reading { m.p with tag := (i0, i1) } .sfLen (d' ++ [b'])) rfl rfl
  rw [phaseByte_sfLen_last _ hd']
  exact delivers_acceptSubLen ih hsec hfuel _

/-- R139, R145: the end of the FEXTRA section. -/
theorem delivers_sectionEnd {w : Header} (hn : w.name = none) (hc : w.comment = none) {fs : List Field} {s m : State}
    (h : InSection w fs 0 s m) : Delivers (subLoop m) (decodeFromName { w with extra := some fs } s) := by
  have hrem : m.p.rem = 0#16 := BitVec.eq_of_toNat_eq h.rem_eq
  have hnext := delivers_fromName h.follows (by rw [h.w_eq, hn]) (by rw [h.w_eq, hc])
  rw [subLoop, if_pos hrem]
  rwa [h.w_eq] at hnext ⊢

/-- R139, R145: SUBLOOP and the loop of PARSE_EXTRA, by the fuel of the loop. -/
theorem loopDelivers {w : Header} (hn : w.name = none) (hc : w.comment = none) (fuel : Nat) : LoopDelivers w fuel := by
  induction fuel with
  | zero =>
    intro fs rem s m h hfuel
    obtain rfl : rem = 0 := by omega
    exact delivers_sectionEnd hn hc h
  | succ fuel ih =>
    intro fs rem s m h hfuel
    have hrem := h.rem_eq
    rcases subLoop_cases m with ⟨h0, -⟩ | ⟨h1, h3, e⟩ | ⟨h4, e⟩
    · obtain rfl : rem = 0 := by rw [← hrem, h0]; rfl
      rw [subfields, if_pos rfl, Proc.bind_ret]
      exact delivers_sectionEnd hn hc h
    · rw [e, subfields, if_neg (by omega), if_pos (by omega), Proc.bind_raise, ← hrem, lenHalf_of_toNat]
      exact delivers_fault h.follows (by simp [malformed])
    · rw [e]
      exact delivers_sfTag ih h (by omega) hfuel

/-- R139, R145: from `xlen` on. -/
theorem delivers_acceptXlen {s m : State} (hf : Follows s m) (hn : m.p.w.name = none) (hc : m.p.w.comment = none)
    (xlen : Half) : Delivers (acceptXlen xlen m)
      ((if overCap m.params.extraCap xlen.toNat then .raise (capFault 1#16) s
        else subfields xlen.toNat xlen.toNat [] s).bind fun gs s1 => decodeFromName { m.p.w with extra := some gs } s1) := by
  cases hcap : overCap m.params.extraCap xlen.toNat with
  | true =>
    rw [acceptXlen_over hcap, if_pos rfl, Proc.bind_raise]
    exact delivers_fault (hf.setP _) (by simp [capFault])
  | false =>
    rw [acceptXlen_within hcap, if_neg Bool.false_ne_true]
    exact loopDelivers hn hc _ [] _ _ _ ⟨hf.setP _, rfl, rfl⟩ le_rfl

/-- R133, R145: from the test for the FEXTRA section on. -/
theorem delivers_fromExtra {s m : State} (hf : Follows s m) (hx : m.p.w.extra = none) (hn : m.p.w.name = none)
    (hc : m.p.w.comment = none) : Delivers (goto (nextPhase 0 m.p.w.flg) m) (decodeFromExtra m.p.w s) := by
  rw [nextPhase_zero, decodeFromExtra]
  cases fextraSet m.p.w.flg with
  | false =>
    have hw : { m.p.w with extra := none } = m.p.w := by rw [← hx]
    rw [optionally_false, Proc.bind_ret, hw]
    exact delivers_fromName hf hn hc
  | true =>
    rw [optionally_true_bind, parseExtra, Proc.bind_assoc]
    refine delivers_read (collects_two m.p (ph := .xlen) (by simp [twoBytePhases])) two_pos hf fun d b hd _ => ?_
    rw [phaseByte_xlen_last _ hd, ← hf.extraCap_eq]
    exact delivers_acceptXlen ((hf.took (d ++ [b])).setP (m.p.reading .xlen (d ++ [b]))) hn hc _

/-- R132, R145: from the last byte of the fixed part on. -/
theorem delivers_acceptFixed {s m : State} (hf : Follows s m) (cm flg : Byte) (mtime : Word32) (xfl os : Byte) :
    Delivers (acceptFixed cm flg mtime xfl os m) (decodeFromExtra (fixedHeader cm flg mtime xfl os) s) := by
  have hnext := delivers_fromExtra (hf.setP { m.p with w := fixedHeader cm flg mtime xfl os }) rfl rfl rfl
  unfold acceptFixed
  exact hnext

/-! ### The whole DECODE -/

/-- R131, R132, R145: from the first byte on. -/
theorem delivers_fromMagic (p : Parser) {s m : State} (hf : Follows s m) :
    Delivers (m.setP (p.reading .magic [])) ((parseFixed s).bind decodeFromExtra) := by
  rw [parseFixed, Proc.bind_assoc]
  refine delivers_read (collects_two p (by simp [twoBytePhases])) two_pos hf fun d b hd _ => ?_
  rw [phaseByte_magic_last _ hd]
  by_cases hmagic : d ++ [b] = magic
  swap
  · rw [if_neg hmagic, if_neg hmagic, Proc.bind_raise]
    exact delivers_fault ((hf.took _).setP _) (by simp)
  rw [if_pos hmagic, if_pos hmagic, Proc.bind_assoc]
  have hstart : goto (some .fixed) ((took (d ++ [b]) m).setP (p.reading .magic (d ++ [b]))) =
      (took (d ++ [b]) m).setP (p.reading .fixed []) := rfl
  rw [hstart]
  refine delivers_read (collects_fixed p) (by decide) (hf.took (d ++ [b])) fun d' b' hd' _ => ?_
  rw [phaseByte_fixed_last _ hd', Proc.bind_ret]
  exact delivers_acceptFixed (((hf.took _).took _).setP (p.reading .fixed (d' ++ [b']))) _ _ _ _ _

/-- R130, R144: DECODE at the byte-serial level is one step that starts the machine. -/
theorem step_startDecode {s : State} (hg : s.params.grain = .byteSerial) (hb : busy s = false)
    (hs : s.out.script = [.cmd [0x02#8]]) : step s = .next (startDecode (withScript [] s)) := by
  rw [step_cmd hb hs rfl]
  change execDecode (withScript [] s) = _
  simp only [execDecode, withScript_params, hg]

/-- Settles O54: after the first step the machine is at the first byte of the magic, and delivers from there. -/
theorem parserMachineRefinesDecode : Obligations.ParserMachineRefinesDecode := by
  intro s hg hb hs
  have hf : Follows (brOpen { s with params := { s.params with grain := .operation } })
      (setBusy (brOpen (withScript [] s))) :=
    { h_eq := rfl, r_eq := rfl, src_eq := rfl, snk_eq := rfl, strCap_eq := fun sec => by cases sec <;> rfl
      extraCap_eq := rfl, waits := rfl }
  obtain ⟨n, u, hn, hrun, hsame⟩ := delivers_fromMagic s.p hf
  rw [← decodeRun_eq] at hn hrun hsame
  rw [← stepsAtEnd_eq, ← decodeWhole_eq] at hrun
  rw [← decodeWhole_eq] at hsame
  have hlen : (decodeWhole { s with params := { s.params with grain := .operation } }).len = n := by
    rw [decodeWhole_eq, decodeEnd_len, hn]
    exact Nat.zero_add n
  have hall := runsTo_trans (runsTo_one (step_startDecode hg hb hs)) hrun
  rw [← hlen, ← Nat.add_assoc] at hall
  exact ⟨_, u, rfl, hall, hsame.idle, hsame.h_eq, hsame.len_eq, hsame.rsp_eq, hsame.status_eq, hsame.err_eq,
    hsame.errInfo_eq, hsame.src_eq, hsame.snk_eq⟩

end Sys2Proof.Machine
end

section
/-! PROOFS about ENCODE at the level of the whole operation (43_encode.md R160 to R171): what it delivers and when it faults,
that it undoes DECODE and DECODE undoes it, and what the FHCRC bit adds. -/

namespace Sys2Proof.Machine

/-! ### The two ends of ENCODE -/

/-- R167, R199 (d): at either level a length that does not fit ends ENCODE before any byte. -/
theorem exec_encode_of_overflow {s : State} (h : encodeOverflows s.h = true) :
    exec .encode s = .next (takeFault .serializer overflowFault (s.setSer { s.ser with out := [] })) := by
  change execEncode s = _
  cases hg : s.params.grain with
  | operation => simp [execEncode, hg, encodeWhole, h]
  | byteSerial => simp [execEncode, hg, startEncode, h]

/-- R160, R166: from `s`, ENCODE ended `ok` in `t`, the whole output returned and delivered, `H` unchanged. -/
structure Encoded (s t : State) : Prop where
  exec_eq : exec .encode s = .next t
  ranOk : t.ranOk (.bytes (headerBytes s.h))
  snk_eq : t.out.snk = s.out.snk ++ sinkBytes (headerBytes s.h)
  len_eq : t.len = (headerBytes s.h).length
  h_eq : t.h = s.h
  params_eq : t.params = s.params
  src_eq : t.out.src = s.out.src

/-- R160, R166: lengths that fit end ENCODE `ok`. -/
theorem encoded_of_fits {s : State} (hg : s.params.grain = .operation) (hfits : encodeOverflows s.h = false) :
    ∃ t, Encoded s t := by
  obtain ⟨-, e⟩ := (encodeWhole_cases s).resolve_left (by simp [hfits])
  have hexec := (exec_encode_operation hg).trans (congrArg Host.Outcome.next e)
  exact ⟨_, hexec, ranOk_endOk _ _, rfl, rfl, rfl, rfl, rfl⟩

/-- R160: an ENCODE that ended `ok` returned the emitted bytes of a Header whose lengths fit. -/
theorem encode_ok_inv {s t : State} {out : Bytes} (hg : s.params.grain = .operation) (hexec : exec .encode s = .next t)
    (hok : t.ranOk (.bytes out)) : encodeOverflows s.h = false ∧ out = headerBytes s.h := by
  obtain ⟨-, -, -, hrsp⟩ := hok
  cases (exec_encode_operation hg).symm.trans hexec
  rcases encodeWhole_cases s with ⟨-, e⟩ | ⟨hfits, e⟩ <;> rw [e] at hrsp <;> cases hrsp
  exact ⟨hfits, rfl⟩

/-! ### ENCODE and DECODE -/

/-- R142, R151: a DECODE that ended `ok` left a valid Header, and consumed exactly the bytes that Header is emitted as. -/
theorem decode_ok_inv {s t : State} (hg : s.params.grain = .operation) (hexec : exec .decode s = .next t)
    (hok : t.ranOk .unit) : t.h.valid = true ∧ t.params = s.params ∧ (avail s).take t.len = headerBytes t.h := by
  obtain ⟨-, -, -, hrsp⟩ := hok
  cases hr : decodeRun s with
  | raise f u =>
    cases (execDecode_raise hg hr).symm.trans hexec
    cases hrsp
  | ret h u =>
    cases (execDecode_ret hg hr).symm.trans hexec
    obtain ⟨hv, -, ha, rfl⟩ := decodeRun_ret hr
    refine ⟨hv, rfl, ?_⟩
    rw [ha]
    exact List.take_left' (Nat.zero_add _).symm

/-- Settles O39: DECODE read the emitted bytes of the Header it left, and that Header encodes to them. -/
theorem encodeReturnsTheDecodedBytes : Obligations.EncodeReturnsTheDecodedBytes := by
  intro s t hg hexec hok
  obtain ⟨hv, hparams, hbytes⟩ := decode_ok_inv hg hexec hok
  obtain ⟨u, hu⟩ := encoded_of_fits (hparams ▸ hg) (valid_encodes hv)
  rw [hbytes]
  exact ⟨u, hu.exec_eq, hu.ranOk, hu.snk_eq⟩

/-- Settles O40: a valid Header encodes, and DECODE reads its emitted bytes back as that Header. -/
theorem decodeRecoversTheEncodedHeader : Obligations.DecodeRecoversTheEncodedHeader := by
  intro s d rest hg hv hgd hc ha
  obtain ⟨t, ht⟩ := encoded_of_fits hg (valid_encodes hv)
  have hdecode := execDecode_ret hgd (decodeRun_headerBytes hv hc ha)
  exact ⟨t, _, ht.exec_eq, ht.ranOk, hdecode, ranOk_endOk _ _, rfl, Nat.zero_add _, avail_took_append (s := brOpen d) ha⟩

/-! ### What ENCODE emits -/

/-- R160 step 5: the checksum, or nothing, after the plain bytes. -/
theorem headerBytes_eq_append (h : Header) :
    headerBytes h = plainBytes h ++ if fhcrcSet h.flg then le16 (crc16Of (plainBytes h)) else [] := by
  cases hf : fhcrcSet h.flg <;> simp [headerBytes, hf]

/-- Settles O35: with lengths that fit, ENCODE delivers the plain bytes, section by section, and the checksum its bit
selects. -/
theorem encodeEmitsTheHeader : Obligations.EncodeEmitsTheHeader := by
  intro s hg hlen
  obtain ⟨-, e⟩ := (encodeWhole_cases s).resolve_left (by simp [encodeOverflows_eq_false.mpr hlen])
  have hexec := (exec_encode_operation hg).trans (congrArg Host.Outcome.next e)
  refine ⟨_, plainBytes s.h, headerBytes s.h, sinkBytes (headerBytes s.h), hexec, ?plain, ?out,
    ranOk_endOk _ _, rfl, sinkBytes_map_byte _, fun i x => sinkBytes_last, rfl, rfl, rfl, rfl, rfl, rfl, rfl, rfl, rfl, rfl,
    fun hcrc => if_neg (Bool.eq_false_iff.mp hcrc)⟩
  case plain =>
    rw [plainBytes, ← List.append_assoc (xlenOf s.h), xlenOf_append_bodyOf, ← List.append_assoc, ← List.append_assoc]
    rfl
  case out => exact headerBytes_eq_append s.h

/-- Settles O36: one Field too long, or the sum too large, is the overflow test. -/
theorem encodeFaultsOnOverflow : Obligations.EncodeFaultsOnOverflow := by
  intro s fs hx hlong
  have hover : encodeOverflows s.h = true := by
    by_contra hfits
    obtain ⟨hdata, hsum⟩ := encodeOverflows_eq_false.mp (Bool.eq_false_iff.mpr hfits) fs hx
    rcases hlong with ⟨f, hf, hbig⟩ | hbig
    · exact absurd (hdata f hf) (not_le.mpr hbig)
    · exact absurd hsum (not_le.mpr hbig)
  exact ⟨_, exec_encode_of_overflow hover, ranInto_takeFault _ _ _, rfl, rfl, rfl, rfl, rfl, rfl, rfl, rfl, rfl, rfl, rfl,
    rfl⟩

/-! ### The FHCRC bit -/

/-- R92: setting FHCRC through a masked write changes no other bit. -/
theorem flgMasked_setHcrc (flg : Byte) : flgMasked (flg ||| 0x02#8) flg = flg ||| 0x02#8 := by
  refine BitVec.eq_of_getLsbD_eq fun i hi => ?_
  have hor : (flg ||| 0x02#8).getLsbD i = if i = 1 then true else flg.getLsbD i := getLsbD_or_twoPow flg 1 hi
  rw [flgMasked_bits _ _ _ hi, hor]
  by_cases h1 : i = 1
  · simp [h1]
  · simp [h1]

/-- R92: clearing FHCRC again through a masked write gives back a FLG byte that had it clear. -/
theorem flgMasked_clearHcrc {flg : Byte} (h : fhcrcSet flg = false) :
    flgMasked ((flg ||| 0x02#8) &&& 0xFD#8) (flg ||| 0x02#8) = flg := by
  refine BitVec.eq_of_getLsbD_eq fun i hi => ?_
  have hor : (flg ||| 0x02#8).getLsbD i = if i = 1 then true else flg.getLsbD i := getLsbD_or_twoPow flg 1 hi
  have hand : ((flg ||| 0x02#8) &&& 0xFD#8).getLsbD i = if i = 1 then false else (flg ||| 0x02#8).getLsbD i :=
    getLsbD_and_not_twoPow _ 1 hi
  change flg.getLsbD 1 = false at h
  rw [flgMasked_bits _ _ _ hi, hand, hor]
  by_cases h1 : i = 1
  · simpa [h1] using h
  · simp [h1]

theorem fhcrcSet_or (flg : Byte) : fhcrcSet (flg ||| 0x02#8) = true := by simp [fhcrcSet]

/-- R161: of the bytes under the checksum, FLG decides the fourth and no other. -/
theorem plainBytes_setFlg (h : Header) (flg : Byte) : plainBytes { h with flg := flg } = (plainBytes h).set 3 flg := rfl

theorem plainBytes_length_gt_three (h : Header) : 3 < (plainBytes h).length := by
  simp [plainBytes, fixedOf]
  omega

/-- R171: a Header with FHCRC clear, and the same Header with it set: the second's bytes against the first's. -/
theorem headerBytes_setHcrc {h : Header} (hf : fhcrcSet h.flg = false) :
    headerBytes { h with flg := h.flg ||| 0x02#8 } = (headerBytes h).set 3 (h.flg ||| 0x02#8) ++
      le16 (crc16Of ((headerBytes h).set 3 (h.flg ||| 0x02#8))) := by
  rw [headerBytes_noHcrc hf, headerBytes_hcrc (fhcrcSet_or h.flg), plainBytes_setFlg]

/-- A sequence with one byte replaced and a tail added, at an index of the old sequence. -/
theorem getD_set_append {bs tail : Bytes} {k i : Nat} (v : Byte) (hi : i < bs.length) :
    (bs.set k v ++ tail).getD i 0#8 = if k = i then v else bs.getD i 0#8 := by
  rw [List.getD_append _ _ _ _ (by simpa using hi)]
  by_cases hk : k = i
  · subst hk
    simp [hi]
  · simp [hk]

/-- R92: what WR_FLG leaves. -/
theorem exec_wrFlg (v : Byte) (s : State) :
    exec (.wrFlg v) s = .next (endOk .unit (s.setH { s.h with flg := flgMasked v s.h.flg })) := rfl

/-- Settles O38: WR_FLG turns `H` into the same Header with FHCRC set, and back, and ENCODE emits each. -/
theorem checksumTogglesAndRestores : Obligations.ChecksumTogglesAndRestores := by
  intro s t0 e0 hg hcrc hexec hok
  obtain ⟨hfits, rfl⟩ := encode_ok_inv hg hexec hok
  have hthree : 3 < (headerBytes s.h).length ∧ (headerBytes s.h).getD 3 0#8 = s.h.flg := by
    rw [headerBytes_noHcrc hcrc]
    exact ⟨plainBytes_length_gt_three s.h, rfl⟩
  have hon := exec_wrFlg (s.h.flg ||| 0x02#8) s
  rw [flgMasked_setHcrc] at hon
  obtain ⟨t1, ht1⟩ := encoded_of_fits (s := endOk .unit (s.setH { s.h with flg := s.h.flg ||| 0x02#8 })) hg hfits
  have hok1 : t1.ranOk (.bytes (headerBytes { s.h with flg := s.h.flg ||| 0x02#8 })) := ht1.ranOk
  rw [headerBytes_setHcrc hcrc] at hok1
  have hrestored : { t1.h with flg := flgMasked ((s.h.flg ||| 0x02#8) &&& 0xFD#8) t1.h.flg } = s.h := by
    rw [ht1.h_eq]
    change { s.h with flg := flgMasked ((s.h.flg ||| 0x02#8) &&& 0xFD#8) (s.h.flg ||| 0x02#8) } = s.h
    rw [flgMasked_clearHcrc hcrc]
  have hoff := exec_wrFlg ((s.h.flg ||| 0x02#8) &&& 0xFD#8) t1
  rw [hrestored] at hoff
  obtain ⟨t2, ht2⟩ := encoded_of_fits (s := endOk .unit (t1.setH s.h)) ((congrArg Params.grain ht1.params_eq).trans hg) hfits
  refine ⟨_, t1, _, t2, _, hon, ht1.exec_eq, hok1, by simp, ?_, fun i hi hne => ?_, ?_, hoff, ht2.exec_eq, ht2.ranOk⟩
  · rw [getD_set_append _ hthree.1, if_pos rfl, hthree.2]
  · rw [getD_set_append _ hi, if_neg hne.symm]
  · have hlen : (headerBytes s.h).length = ((headerBytes s.h).set 3 (s.h.flg ||| 0x02#8)).length := by simp
    rw [hlen, List.drop_left, List.take_left]

end Sys2Proof.Machine
end

section
/-! PROOF that the byte-serial serializer refines ENCODE (43_encode.md R172). A section is emitted by as many steps as it has
bytes (`runsTo_section`); the sections that are present, one after another, emit the header's bytes (`emits_sections`). -/

namespace Sys2Proof.Machine

/-! ### One section -/

/-- R172: with the host waiting and the parser idle, a step of a running ENCODE is one of the serializer. -/
theorem step_of_serializing {m : State} (hp : m.p.ph = .idle) (hs : m.out.script = []) (hser : m.ser.ph ≠ .idle) :
    step m = .next (serializerStep m) := by
  rw [step_of_busy (busy_eq_true_iff.mpr (.inr hser)), runningStep, hs]
  exact congrArg Host.Outcome.next (if_neg (not_not.mpr hp))

/-- R172: the bytes `d` of the section in progress have been emitted, up to the place where `idx` then stands. -/
def emit (d : Bytes) (m : State) : State := m.setSer { m.ser with out := m.ser.out ++ d, idx := m.ser.idx + d.length }

@[simp] theorem emit_emit (d e : Bytes) (m : State) : emit e (emit d m) = emit (d ++ e) m := by
  simp [emit, State.setSer, Nat.add_assoc]

/-- R172: a step that emits the last byte of its section goes to the next one. -/
theorem serializerStep_last {m : State} {b : Byte} (h : (sectionBytes m.ser m.h).drop m.ser.idx = [b]) :
    serializerStep m = gotoSer (nextSer m.h m.ser.ph) (emit [b] m) := by
  rw [serializerStep, h]
  rfl

/-- R172: a step that emits a byte before the last stays in its section. -/
theorem serializerStep_more {m : State} {b b' : Byte} {more : Bytes}
    (h : (sectionBytes m.ser m.h).drop m.ser.idx = b :: b' :: more) : serializerStep m = emit [b] m := by
  rw [serializerStep, h]
  rfl

/-- R172: what is left of the section in progress is emitted in as many steps as it has bytes, the last of which goes on. -/
theorem runsTo_section {rest : Bytes} (hne : rest ≠ []) {m : State} (hp : m.p.ph = .idle) (hs : m.out.script = [])
    (h : (sectionBytes m.ser m.h).drop m.ser.idx = rest) :
    runsTo rest.length m (gotoSer (nextSer m.h m.ser.ph) (emit rest m)) := by
  induction rest generalizing m with
  | nil => exact absurd rfl hne
  | cons b more ih =>
    have hser : m.ser.ph ≠ .idle := fun hidle => by simp [sectionBytes, hidle] at h
    have hstep := step_of_serializing hp hs hser
    cases more with
    | nil =>
      rw [serializerStep_last h] at hstep
      exact runsTo_one hstep
    | cons b' more =>
      rw [serializerStep_more h] at hstep
      have hleft : (sectionBytes (emit [b] m).ser (emit [b] m).h).drop (emit [b] m).ser.idx = b' :: more := by
        change (sectionBytes m.ser m.h).drop (m.ser.idx + 1) = _
        rw [← List.drop_drop, h]
        rfl
      have hrun := ih (by simp) (m := emit [b] m) hp hs hleft
      rw [emit_emit] at hrun
      exact runsTo_succ_iff.mpr ⟨_, hstep, hrun⟩

/-! ### The sections in order -/

/-- R172: the sections of a header, in the order of their bytes. -/
def serSections : List SerPhase := [.sFixed, .sXlen, .sSubfield, .sName, .sComment, .sHcrc]

/-- R172: the order of the machine is the order of the sections. -/
theorem serOrder_of_suffix {ph : SerPhase} {phs : List SerPhase} (h : ph :: phs <:+ serSections) : serOrder ph = phs := by
  simp only [serSections, List.suffix_cons_iff, List.cons.injEq, List.suffix_nil, reduceCtorEq, or_false] at h
  rcases h with ⟨rfl, rfl⟩ | ⟨rfl, rfl⟩ | ⟨rfl, rfl⟩ | ⟨rfl, rfl⟩ | ⟨rfl, rfl⟩ | ⟨rfl, rfl⟩ <;> rfl

/-- R172: the serializer as it enters a section after the output `out`. -/
def Serializer.entering (ph : SerPhase) (out : Bytes) : Serializer := { ph := ph, idx := 0, out := out, snap := crc16Of out }

/-- R172: the bytes that the sections `phs` add to the output `out`; the checksum is that of the output before it. -/
def emittedBy (h : Header) : List SerPhase → Bytes → Bytes
  | [], _ => []
  | ph :: phs, out =>
    if serPresent h ph then
      sectionBytes (.entering ph out) h ++ emittedBy h phs (out ++ sectionBytes (.entering ph out) h)
    else emittedBy h phs out

/-- R172: a section other than the checksum that is absent has no bytes. -/
theorem sectionBytes_of_absent {x : Serializer} {h : Header} (hx : x.ph ≠ .sHcrc) (ha : serPresent h x.ph = false) :
    sectionBytes x h = [] := by
  cases hph : x.ph with
  | idle => simp [sectionBytes, hph]
  | sFixed => simp [serPresent, hph] at ha
  | sXlen =>
    have hnone : h.extra = none := by simpa [serPresent, hph] using ha
    simp [sectionBytes, hph, xlenOf, hnone]
  | sSubfield => simpa [serPresent, sectionBytes, hph] using ha
  | sName =>
    have hnone : h.name = none := by simpa [serPresent, hph] using ha
    simp [sectionBytes, hph, stringOf, hnone]
  | sComment =>
    have hnone : h.comment = none := by simpa [serPresent, hph] using ha
    simp [sectionBytes, hph, stringOf, hnone]
  | sHcrc => exact absurd hph hx

/-- R172: present or not, a section other than the checksum adds its bytes. -/
theorem emittedBy_cons {h : Header} {ph : SerPhase} (hph : ph ≠ .sHcrc) (phs : List SerPhase) (out : Bytes) :
    emittedBy h (ph :: phs) out =
      sectionBytes (.entering ph out) h ++ emittedBy h phs (out ++ sectionBytes (.entering ph out) h) := by
  cases hpres : serPresent h ph
  · rw [sectionBytes_of_absent (x := .entering ph out) hph hpres]
    simp [emittedBy, hpres]
  · simp [emittedBy, hpres]

/-- R160, R172: all the sections, from no output, add the header's bytes. -/
theorem emittedBy_serSections (h : Header) : emittedBy h serSections [] = headerBytes h := by
  have hplain : emittedBy h serSections [] = plainBytes h ++ emittedBy h [.sHcrc] (plainBytes h) := by
    simp [serSections, emittedBy_cons, sectionBytes, Serializer.entering, plainBytes]
  rw [hplain]
  cases hf : fhcrcSet h.flg
  · simp [emittedBy, serPresent, hf, headerBytes]
  · simp [emittedBy, serPresent, hf, headerBytes, sectionBytes, Serializer.entering]

/-! ### The whole ENCODE -/

/-- R172: entering a section leaves its bytes to emit, those of the checksum from the output so far, and moves only `C` and
`S`. -/
theorem gotoSer_enters (ph : SerPhase) (m : State) : ∃ c x, gotoSer (some ph) m = (m.setC c).setSer x ∧ x.ph = ph ∧
    x.out = m.ser.out ∧ (sectionBytes x m.h).drop x.idx = sectionBytes (.entering ph m.ser.out) m.h := by
  cases ph with
  | sHcrc => exact ⟨crcFold crcInit m.ser.out, .entering .sHcrc m.ser.out, rfl, rfl, rfl, rfl⟩
  | _ => exact ⟨m.c, { m.ser with ph := _, idx := 0 }, rfl, rfl, rfl, rfl⟩

/-- R166, R172: from `m` the machine is idle with `bs` delivered, and besides the delivery only `C` and `S` can have moved. -/
def DeliveredFrom (m : State) (bs : Bytes) (u : State) : Prop :=
  ∃ c x, x.ph = .idle ∧ u = deliver bs ((m.setC c).setSer x)

/-- R172: from the first of the sections `phs` that is present, the machine emits what they add and delivers all of the
output. -/
theorem emits_sections {phs : List SerPhase} (hphs : phs <:+ serSections) {m : State} (hp : m.p.ph = .idle)
    (hs : m.out.script = []) :
    ∃ u, runsTo (emittedBy m.h phs m.ser.out).length (gotoSer (phs.find? (serPresent m.h)) m) u ∧
      DeliveredFrom m (m.ser.out ++ emittedBy m.h phs m.ser.out) u := by
  induction phs generalizing m with
  | nil =>
    refine ⟨_, runsTo_zero _, m.c, { m.ser with ph := .idle, idx := 0 }, rfl, ?_⟩
    rw [emittedBy, List.append_nil]
    rfl
  | cons ph phs ih =>
    have hrest : phs <:+ serSections := (List.suffix_cons ph phs).trans hphs
    cases hpres : serPresent m.h ph
    · rw [List.find?_cons_of_neg (by simp [hpres])]
      simpa [emittedBy, hpres] using ih hrest hp hs
    have hne : sectionBytes (.entering ph m.ser.out) m.h ≠ [] :=
      List.length_pos_iff.mp (sectionBytes_pos (x := .entering ph m.ser.out) hpres)
    obtain ⟨c, x, hgoto, hph, hout, hbytes⟩ := gotoSer_enters ph m
    rw [List.find?_cons_of_pos hpres, hgoto, emittedBy, if_pos hpres]
    generalize sectionBytes (.entering ph m.ser.out) m.h = d at hbytes hne ⊢
    have hrun : runsTo d.length ((m.setC c).setSer x) (gotoSer (nextSer m.h x.ph) (emit d ((m.setC c).setSer x))) :=
      runsTo_section hne (m := (m.setC c).setSer x) hp hs hbytes
    rw [hph, nextSer, serOrder_of_suffix hphs] at hrun
    obtain ⟨u, hu, c', x', hidle, e⟩ := ih hrest (m := emit d ((m.setC c).setSer x)) hp hs
    have houtput : (emit d ((m.setC c).setSer x)).ser.out = m.ser.out ++ d := congrArg (· ++ d) hout
    rw [houtput] at hu e
    refine ⟨u, ?_, c', x', hidle, ?_⟩
    · rw [List.length_append]
      exact runsTo_trans hrun hu
    · rw [e, ← List.append_assoc]
      rfl

/-- R160, R172: ENCODE at the byte-serial level is one step that checks the lengths and starts the machine. -/
theorem step_startEncode {s : State} (hg : s.params.grain = .byteSerial) (hb : busy s = false)
    (hs : s.out.script = [.cmd [0x03#8]]) : step s = .next (startEncode (withScript [] s)) := by
  rw [step_cmd hb hs rfl]
  change execEncode (withScript [] s) = _
  simp only [execEncode, withScript_params, hg]

/-- R172: BUSY set and nothing emitted, before the first section is entered. -/
def begun (s : State) : State := setBusy (s.setSer { s.ser with out := [] })

/-- R172: with lengths that fit, the machine starts by entering the first section. -/
theorem startEncode_of_fits {s : State} (h : encodeOverflows s.h = false) :
    startEncode s = gotoSer (serSections.find? (serPresent s.h)) (begun s) := if_neg (Bool.eq_false_iff.mp h)

/-- R166, R172: with lengths that fit, the machine delivers the header's bytes one step after as many steps as they are. -/
theorem runsTo_delivered {s : State} (hg : s.params.grain = .byteSerial) (hb : busy s = false)
    (hs : s.out.script = [.cmd [0x03#8]]) (hfits : encodeOverflows s.h = false) :
    ∃ u, runsTo (1 + (headerBytes s.h).length) s u ∧ DeliveredFrom (begun (withScript [] s)) (headerBytes s.h) u := by
  have hstep := step_startEncode hg hb hs
  rw [startEncode_of_fits (s := withScript [] s) hfits] at hstep
  obtain ⟨u, hrun, hu⟩ := emits_sections (List.suffix_refl serSections) (m := begun (withScript [] s))
    (busy_eq_false_iff.mp hb).1 rfl
  have hbytes : emittedBy (begun (withScript [] s)).h serSections (begun (withScript [] s)).ser.out = headerBytes s.h :=
    emittedBy_serSections s.h
  rw [hbytes] at hrun hu
  exact ⟨u, runsTo_trans (runsTo_one hstep) hrun, hu⟩

/-- Settles O55: either both levels fault at the lengths, or the machine emits the header's bytes and delivers them. -/
theorem serializerMachineRefinesEncode : Obligations.SerializerMachineRefinesEncode := by
  intro s hg hb hs
  cases hover : encodeOverflows s.h
  · obtain ⟨t, ht⟩ := encoded_of_fits (s := { s with params := { s.params with grain := .operation } }) rfl hover
    obtain ⟨u, hrun, c, x, hx, hu⟩ := runsTo_delivered hg hb hs hover
    obtain ⟨hstatus, herr, hinfo, hrsp⟩ := ht.ranOk
    refine ⟨t, u, ht.exec_eq, ht.len_eq ▸ hrun, ?_⟩
    rw [ht.h_eq, ht.len_eq, hrsp, hstatus, herr, hinfo, ht.src_eq, ht.snk_eq, hu]
    exact ⟨hx, rfl, rfl, rfl, rfl, rfl, rfl, rfl, rfl⟩
  · have hstep := step_cmd hb hs (i := .encode) rfl
    rw [exec_encode_of_overflow (s := withScript [] s) hover] at hstep
    exact ⟨_, _, exec_encode_of_overflow hover, runsTo_one hstep, rfl, rfl, rfl, rfl, rfl, rfl, rfl, rfl, rfl⟩

end Sys2Proof.Machine
end

section
/-! PROOFS about the checksum unit (44_checksum.md R175 to R179): its check values, and what CRC32, CRC16_FN and CRC16 answer and
leave. -/

namespace Sys2Proof.Machine

/-! ### Check values -/

/-- R175: the register after "123456789". -/
theorem crcFold_digits :
    crcFold crcInit [0x31#8, 0x32#8, 0x33#8, 0x34#8, 0x35#8, 0x36#8, 0x37#8, 0x38#8, 0x39#8] = 0x340BC6D9#32 := by
  decide +kernel

/-- R175: the register after the MAGIC bytes, with which every header begins. -/
theorem crcFold_magic : crcFold crcInit [0x1f#8, 0x8b#8] = 0x0916B936#32 := by decide +kernel

/-- R175, R179: the bytes behind MAGIC of the default header with FHCRC continue from the register after MAGIC. -/
theorem crcFold_defaultHeader :
    crcFold crcInit [0x1f#8, 0x8b#8, 8#8, 2#8, 0#8, 0#8, 0#8, 0#8, 0#8, 255#8] = 0x47A8366F#32 := by
  change crcFold crcInit ([0x1f#8, 0x8b#8] ++ [8#8, 2#8, 0#8, 0#8, 0#8, 0#8, 0#8, 255#8]) = _
  rw [crcFold_append, crcFold_magic]
  decide +kernel

/-- R175: the CRC-32 of nothing, since the initial value and the final xor cancel. -/
theorem crc32Of_nil : crc32Of [] = 0#32 := BitVec.xor_self

/-- Settles O41: each check value is the register after its bytes, xored with all ones, and its low half for the 16 bits. -/
theorem checksumCheckValues : Obligations.ChecksumCheckValues := by
  refine ⟨?_, crc32Of_nil, ?_, ?_⟩
  · rw [crc32Of, crcFold_digits]
    decide
  · rw [crc32Of, crcFold_magic]
    decide
  · rw [crc16Of, crc32Of, crcFold_defaultHeader]
    decide

/-! ### One more byte -/

/-- R175, R179: one byte more at the end is xored into the register after the others and shifted out. -/
theorem crcFold_concat (c : Word32) (xs : Bytes) (b : Byte) :
    crcFold c (xs ++ [b]) = crcShifts 8 (crcFold c xs ^^^ b.setWidth 32) := by
  rw [crcFold_append, crcFold_cons, crcFold_nil, crcByte]

/-! ### The command and the two procedures -/

/-- R175: CRC32 writes the register to `C` and returns its CRC-32. -/
theorem exec_crc32 (xs : Bytes) (s : State) :
    exec (.crc32 xs) s = .next ((s.setC (crcFold crcInit xs)).setRet (.u32 (crcFold crcInit xs ^^^ crcXorOut))) := rfl

/-- R176: CRC16_FN writes the register to `C` and returns the low half of its CRC-32. -/
theorem exec_crc16Fn (xs : Bytes) (s : State) :
    exec (.crc16Fn xs) s = .next ((s.setC (crcFold crcInit xs)).setRet (.u16 ((crc32Of xs).setWidth 16))) := rfl

/-- R177: the command CRC16 writes the register to `C` and ends `ok` with what CRC16_FN returns. -/
theorem exec_crc16 (xs : Bytes) (s : State) :
    exec (.crc16 xs) s = .next (endOk (.u16 ((crc32Of xs).setWidth 16)) (s.setC (crcFold crcInit xs))) := rfl

/-- R177: a command that ends `ok` and has written `C` alone. -/
theorem unitsKept_setC (v : Value) (c : Word32) (s : State) : s.unitsKept (endOk v (s.setC c)) :=
  ⟨rfl, rfl, rfl, rfl, rfl, rfl, rfl, rfl, rfl, rfl⟩

/-- Settles O42: each of the three runs the register over its operand, and the register of one byte more continues it. -/
theorem checksumRunsTheRegister : Obligations.ChecksumRunsTheRegister := by
  intro xs b s
  refine ⟨⟨_, exec_crc32 [] s, ?_⟩, ⟨_, exec_crc32 xs s, rfl, rfl, _, exec_crc32 (xs ++ [b]) s, ?_⟩,
    ⟨_, exec_crc16Fn xs s, rfl, rfl⟩, ⟨_, exec_crc16 xs s, ranOk_endOk _ _, rfl, unitsKept_setC _ _ s⟩⟩
  · exact crcFold_nil crcInit
  · exact crcFold_concat crcInit xs b

end Sys2Proof.Machine
end

section
/-! PROOFS of reset (70_reset_and_hazards.md R215): a due reset strikes whether a command runs or not. -/

namespace Sys2Proof.Machine

/-- R215: a running command is abandoned once the reset's count is used up. -/
theorem runningStep_reset {s : State} {rest : List HostAction} (hs : s.out.script = .reset 0 :: rest) :
    runningStep s = applyReset (withScript rest s) := by
  simp only [runningStep, hs]

/-- R215: an idle block takes the host's reset at once, whatever its count. -/
theorem step_reset_of_idle {s : State} {k : Nat} {rest : List HostAction} (hb : busy s = false)
    (hs : s.out.script = .reset k :: rest) : step s = .next (applyReset (withScript rest s)) := by
  simp [step, hb, hs]

/-- R215: a reset that is due is one and the same step on an idle and on a running block. -/
theorem step_reset_of_due {s : State} {k : Nat} {rest : List HostAction} (hs : s.out.script = .reset k :: rest)
    (hdue : busy s = true → k = 0) : step s = .next (applyReset (withScript rest s)) := by
  cases hb : busy s with
  | false => exact step_reset_of_idle hb hs
  | true =>
    obtain rfl : k = 0 := hdue hb
    rw [step_of_busy hb, runningStep_reset hs]

/-- Settles O2: the step is `applyReset`, which writes the table of R34 over all but the source, the sink, the parameters and
the script. -/
theorem resetAbandonsTheCommand : Obligations.ResetAbandonsTheCommand := by
  intro s k rest hs hdue
  obtain ⟨-, hr, hp, hser, hout, hstatus, herr, hinfo, hlen, -, -⟩ := resetLeavesTheFreshHeader
  exact ⟨applyReset (withScript rest s), step_reset_of_due hs hdue, applyReset_h _, hr, hp, hser, hout, hstatus, herr, hinfo,
    hlen, applyReset_out_src _, applyReset_out_snk _, applyReset_params _, applyReset_out_script _⟩

end Sys2Proof.Machine
end
